-- ==== Sys2Proof/Word.lean ====
section
/-! DEFINITION. The words of the RTP Codec Engine: bytes, bits, byte sequences (00_scope.md R13, R14). -/

namespace Sys2Proof

/-- An 8-bit value; bit 0 is the least significant bit (R13). -/
abbrev Byte := BitVec 8

/-- A one-bit field, 0 = false and 1 = true (10_state.md section 2). -/
abbrev Bit := BitVec 1

/-- A finite sequence of 8-bit values, index 0 first (R14). -/
abbrev Bytes := List Byte

/-- A 32-bit field of the wire format. -/
abbrev Word32 := BitVec 32

/-- An extension element id or a control byte's `len_field`: 4 bits (R33, R118). -/
abbrev Nibble := BitVec 4

end Sys2Proof
end

