-- ==== Sys2Proof/Machine/Packed.lean ====
section
/-! DEFINITION. The packed-field unpacker and packer (40_packed_fields.md R110 to R120), and the sequence notation of 00_scope.md R14
they and the decoder are written with. -/

namespace Sys2Proof.Machine

/-- R14: `s[off .. off + n)`. -/
def slice {α : Type} (s : List α) (off n : Nat) : List α := (s.drop off).take n

/-- R14: `s[k]`, used only for `k < |s|` (20_memory.md R70). -/
def byteAt (s : Bytes) (k : Nat) : Byte := s.getD k 0

/-- R14: `n` bytes of value 0. -/
def zeros (n : Nat) : Bytes := List.replicate n 0

/-- R110. -/
def unpack0 (b : Byte) : BitVec 2 × Bit × Bit × BitVec 4 :=
  (b.extractLsb' 6 2, b.extractLsb' 5 1, b.extractLsb' 4 1, b.extractLsb' 0 4)

/-- R112. -/
def pack0 (v : BitVec 2) (p x : Bit) (cc : BitVec 4) : Byte :=
  (v.setWidth 8 <<< 6) ||| (p.setWidth 8 <<< 5) ||| (x.setWidth 8 <<< 4) ||| cc.setWidth 8

/-- R111. -/
def unpack1 (b : Byte) : Bit × BitVec 7 := (b.extractLsb' 7 1, b.extractLsb' 0 7)

/-- R113. -/
def pack1 (m : Bit) (pt : BitVec 7) : Byte := (m.setWidth 8 <<< 7) ||| pt.setWidth 8

/-- R114: the big-endian value of a 2-byte sequence. -/
def be16 (s : Bytes) : BitVec 16 := BitVec.ofNat 16 ((byteAt s 0).toNat * 256 + (byteAt s 1).toNat)

/-- R115: the big-endian value of a 4-byte sequence. -/
def be32 (s : Bytes) : Word32 :=
  BitVec.ofNat 32 ((byteAt s 0).toNat * 2 ^ 24 + (byteAt s 1).toNat * 2 ^ 16 + (byteAt s 2).toNat * 2 ^ 8 + (byteAt s 3).toNat)

/-- R116. -/
def tobe16 (v : BitVec 16) : Bytes := [v.extractLsb' 8 8, v.extractLsb' 0 8]

/-- R117. -/
def tobe32 (v : Word32) : Bytes :=
  [v.extractLsb' 24 8, v.extractLsb' 16 8, v.extractLsb' 8 8, v.extractLsb' 0 8]

/-- R118: (id, len_field). -/
def ctrlUnpack (c : Byte) : Nibble × Nibble := (c.extractLsb' 4 4, c.extractLsb' 0 4)

/-- R119; called with `1 ≤ length ≤ 16`. -/
def ctrlPack (id : Nibble) (length : Nat) : Byte := (id.setWidth 8 <<< 4) ||| BitVec.ofNat 8 (length - 1)

/-- R120: the class of a control byte. -/
inductive CtrlClass where
  | pad | elem | term
deriving DecidableEq, Repr

/-- R120. -/
def ctrlClass (c : Byte) : CtrlClass :=
  if (ctrlUnpack c).1 = 0 then .pad else if (ctrlUnpack c).1 = 15 then .term else .elem

end Sys2Proof.Machine
end

