-- ==== Sys2Proof/Config.lean ====
section
/-! DEFINITION. What an implementation fixes, and the free values: the OPEN parameters of 00_scope.md R11, 20_memory.md R72
and 70_reset_and_hazards.md R264, and what the host sees of an element nothing has written (93_implementation_defined.md I14). -/

namespace Sys2Proof.Config

/-- The parameters "the model takes as arguments" (R11). An instance holds them in its State, where no step changes them
(log 1), so that every statement over all states is a statement over all their values. -/
structure Params where
  /-- `MAX_IN_BYTES` -/
  maxIn : Nat
  /-- `MAX_OUT_BYTES` -/
  maxOut : Nat
  /-- `MAX_ARG_BYTES` -/
  maxArg : Nat
  /-- `MAX_PAYLOAD_BYTES` -/
  maxPayload : Nat
  /-- `MAX_CSRC_SLOTS` -/
  maxCsrcSlots : Nat
  /-- `MAX_EXT_SLOTS` -/
  maxExtSlots : Nat
  /-- `MAX_ELEM_BYTES` -/
  maxElemBytes : Nat
deriving DecidableEq, Repr

/-- The constraint column of R11. -/
abbrev Params.Valid (p : Params) : Prop :=
  12 ≤ p.maxIn ∧ 12 ≤ p.maxOut ∧ 17 ≤ p.maxArg ∧ p.maxIn ≤ p.maxPayload ∧
    16 ≤ p.maxCsrcSlots ∧ 15 ≤ p.maxExtSlots ∧ 17 ≤ p.maxElemBytes

/-- DESIGN CHOICE (log 1): the parameters of the instance that `State.reset` is. The spec leaves them OPEN; these satisfy R11 and
are large enough for the vectors of 95_test_vectors.md. No statement rests on them. -/
def defaultParams : Params :=
  { maxIn := 2048, maxOut := 2048, maxArg := 256, maxPayload := 2048,
    maxCsrcSlots := 64, maxExtSlots := 64, maxElemBytes := 64 }

/-- `RCE_BASE` (R72, OPEN): where register 0x00 stands in the host's address map. No rule of the block reads it (log 16). -/
opaque rceBase : Nat

/-- `CMD_LATENCY` (R264, OPEN): the cycles a command word takes on an input frame. No rule depends on it (log 16). -/
opaque cmdLatency : Byte → Bytes → Nat

/-- Free value (I14, log 5): what the `k`-th host read returns for an unwritten register of number `reg`, before it is cut to
the register's bound. -/
opaque unwrittenReg : (k reg : Nat) → Nat

/-- Free value (I14, log 5): what the `k`-th host read returns for an unwritten byte at `off` of buffer M`buf`. -/
opaque unwrittenByte : (k buf off : Nat) → Byte

/-- Free value (I14, log 5): the CSRC words the `k`-th host read returns when `PKT.csrc_list` is unwritten. -/
opaque unwrittenCsrcs : (k : Nat) → List Word32

/-- Free value (I14, log 5): the (id, data) pairs the `k`-th host read returns when `PKT.extension_elements` is unwritten. -/
opaque unwrittenElements : (k : Nat) → List (Nibble × Bytes)

/-- Free value (I14, log 5): the bytes the `k`-th host read returns when `PKT.payload` is unwritten. -/
opaque unwrittenPayload : (k : Nat) → Bytes

end Sys2Proof.Config
end

