-- ==== Sys2Proof/Syntax.lean ====
section
/-! DEFINITION. The instructions of the RCE: one constructor per row of spec/opcode_table.json. -/

namespace Sys2Proof

/-- Where an encoding stands, the `format` column of the opcode table. The same bits mean different rows at
different places (0x80 is a reserved command word, an RTP byte 0 and an element control byte), so the place is part of what
is decoded. -/
inductive Port where
  /-- The command port CMD, register 0x00 (10_state.md R39). -/
  | cmd
  /-- Frame byte 0 (30_encoding.md R82). -/
  | byte0
  /-- Frame byte 1 (R83). -/
  | byte1
  /-- The 16-bit extension profile (R85). -/
  | profile
  /-- A control byte of the extension body (R86). -/
  | ctrl
deriving DecidableEq, Repr

/-- One constructor per row of the opcode table. The three commands have implicit operands (R95, R97). -/
inductive Instr where
  /-- DECODE, CMD word 0x01 (R130). -/
  | decode
  /-- ENCODE, CMD word 0x02 (R160). -/
  | encode
  /-- ADD_EXT, CMD word 0x03 (R210). -/
  | addExt
  /-- RESERVED_CMD, every other CMD word (R96). -/
  | reservedCmd (word : Byte)
  /-- RTP_BYTE0, `vvpxcccc` (R82). -/
  | rtpByte0 (version : BitVec 2) (padding extension : Bit) (csrcCount : BitVec 4)
  /-- RTP_BYTE1, `mttttttt` (R83). -/
  | rtpByte1 (marker : Bit) (payloadType : BitVec 7)
  /-- EXT_PROFILE_BEDE, the 16-bit big-endian value 0xBEDE (R85). -/
  | extProfileBede
  /-- EXT_PAD, control byte `0000llll` (R194). -/
  | extPad (lenField : Nibble)
  /-- EXT_ELEM, control byte `iiiillll` with id 1 to 14; `lenField + 1` data bytes follow it (R196). -/
  | extElem (id lenField : Nibble)
  /-- EXT_TERM, control byte `1111xxxx` (R195). -/
  | extTerm (low : Nibble)
deriving DecidableEq, Repr

end Sys2Proof
end

