-- ==== Sys2Proof/Machine/State.lean ====
section
/-! DEFINITION. The state of one RCE instance (10_state.md R21, R46 to R49), as plain data, and its value after reset (R250, R251). -/

namespace Sys2Proof.Machine

/-- An extension element; its length is the length of its data (R33). -/
structure Element where
  id : Nibble
  data : Bytes
deriving DecidableEq, Repr

/-- The packet record PKT (R22 to R37). -/
structure Packet where
  /-- R22 -/
  version : BitVec 2
  /-- R23 -/
  padding : Bit
  /-- R24 -/
  hasExtension : Bit
  /-- R25 -/
  csrcCount : BitVec 4
  /-- R26 -/
  marker : Bit
  /-- R27 -/
  payloadType : BitVec 7
  /-- R28 -/
  sequenceNumber : BitVec 16
  /-- R29 -/
  timestamp : Word32
  /-- R30 -/
  ssrc : Word32
  /-- R31 -/
  extensionProfile : BitVec 16
  /-- R32 -/
  csrcList : List Word32
  /-- R33 -/
  extensionElements : List Element
  /-- R35 -/
  paddingSize : Byte
  /-- R36 -/
  payload : Bytes
  /-- R37: the tracked extension byte total. -/
  extBytes : Nat
deriving DecidableEq, Repr

/-- The record the model's fields hold where the spec gives no value (log 2). -/
def Packet.zero : Packet :=
  { version := 0, padding := 0, hasExtension := 0, csrcCount := 0, marker := 0, payloadType := 0, sequenceNumber := 0,
    timestamp := 0, ssrc := 0, extensionProfile := 0, csrcList := [], extensionElements := [], paddingSize := 0,
    payload := [], extBytes := 0 }

/-- A byte buffer: (offset, byte) pairs, offsets strictly rising. An offset that is not listed holds no written byte (R47: IBUF,
OBUF and ARGBUF are tracked per byte), and reading it gives no value (log 4). -/
abbrev Memory := List Host.Cell

/-- The registers of R46 that hold state; CMD (0x00) is a port (R39). -/
inductive Reg where
  | status | ilen | cap | olen | argId | argLen
  | version | padding | hasExtension | csrcCount | marker | payloadType | sequenceNumber | timestamp | ssrc
  | extensionProfile | paddingSize | extBytes
deriving DecidableEq, Repr

/-- The byte buffers M0, M1, M2 (R46). -/
inductive Buf where
  | ibuf | obuf | argbuf
deriving DecidableEq, Repr

/-- The PKT sequences M3, M4, M5 (R46). -/
inductive SeqName where
  | csrcList | extensionElements | payload
deriving DecidableEq, Repr

/-- A state element of R46, as `Fault(unwritten, element)` names it (R48). -/
inductive Elt where
  | reg (r : Reg)
  | buf (b : Buf)
  | seq (q : SeqName)
deriving DecidableEq, Repr

/-- `W` (R21, R47): which registers and PKT sequences have been written since reset. STATUS is always written; the buffers are
tracked per byte by their memories. -/
structure Written where
  ilen : Bool
  cap : Bool
  olen : Bool
  argId : Bool
  argLen : Bool
  version : Bool
  padding : Bool
  hasExtension : Bool
  csrcCount : Bool
  marker : Bool
  payloadType : Bool
  sequenceNumber : Bool
  timestamp : Bool
  ssrc : Bool
  extensionProfile : Bool
  paddingSize : Bool
  extBytes : Bool
  csrcList : Bool
  extensionElements : Bool
  payload : Bool
deriving DecidableEq, Repr

/-- After reset nothing has been written (R250). -/
def Written.none : Written :=
  { ilen := false, cap := false, olen := false, argId := false, argLen := false, version := false, padding := false,
    hasExtension := false, csrcCount := false, marker := false, payloadType := false, sequenceNumber := false,
    timestamp := false, ssrc := false, extensionProfile := false, paddingSize := false, extBytes := false,
    csrcList := false, extensionElements := false, payload := false }

/-- Where DECODE's procedure stands (41_decoder.md R130, S1 to S10), for the unit-stepped view of R202 (log 8). -/
inductive Phase where
  /-- No frame is being parsed: the only phase between commands (R49). -/
  | idle
  /-- S1 and S2: the length check and frame byte 0. -/
  | byte0
  /-- S3: frame byte 1. -/
  | byte1
  /-- S4 and S5: the fixed words and the CSRC list. -/
  | words
  /-- S6, R137 to R139: the extension profile. -/
  | profile
  /-- S6, R140 and R141: the extension length. -/
  | extLength
  /-- S6, R142: the extension body, unit by unit (R192 to R199). -/
  | body
  /-- S7 to S10: payload, padding and commit. -/
  | tail
deriving DecidableEq, Repr

/-- The local state of a DECODE in progress (R49, R131, R191), not architectural and idle between commands. -/
structure Walk where
  phase : Phase
  /-- `B`, the frame (R131). -/
  frame : Bytes
  /-- `cur`, the cursor into the frame (R131). -/
  cur : Nat
  /-- `N = 4*L`, the length of the extension body (R190). -/
  bodyLen : Nat
  /-- `i`, the iterator's cursor into the body (R191). -/
  i : Nat
  /-- `seen`, the ids recorded so far, each once, in the order recorded (R191, log 17). -/
  seen : List Nibble
  /-- The record built in local state (R224); its `extensionElements` are the iterator's `elems` (R191). -/
  draft : Packet
deriving DecidableEq, Repr

/-- No DECODE in progress: the local state does not exist (R49, R251). -/
def Walk.idle : Walk :=
  { phase := .idle, frame := [], cur := 0, bodyLen := 0, i := 0, seen := [], draft := Packet.zero }

/-- The content of a PKT sequence, as the host writes and reads it whole (R46, R98). -/
inductive SeqValue where
  | csrcList (ws : List Word32)
  | extensionElements (es : List Element)
  | payload (bs : Bytes)
deriving DecidableEq, Repr

/-- One operation of the host (R46, R98), or reset (R250). -/
inductive HostOp where
  /-- `W <reg>, <value>`: (register number, value). A write to 0x00 is a CMD write. -/
  | write (reg : Byte) (value : Nat)
  /-- `WB <buf>, <off>, [..]`. -/
  | writeBytes (buf : Buf) (off : Nat) (bytes : Bytes)
  /-- `WS <seq>, [..]`. -/
  | writeSeq (value : SeqValue)
  /-- `R <reg>`. -/
  | read (reg : Byte)
  /-- `RB <buf>, <off>, <n>`. -/
  | readBytes (buf : Buf) (off n : Nat)
  /-- `RS <seq>`. -/
  | readSeq (seq : SeqName)
  /-- Reset, an event outside every command (R250). -/
  | reset
deriving DecidableEq, Repr

/-- What a host read returns. -/
inductive HostValue where
  | nat (v : Nat)
  | bytes (bs : Bytes)
  | seq (v : SeqValue)
deriving DecidableEq, Repr

/-- The state of one instance. -/
structure State where
  /-- The instance's parameters (R11), fixed (log 1). -/
  params : Config.Params
  /-- PKT (R22 to R37). -/
  pkt : Packet
  /-- IBUF, M0 (R60). -/
  ibuf : Memory
  /-- ILEN, register 0x02 (R41). -/
  ilen : Nat
  /-- OBUF, M1 (R61). -/
  obuf : Memory
  /-- CAP, register 0x03 (R42). -/
  cap : Nat
  /-- OLEN, register 0x04 (R43). -/
  olen : Nat
  /-- ARGBUF, M2 (R62). -/
  argbuf : Memory
  /-- ARG_ID, register 0x05 (R44). -/
  argId : Byte
  /-- ARG_LEN, register 0x06 (R44). -/
  argLen : Nat
  /-- STATUS, register 0x01 (R40). -/
  status : Byte
  /-- `W` (R21, R47). -/
  written : Written
  /-- The fault mark (R48). -/
  faultMark : Bool
  /-- The refusal mark (R96). -/
  refusalMark : Bool
  /-- DECODE's local state (R49); idle between commands. -/
  walk : Walk
  /-- The model's own: the host's operations still to come, the next one first (log 6). -/
  pending : List HostOp
  /-- The model's own: what the last host read returned (log 5). -/
  rdata : HostValue
  /-- The model's own: how many host reads there have been, the argument of the free values (log 5). -/
  reads : Nat
deriving DecidableEq, Repr

/-- Why the machine stops with a fault. -/
inductive Fault where
  /-- `Fault(unwritten, element)` (R48): raised by a command one of whose listed inputs has not been written since reset. Nothing
  is written. Safe: "the model gives it no meaning" (R48; I13 of 93_implementation_defined.md lists the same fault). -/
  | unwritten (e : Elt)
deriving DecidableEq, Repr

/-- Why a step is refused. -/
inductive Refusal where
  /-- Raised by `exec` for an instruction that has no meaning yet. Safe. -/
  | notModelled (mnemonic : String)
  /-- `Refused(reserved_command, value)` (R96): raised by a CMD write of a word that spells no command. Safe. -/
  | reservedCommand (word : Byte)
  /-- Raised by a host access to a number that names no register (R46, I9). Safe. -/
  | reservedRegister (number : Byte)
  /-- Raised by a host write to STATUS, OLEN or OBUF (R46, I12). Safe. -/
  | readOnly (e : Elt)
  /-- Raised by a host write of a value that does not fit the element's width or bound (R46, I12). Safe. -/
  | doesNotFit (e : Elt)
  /-- Raised by a host write of a value wider than 8 bits to CMD (R39, R46). Safe. -/
  | commandTooWide (value : Nat)
  /-- Raised by a host access to a buffer that leaves offsets 0 to capacity - 1 (R72, R46). Safe. -/
  | outOfRange (b : Buf)
deriving DecidableEq, Repr

/-- Reset of an instance with given parameters (R250, R251): STATUS is 0x00, nothing is written, both marks are clear, no command is
in progress. The values of the unwritten registers are DESIGN CHOICE (log 2). -/
def State.resetWith (p : Config.Params) : State :=
  { params := p, pkt := Packet.zero, ibuf := [], ilen := 0, obuf := [], cap := 0, olen := 0, argbuf := [], argId := 0,
    argLen := 0, status := 0, written := Written.none, faultMark := false, refusalMark := false, walk := Walk.idle,
    pending := [], rdata := .nat 0, reads := 0 }

/-- The machine right after reset. -/
def State.reset : State := State.resetWith Config.defaultParams

end Sys2Proof.Machine
end

