-- ==== Sys2Proof/Machine/ExtBlock.lean ====
section
/-! DEFINITION. The extension block parser, as an iterator stepped one unit at a time, and the writer (43_extension_block.md). -/

namespace Sys2Proof.Machine

/-- R202: the states of the iterator. -/
inductive IterState where
  | run (i : Nat) (elems : List Element) (seen : List Nibble)
  | done (elems : List Element)
  | fail
deriving DecidableEq, Repr

/-- R196 to R199: one ELEM unit at cursor `i` of `body`. `none` is Malformed: the data run past the body, or the id was already
recorded. Otherwise the new cursor, elements and seen ids. -/
def recordElement (body : Bytes) (i : Nat) (id lenField : Nibble) (elems : List Element) (seen : List Nibble) :
    Option (Nat × List Element × List Nibble) :=
  let length := lenField.toNat + 1
  if i + 1 + length > body.length then none
  else if id ∈ seen then none
  else some (i + 1 + length, elems ++ [{ id := id, data := slice body (i + 1) length }], seen ++ [id])

/-- R202 `Step(body, _)`. -/
def iterStep (body : Bytes) : IterState → IterState
  | .run i elems seen =>
    if i ≥ body.length then .done elems
    else
      let c := byteAt body i
      match ctrlClass c with
      | .pad => .run (i + 1) elems seen
      | .term => .done elems
      | .elem =>
        match recordElement body i (ctrlUnpack c).1 (ctrlUnpack c).2 elems seen with
        | none => .fail
        | some (i', elems', seen') => .run i' elems' seen'
  | .done elems => .done elems
  | .fail => .fail

/-- `n` steps of the iterator. -/
def iterRun (body : Bytes) : Nat → IterState → IterState
  | 0, st => st
  | n + 1, st => iterRun body n (iterStep body st)

/-- R202 `Start(body)`, R191. -/
def iterStart : IterState := .run 0 [] []

/-- R190 `ParseBlock(body)`: the elements in discovery order (R200), or `none` for Malformed. `|body| + 1` steps reach an end (R201). -/
def parseBlock (body : Bytes) : Option (List Element) :=
  match iterRun body (body.length + 1) iterStart with
  | .done elems => some elems
  | .run _ _ _ => none
  | .fail => none

/-- The wire size of an element: its control byte and its data (R204, R213). -/
def Element.wireSize (e : Element) : Nat := 1 + e.data.length

/-- R204: `eb`. -/
def elementBytes (elems : List Element) : Nat := (elems.map Element.wireSize).sum

/-- R204: `L = ceil(eb / 4)`. -/
def extWords (elems : List Element) : Nat := (elementBytes elems + 3) / 4

/-- R203: one element on the wire. -/
def Element.wire (e : Element) : Bytes := ctrlPack e.id e.data.length :: e.data

/-- R203 `WriteBlock(elems)`. -/
def writeBlock (elems : List Element) : Bytes :=
  elems.flatMap Element.wire ++ zeros (4 * extWords elems - elementBytes elems)

end Sys2Proof.Machine
end

