-- ==== Sys2Proof/Machine/Flags.lean ====
section
/-! DEFINITION. STATUS, the block's only status register (10_state.md R40, R51), and the error codes in it (60_exceptions.md R221). -/

namespace Sys2Proof.Machine

/-- The nine errors of the taxonomy (R221). -/
inductive Err where
  | unsupportedVersion
  | truncated
  | unsupportedExtensionProfile
  | malformed
  | tooManyCsrc
  | tooManyExtensionElements
  | invalidElementLength
  | invalidArgument
  | bufferTooSmall
deriving DecidableEq, Repr

/-- R221: the code of each error in STATUS.CODE. -/
def Err.code : Err → BitVec 4
  | .unsupportedVersion => 1
  | .truncated => 2
  | .unsupportedExtensionProfile => 3
  | .malformed => 4
  | .tooManyCsrc => 5
  | .tooManyExtensionElements => 6
  | .invalidElementLength => 7
  | .invalidArgument => 8
  | .bufferTooSmall => 9

/-- The three commands (R95). -/
inductive Command where
  | decode | encode | addExt
deriving DecidableEq, Repr

/-- R94: a command's opcode, as STATUS.LASTOP records it (R40). -/
def Command.opcode : Command → BitVec 2
  | .decode => 1
  | .encode => 2
  | .addExt => 3

/-- R40: STATUS with CODE in bits 3:0, LASTOP in bits 5:4 and the reserved bits 7:6 as 0. -/
def statusWord (code : BitVec 4) (lastop : BitVec 2) : Byte := (lastop.setWidth 8 <<< 4) ||| code.setWidth 8

/-- R40: STATUS.CODE. -/
def statusCode (st : Byte) : BitVec 4 := st.extractLsb' 0 4

/-- R40: STATUS.LASTOP. -/
def statusLastop (st : Byte) : BitVec 2 := st.extractLsb' 4 2

end Sys2Proof.Machine
end

