-- ==== Sys2Proof/Machine/Ops.lean ====
section
/-! DEFINITION. The named operations over the buffers and registers, and the two ways a command ends (60_exceptions.md R222, R223). -/

namespace Sys2Proof.Machine

/-! ### Buffers (20_memory.md) -/

/-- The canonical form: offsets strictly rising. -/
abbrev Memory.wf (m : Memory) : Prop := (m.map Prod.fst).Pairwise (· < ·)

/-- The byte at an offset, if one has been written. -/
def Memory.read : Memory → Nat → Option Byte
  | [], _ => none
  | (k, v) :: rest, a => if k = a then some v else Memory.read rest a

/-- One byte write, keeping the offsets in order. -/
def Memory.write : Memory → Nat → Byte → Memory
  | [], a, b => [(a, b)]
  | (k, v) :: rest, a, b =>
    if a < k then (a, b) :: (k, v) :: rest
    else if a = k then (a, b) :: rest
    else (k, v) :: Memory.write rest a b

/-- R15 `MemRead(BUF, off, n)`: `n` bytes, if each of them has been written (R47, R48). -/
def Memory.readRange (m : Memory) : Nat → Nat → Option Bytes
  | _, 0 => some []
  | off, n + 1 =>
    match Memory.read m off, Memory.readRange m (off + 1) n with
    | some b, some bs => some (b :: bs)
    | _, _ => none

/-- R15 `MemWrite(BUF, off, n, v)`: the bytes of `v` in order, the first at the lowest offset (R66). -/
def Memory.writeRange (m : Memory) : Nat → Bytes → Memory
  | _, [] => m
  | off, b :: bs => Memory.writeRange (Memory.write m off b) (off + 1) bs

/-- A buffer of the state. -/
def State.buffer (s : State) : Buf → Memory
  | .ibuf => s.ibuf
  | .obuf => s.obuf
  | .argbuf => s.argbuf

/-- A buffer's capacity in bytes (R60 to R62). -/
def bufCapacity (p : Config.Params) : Buf → Nat
  | .ibuf => p.maxIn
  | .obuf => p.maxOut
  | .argbuf => p.maxArg

/-- The bytes of `BUF[off .. off + n)` once they are known to be written. -/
def State.bytes (s : State) (b : Buf) (off n : Nat) : Bytes := ((s.buffer b).readRange off n).getD []

/-! ### `W`, the written elements (R47) -/

def Written.reg (w : Written) : Reg → Bool
  | .status => true
  | .ilen => w.ilen
  | .cap => w.cap
  | .olen => w.olen
  | .argId => w.argId
  | .argLen => w.argLen
  | .version => w.version
  | .padding => w.padding
  | .hasExtension => w.hasExtension
  | .csrcCount => w.csrcCount
  | .marker => w.marker
  | .payloadType => w.payloadType
  | .sequenceNumber => w.sequenceNumber
  | .timestamp => w.timestamp
  | .ssrc => w.ssrc
  | .extensionProfile => w.extensionProfile
  | .paddingSize => w.paddingSize
  | .extBytes => w.extBytes

def Written.seq (w : Written) : SeqName → Bool
  | .csrcList => w.csrcList
  | .extensionElements => w.extensionElements
  | .payload => w.payload

def Written.markReg (w : Written) : Reg → Written
  | .status => w
  | .ilen => { w with ilen := true }
  | .cap => { w with cap := true }
  | .olen => { w with olen := true }
  | .argId => { w with argId := true }
  | .argLen => { w with argLen := true }
  | .version => { w with version := true }
  | .padding => { w with padding := true }
  | .hasExtension => { w with hasExtension := true }
  | .csrcCount => { w with csrcCount := true }
  | .marker => { w with marker := true }
  | .payloadType => { w with payloadType := true }
  | .sequenceNumber => { w with sequenceNumber := true }
  | .timestamp => { w with timestamp := true }
  | .ssrc => { w with ssrc := true }
  | .extensionProfile => { w with extensionProfile := true }
  | .paddingSize => { w with paddingSize := true }
  | .extBytes => { w with extBytes := true }

def Written.markSeq (w : Written) : SeqName → Written
  | .csrcList => { w with csrcList := true }
  | .extensionElements => { w with extensionElements := true }
  | .payload => { w with payload := true }

/-- R47: a successful DECODE writes every PKT field and sequence. -/
def Written.markPkt (w : Written) : Written :=
  { w with
    version := true, padding := true, hasExtension := true, csrcCount := true, marker := true, payloadType := true,
    sequenceNumber := true, timestamp := true, ssrc := true, extensionProfile := true, paddingSize := true,
    extBytes := true, csrcList := true, extensionElements := true, payload := true }

/-! ### How a command ends -/

/-- R223: a command that completes writes STATUS with CODE 0 and its opcode; its local state ends with it (R49). -/
def State.complete (op : Command) (s : State) : State :=
  { s with status := statusWord 0 op.opcode, walk := Walk.idle }

/-- R222, "taking an exception" on this block (R230): `raise E` writes STATUS with E's code and the command's opcode, and for ENCODE
writes OLEN with 0; nothing else is written (R224), the local state is dropped (R49). There is no return from it (R231). -/
def State.raise (op : Command) (e : Err) (s : State) : State :=
  match op with
  | .encode =>
    { s with
      status := statusWord e.code op.opcode, walk := Walk.idle, olen := 0, written := s.written.markReg .olen }
  | .decode => { s with status := statusWord e.code op.opcode, walk := Walk.idle }
  | .addExt => { s with status := statusWord e.code op.opcode, walk := Walk.idle }

end Sys2Proof.Machine
end

