-- ==== Sys2Proof/Machine/Operands.lean ====
section
/-! DEFINITION. The implicit operands of the commands (30_encoding.md R97) and the check every command starts with: each element it
lists is read at its start, and an unwritten one is a fault (10_state.md R48). -/

namespace Sys2Proof.Machine

/-- R47: whether an element is written. A buffer is looked at over its valid range only: `IBUF[0 .. ILEN)`, `OBUF[0 .. OLEN)`,
`ARGBUF[0 .. ARG_LEN)`. -/
def State.isWritten (s : State) : Elt → Bool
  | .reg r => s.written.reg r
  | .seq q => s.written.seq q
  | .buf .ibuf => (s.ibuf.readRange 0 s.ilen).isSome
  | .buf .obuf => (s.obuf.readRange 0 s.olen).isSome
  | .buf .argbuf => (s.argbuf.readRange 0 s.argLen).isSome

/-- R48: "DECODE reads ILEN and then `IBUF[0 .. ILEN)`". -/
def decodeInputs : List Elt := [.reg .ilen, .buf .ibuf]

/-- R48, R160: CAP, then the PKT elements ENCODE uses; the order among the PKT elements is R160's (DESIGN CHOICE, log 3). -/
def encodeInputs : List Elt :=
  [.reg .cap, .reg .version, .reg .padding, .reg .csrcCount, .reg .marker, .reg .payloadType, .reg .sequenceNumber,
   .reg .timestamp, .reg .ssrc, .seq .csrcList, .seq .extensionElements, .seq .payload, .reg .paddingSize]

/-- R48, R210: "ARG_ID, ARG_LEN, `ARGBUF[0 .. ARG_LEN)`, `PKT.extension_elements` and `PKT.ext_bytes`". -/
def addExtInputs : List Elt :=
  [.reg .argId, .reg .argLen, .buf .argbuf, .seq .extensionElements, .reg .extBytes]

/-- The inputs a command reads at its start. -/
def Command.inputs : Command → List Elt
  | .decode => decodeInputs
  | .encode => encodeInputs
  | .addExt => addExtInputs

/-- The first listed element that is unwritten, if any. -/
def State.firstUnwritten (s : State) (es : List Elt) : Option Elt := es.find? fun e => !s.isWritten e

/-- R48: a command runs only when every input it lists is written; else it ends in `Fault(unwritten, element)` and writes nothing. The
spec itself stops here (R48, R228, the last sentence of R251, D6 of 92_eei_decisions.md, I13 of 93_implementation_defined.md), whatever
the element's field holds. -/
def withInputs (c : Command) (s : State) (run : State → State) : Host.Outcome State Fault Refusal :=
  match s.firstUnwritten c.inputs with
  | some e => .fault (.unwritten e)
  | none => .next (run s)

/-- DECODE's operand `B = IBUF[0 .. ILEN)` (R131). -/
def State.inFrame (s : State) : Bytes := s.bytes .ibuf 0 s.ilen

/-- ADD_EXT's operand `d = ARGBUF[0 .. ARG_LEN)` (R210). -/
def State.argData (s : State) : Bytes := s.bytes .argbuf 0 s.argLen

end Sys2Proof.Machine
end

