-- ==== Sys2Proof/Machine/Decoder.lean ====
section
/-! DEFINITION. DECODE (41_decoder.md). -/

namespace Sys2Proof.Machine

/-- R136, S5: `k` CSRC entries from offset `cur` of the frame; `none` is Truncated. -/
def readCsrcs (B : Bytes) : Nat → Nat → Option (List Word32)
  | _, 0 => some []
  | cur, k + 1 =>
    if cur + 4 > B.length then none
    else
      match readCsrcs B (cur + 4) k with
      | none => none
      | some cs => some (be32 (slice B cur 4) :: cs)

/-- R140, R141: the extension length field at `cur`, and the check that the body it announces is there. Answers `4*L`. -/
def readExtLength (B : Bytes) (cur : Nat) : Except Err Nat :=
  if cur + 2 > B.length then .error .truncated
  else
    let L := (be16 (slice B cur 2)).toNat
    if cur + 2 + 4 * L > B.length then .error .truncated else .ok (4 * L)

/-- R137 to R142, S6 with the extension flag set: the elements and the cursor after the body. -/
def readExtension (B : Bytes) (cur : Nat) : Except Err (List Element × Nat) :=
  if cur + 2 > B.length then .error .truncated
  else if be16 (slice B cur 2) ≠ 0xBEDE then .error .unsupportedExtensionProfile
  else
    match readExtLength B (cur + 2) with
    | .error e => .error e
    | .ok n =>
      match parseBlock (slice B (cur + 4) n) with
      | none => .error .malformed
      | some elems => .ok (elems, cur + 4 + n)

/-- R143 to R146, S7 to S9: the payload and the padding size, from `payload_start` and the padding flag. -/
def readTail (B : Bytes) (ps : Nat) (pflag : Bit) : Except Err (Bytes × Byte) :=
  if pflag = 1 then
    let P := byteAt B (B.length - 1)
    if P = 0 ∨ P.toNat > B.length - ps then .error .malformed
    else .ok (slice B ps (B.length - ps - P.toNat), P)
  else .ok (slice B ps (B.length - ps), 0)

/-- R132 to R148: the record a frame decodes to, or the first error in step order (R149). -/
def decodeFrame (B : Bytes) : Except Err Packet :=
  if B.length < 12 then .error .truncated
  else
    let (ver, pflag, xflag, cc) := unpack0 (byteAt B 0)
    if ver ≠ 2 then .error .unsupportedVersion
    else
      let (m, pt) := unpack1 (byteAt B 1)
      match readCsrcs B 12 cc.toNat with
      | none => .error .truncated
      | some csrcs =>
        let cur := 12 + 4 * cc.toNat
        match (if xflag = 1 then readExtension B cur else .ok ([], cur)) with
        | .error e => .error e
        | .ok (elems, ps) =>
          match readTail B ps pflag with
          | .error e => .error e
          | .ok (pay, psize) =>
            .ok
              { version := ver, padding := pflag, hasExtension := xflag, csrcCount := cc, marker := m, payloadType := pt,
                sequenceNumber := be16 (slice B 2 2), timestamp := be32 (slice B 4 4), ssrc := be32 (slice B 8 4),
                extensionProfile := if xflag = 1 then 0xBEDE else 0x0000,
                csrcList := csrcs, extensionElements := elems, paddingSize := psize, payload := pay,
                extBytes := elementBytes elems }

/-- R148, S10: the whole record is replaced at once, and DECODE completes. -/
def State.commitPacket (p : Packet) (s : State) : State :=
  State.complete .decode { s with pkt := p, written := s.written.markPkt }

/-- DECODE on written inputs: commit or raise (R130). -/
def runDecode (s : State) : State :=
  match decodeFrame s.inFrame with
  | .error e => s.raise .decode e
  | .ok p => s.commitPacket p

/-- DECODE (R130). -/
def execDecode (s : State) : Host.Outcome State Fault Refusal := withInputs .decode s runDecode

end Sys2Proof.Machine
end

