-- ==== Sys2Proof/Machine/Encoder.lean ====
section
/-! DEFINITION. ENCODE (42_encoder.md). -/

namespace Sys2Proof.Machine

/-- R165, V4: the data-model invariants the other checks do not cover. -/
abbrev Packet.consistent (p : Packet) : Prop :=
  p.version = 2 ∧ p.csrcCount.toNat = p.csrcList.length ∧ (p.padding = if p.paddingSize = 0 then 0 else 1) ∧
    (∀ e ∈ p.extensionElements, 1 ≤ e.id.toNat ∧ e.id.toNat ≤ 14) ∧ (p.extensionElements.map Element.id).Nodup

/-- R166: the bytes of the extension block, header included. -/
def extBlockSize (elems : List Element) : Nat := if elems = [] then 0 else 4 + 4 * extWords elems

/-- R166: the frame's length. -/
def Packet.total (p : Packet) : Nat :=
  12 + 4 * p.csrcList.length + extBlockSize p.extensionElements + p.payload.length + p.paddingSize.toNat

/-- R162 to R167: the first check that fails, in the order V1 to V5 (R178). -/
def encodeError (p : Packet) (cap : Nat) : Option Err :=
  if p.csrcList.length > 15 then some .tooManyCsrc
  else if p.extensionElements.length > 14 then some .tooManyExtensionElements
  else if ∃ e ∈ p.extensionElements, e.data.length < 1 ∨ e.data.length > 16 then some .invalidElementLength
  else if ¬p.consistent then some .invalidArgument
  else if p.total > cap then some .bufferTooSmall
  else none

/-- R172, W5: profile, length and body, when there is an element. -/
def extBlock (elems : List Element) : Bytes :=
  if elems = [] then [] else tobe16 0xBEDE ++ tobe16 (BitVec.ofNat 16 (extWords elems)) ++ writeBlock elems

/-- R174, W7: `padding_size - 1` zero bytes and the count, when it is not 0. -/
def trailer (n : Byte) : Bytes := if n = 0 then [] else zeros (n.toNat - 1) ++ [n]

/-- R168 to R174, W1 to W7: the frame. `has_extension` is derived from the list (R168). -/
def frameBytes (p : Packet) : Bytes :=
  [pack0 p.version p.padding (if p.extensionElements = [] then 0 else 1) p.csrcCount, pack1 p.marker p.payloadType] ++
    tobe16 p.sequenceNumber ++ tobe32 p.timestamp ++ tobe32 p.ssrc ++ p.csrcList.flatMap tobe32 ++
    extBlock p.extensionElements ++ p.payload ++ trailer p.paddingSize

/-- R175, R177: the frame is written from offset 0 of OBUF, OLEN is its length, and ENCODE completes. -/
def State.commitFrame (p : Packet) (s : State) : State :=
  State.complete .encode
    { s with obuf := s.obuf.writeRange 0 (frameBytes p), olen := p.total, written := s.written.markReg .olen }

/-- ENCODE on written inputs: raise or commit (R160). -/
def runEncode (s : State) : State :=
  match encodeError s.pkt s.cap with
  | some e => s.raise .encode e
  | none => s.commitFrame s.pkt

/-- ENCODE (R160). -/
def execEncode (s : State) : Host.Outcome State Fault Refusal := withInputs .encode s runEncode

end Sys2Proof.Machine
end

