-- ==== Sys2Proof/Machine/Registry.lean ====
section
/-! DEFINITION. ADD_EXT (44_extension_registry.md). -/

namespace Sys2Proof.Machine

/-- R213: the element goes to the end of the list, and the tracked total grows by its wire size. -/
def Packet.append (p : Packet) (e : Element) : Packet :=
  { p with extensionElements := p.extensionElements ++ [e], extBytes := p.extBytes + e.wireSize }

/-- R210 on written inputs: the argument check (R211), the duplicate test (R212), the append (R213). -/
def runAddExt (s : State) : State :=
  let id := s.argId
  let d := s.argData
  if id.toNat < 1 ∨ id.toNat > 14 ∨ d.length < 1 ∨ d.length > 16 then s.raise .addExt .invalidArgument
  else if ∃ e ∈ s.pkt.extensionElements, e.id.toNat = id.toNat then s.complete .addExt
  else
    State.complete .addExt
      { s with
        pkt := s.pkt.append { id := id.extractLsb' 0 4, data := d }
        written := (s.written.markSeq .extensionElements).markReg .extBytes }

/-- ADD_EXT (R210). -/
def execAddExt (s : State) : Host.Outcome State Fault Refusal := withInputs .addExt s runAddExt

end Sys2Proof.Machine
end

