-- ==== Sys2Proof/Machine/Reserved.lean ====
section
/-! DEFINITION. RESERVED_CMD (30_encoding.md R96). -/

namespace Sys2Proof.Machine

/-- R96: "The model refuses it: the outcome is `Refused(reserved_command, value)`, no state changes". -/
def execReservedCmd (word : Byte) (_s : State) : Host.Outcome State Fault Refusal := .refused (.reservedCommand word)

end Sys2Proof.Machine
end

