-- ==== Sys2Proof/Machine/Wire.lean ====
section
/-! DEFINITION. The wire units of the opcode table: what DECODE does with each, as one step on its local state `walk` (41_decoder.md
R133, R134, R138; 43_extension_block.md R192 to R199, R202; log 8). -/

namespace Sys2Proof.Machine

/-- The local state of DECODE is replaced; nothing else is written (R49, R224). -/
def State.setWalk (w : Walk) (s : State) : State := { s with walk := w }

/-- R142, R143: the cursor moves past all `4*L` body bytes, whether or not the parser stopped early. -/
def Walk.endBody (w : Walk) : Walk := { w with phase := .tail, cur := w.cur + w.bodyLen }

/-- The extension body in the frame (R142). -/
def Walk.body (w : Walk) : Bytes := slice w.frame w.cur w.bodyLen

/-- RTP_BYTE0: S2, unpack and check the version (R133). -/
def execRtpByte0 (version : BitVec 2) (padding extension : Bit) (csrcCount : BitVec 4) (s : State) :
    Host.Outcome State Fault Refusal :=
  if version ≠ 2 then .next (s.raise .decode .unsupportedVersion)
  else
    .next (s.setWalk
      { s.walk with
        phase := .byte1
        draft := { s.walk.draft with
          version := version, padding := padding, hasExtension := extension, csrcCount := csrcCount } })

/-- RTP_BYTE1: S3; "No value is rejected" (R134). -/
def execRtpByte1 (marker : Bit) (payloadType : BitVec 7) (s : State) : Host.Outcome State Fault Refusal :=
  .next (s.setWalk
    { s.walk with
      phase := .words
      draft := { s.walk.draft with marker := marker, payloadType := payloadType } })

/-- EXT_PROFILE_BEDE: S6, the profile is read and accepted (R138, R139). -/
def execExtProfileBede (s : State) : Host.Outcome State Fault Refusal :=
  .next (s.setWalk
    { s.walk with
      phase := .extLength
      cur := s.walk.cur + 2
      draft := { s.walk.draft with extensionProfile := 0xBEDE } })

/-- EXT_PAD: "advance `i` by 1", whatever `len_field` holds (R194). -/
def execExtPad (_lenField : Nibble) (s : State) : Host.Outcome State Fault Refusal :=
  .next (s.setWalk { s.walk with i := s.walk.i + 1 })

/-- EXT_ELEM: bounds (R196), duplicate id (R198), record (R197), advance (R199). -/
def execExtElem (id lenField : Nibble) (s : State) : Host.Outcome State Fault Refusal :=
  match recordElement s.walk.body s.walk.i id lenField s.walk.draft.extensionElements s.walk.seen with
  | none => .next (s.raise .decode .malformed)
  | some (i, elems, seen) =>
    .next (s.setWalk
      { s.walk with i := i, seen := seen, draft := { s.walk.draft with extensionElements := elems } })

/-- EXT_TERM: the parser returns at once; the rest of the body is ignored (R195). -/
def execExtTerm (_low : Nibble) (s : State) : Host.Outcome State Fault Refusal := .next (s.setWalk s.walk.endBody)

end Sys2Proof.Machine
end

