-- ==== Sys2Proof/Machine/Dispatch.lean ====
section
/-! DEFINITION. One arm per constructor of Instr. -/

namespace Sys2Proof.Machine

def exec (i : Instr) (s : State) : Host.Outcome State Fault Refusal :=
  match i with
  | .decode => Sys2Proof.Machine.execDecode s
  | .encode => Sys2Proof.Machine.execEncode s
  | .addExt => Sys2Proof.Machine.execAddExt s
  | .reservedCmd word => Sys2Proof.Machine.execReservedCmd word s
  | .rtpByte0 version padding extension csrcCount => Sys2Proof.Machine.execRtpByte0 version padding extension csrcCount s
  | .rtpByte1 marker payloadType => Sys2Proof.Machine.execRtpByte1 marker payloadType s
  | .extProfileBede => Sys2Proof.Machine.execExtProfileBede s
  | .extPad lenField => Sys2Proof.Machine.execExtPad lenField s
  | .extElem id lenField => Sys2Proof.Machine.execExtElem id lenField s
  | .extTerm low => Sys2Proof.Machine.execExtTerm low s

end Sys2Proof.Machine
end

