-- ==== Sys2Proof/WellFormed.lean ====
section
/-! DEFINITION. Which terms of Instr are instructions of the opcode table: the `match` column of spec/opcode_table.json. -/

namespace Sys2Proof

/-- The check of each row: a reserved word is none of the three commands (30_encoding.md R96); RTP byte 0 has version 2
(row RTP_BYTE0, match 0x80 under mask 0xC0); an element id is 1 to 14 (row EXT_ELEM). The other rows admit every operand. -/
def Instr.wellFormed : Instr → Bool
  | .decode => true
  | .encode => true
  | .addExt => true
  | .reservedCmd w => w != 0x01 && w != 0x02 && w != 0x03
  | .rtpByte0 v _ _ _ => v == 2
  | .rtpByte1 _ _ => true
  | .extProfileBede => true
  | .extPad _ => true
  | .extElem id _ => id != 0 && id != 15
  | .extTerm _ => true

end Sys2Proof
end

