-- ==== Sys2Proof/Decode.lean ====
section
/-! DEFINITION. Decoding and encoding of the rows of spec/opcode_table.json: the command words (30_encoding.md R94 to R96) and the
wire units (R82, R83, R85, R86). -/

namespace Sys2Proof

open Sys2Proof.Machine

/-- Why the bits at a place spell no row of the table. -/
inductive Reject where
  /-- There are too few bytes. -/
  | empty
  /-- Frame byte 0 with version 0, 1 or 3 (41_decoder.md R133). -/
  | unsupportedVersion (version : BitVec 2)
  /-- A profile other than 0xBEDE (41_decoder.md R139). -/
  | unsupportedProfile (profile : BitVec 16)
deriving DecidableEq, Repr

/-- R94 to R96: the command a CMD word spells. Total: every word but the three is RESERVED_CMD. -/
def decodeCmd (w : Byte) : Instr :=
  if w = 0x01 then .decode else if w = 0x02 then .encode else if w = 0x03 then .addExt else .reservedCmd w

/-- R82, R110: RTP_BYTE0 has match 0x80 under mask 0xC0, so a version other than 2 is rejected. -/
def decodeByte0 (b : Byte) : Except Reject Instr :=
  let (v, p, x, cc) := unpack0 b
  if v = 2 then .ok (.rtpByte0 v p x cc) else .error (.unsupportedVersion v)

/-- R83, R111: every value is accepted. -/
def decodeByte1 (b : Byte) : Instr :=
  let (m, pt) := unpack1 b
  .rtpByte1 m pt

/-- R85: the only accepted profile is 0xBEDE. -/
def decodeProfile (w : BitVec 16) : Except Reject Instr :=
  if w = 0xBEDE then .ok .extProfileBede else .error (.unsupportedProfile w)

/-- R86, R118, R120: a control byte of the extension body. Every value is accepted. -/
def decodeCtrl (c : Byte) : Instr :=
  let (id, lenField) := ctrlUnpack c
  match ctrlClass c with
  | .pad => .extPad lenField
  | .elem => .extElem id lenField
  | .term => .extTerm lenField

/-- The instruction at a place, with the bytes after it. -/
def decode : Port → Bytes → Except Reject (Instr × Bytes)
  | .cmd, b :: rest => .ok (decodeCmd b, rest)
  | .byte0, b :: rest =>
    match decodeByte0 b with
    | .ok i => .ok (i, rest)
    | .error r => .error r
  | .byte1, b :: rest => .ok (decodeByte1 b, rest)
  | .profile, b :: c :: rest =>
    match decodeProfile (be16 [b, c]) with
    | .ok i => .ok (i, rest)
    | .error r => .error r
  | .ctrl, b :: rest => .ok (decodeCtrl b, rest)
  | _, _ => .error .empty

/-- The place an instruction stands at: the `format` column of its row. -/
def Instr.port : Instr → Port
  | .decode => .cmd
  | .encode => .cmd
  | .addExt => .cmd
  | .reservedCmd _ => .cmd
  | .rtpByte0 _ _ _ _ => .byte0
  | .rtpByte1 _ _ => .byte1
  | .extProfileBede => .profile
  | .extPad _ => .ctrl
  | .extElem _ _ => .ctrl
  | .extTerm _ => .ctrl

/-- The bytes of an instruction, first one at the lowest offset: the `encoding` column of its row. -/
def encode : Instr → Bytes
  | .decode => [0x01]
  | .encode => [0x02]
  | .addExt => [0x03]
  | .reservedCmd w => [w]
  | .rtpByte0 v p x cc => [pack0 v p x cc]
  | .rtpByte1 m pt => [pack1 m pt]
  | .extProfileBede => tobe16 0xBEDE
  | .extPad l => [ctrlPack 0 (l.toNat + 1)]
  | .extElem id l => [ctrlPack id (l.toNat + 1)]
  | .extTerm x => [ctrlPack 15 (x.toNat + 1)]

/-- The place `decodeTableWord` reads a word at. DESIGN CHOICE (log 9): the table gives several rows the same 8-bit words at different
places and the word alone does not say which place is meant, so the three command words are read at CMD, words with top
bits 10 as frame byte 0, every other 8-bit word as a control byte, and 16 bits as the profile. -/
def tablePort (nbits w : Nat) : Option Port :=
  if nbits = 16 then some .profile
  else if nbits = 8 then
    if w = 1 ∨ w = 2 ∨ w = 3 then some .cmd
    else if w / 64 = 2 then some .byte0
    else some .ctrl
  else none

/-- The bytes of a word of the table, in the order the wire has them: a 16-bit word is big-endian (20_memory.md R64). -/
def tableBytes (nbits w : Nat) : Bytes :=
  if nbits = 16 then tobe16 (BitVec.ofNat 16 w) else [BitVec.ofNat 8 w]

/-- The instruction the decoder reads from a word of the opcode table. -/
def decodeTableWord (nbits w : Nat) : Option Instr :=
  if 2 ^ nbits ≤ w then none else
  match tablePort nbits w with
  | none => none
  | some p =>
    match decode p (tableBytes nbits w ++ zeros 16) with
    | .ok (i, _) => some i
    | .error _ => none

end Sys2Proof
end

