-- ==== Sys2Proof/Machine/HostAccess.lean ====
section
/-! DEFINITION. The host's accesses to registers, buffers and PKT sequences (10_state.md R46, 30_encoding.md R98), and reset
(70_reset_and_hazards.md R250). -/

namespace Sys2Proof.Machine

/-- R46: the register numbers. -/
def Reg.number : Reg → Byte
  | .status => 0x01
  | .ilen => 0x02
  | .cap => 0x03
  | .olen => 0x04
  | .argId => 0x05
  | .argLen => 0x06
  | .version => 0x10
  | .padding => 0x11
  | .hasExtension => 0x12
  | .csrcCount => 0x13
  | .marker => 0x14
  | .payloadType => 0x15
  | .sequenceNumber => 0x16
  | .timestamp => 0x17
  | .ssrc => 0x18
  | .extensionProfile => 0x19
  | .paddingSize => 0x1A
  | .extBytes => 0x1B

/-- Every register that holds state, in the order of their numbers. -/
def Reg.all : List Reg :=
  [.status, .ilen, .cap, .olen, .argId, .argLen, .version, .padding, .hasExtension, .csrcCount, .marker, .payloadType,
   .sequenceNumber, .timestamp, .ssrc, .extensionProfile, .paddingSize, .extBytes]

/-- The number of the command port CMD (R39). -/
def cmdNumber : Byte := 0x00

/-- The register a number names; 0x07 to 0x0F and 0x1C to 0xFF name none, and 0x00 is the port CMD (R46). -/
def regAt (n : Byte) : Option Reg := Reg.all.find? fun r => r.number == n

/-- The values of a register are below this bound, its width or limit in R46; `none` for the natural `PKT.ext_bytes`. -/
def Reg.bound (p : Config.Params) : Reg → Option Nat
  | .status => some 256
  | .ilen => some (p.maxIn + 1)
  | .cap => some (p.maxOut + 1)
  | .olen => some (p.maxOut + 1)
  | .argId => some 256
  | .argLen => some (p.maxArg + 1)
  | .version => some 4
  | .padding => some 2
  | .hasExtension => some 2
  | .csrcCount => some 16
  | .marker => some 2
  | .payloadType => some 128
  | .sequenceNumber => some (2 ^ 16)
  | .timestamp => some (2 ^ 32)
  | .ssrc => some (2 ^ 32)
  | .extensionProfile => some (2 ^ 16)
  | .paddingSize => some 256
  | .extBytes => none

/-- R46: the host may not write STATUS or OLEN. -/
def Reg.readOnly : Reg → Bool
  | .status | .olen => true
  | .ilen | .cap | .argId | .argLen | .version | .padding | .hasExtension | .csrcCount | .marker | .payloadType
  | .sequenceNumber | .timestamp | .ssrc | .extensionProfile | .paddingSize | .extBytes => false

/-- A register's value as a number. -/
def State.getReg (s : State) : Reg → Nat
  | .status => s.status.toNat
  | .ilen => s.ilen
  | .cap => s.cap
  | .olen => s.olen
  | .argId => s.argId.toNat
  | .argLen => s.argLen
  | .version => s.pkt.version.toNat
  | .padding => s.pkt.padding.toNat
  | .hasExtension => s.pkt.hasExtension.toNat
  | .csrcCount => s.pkt.csrcCount.toNat
  | .marker => s.pkt.marker.toNat
  | .payloadType => s.pkt.payloadType.toNat
  | .sequenceNumber => s.pkt.sequenceNumber.toNat
  | .timestamp => s.pkt.timestamp.toNat
  | .ssrc => s.pkt.ssrc.toNat
  | .extensionProfile => s.pkt.extensionProfile.toNat
  | .paddingSize => s.pkt.paddingSize.toNat
  | .extBytes => s.pkt.extBytes

/-- A register with a new value, which fits it. -/
def State.setReg (s : State) (r : Reg) (v : Nat) : State :=
  match r with
  | .status => { s with status := BitVec.ofNat 8 v }
  | .ilen => { s with ilen := v }
  | .cap => { s with cap := v }
  | .olen => { s with olen := v }
  | .argId => { s with argId := BitVec.ofNat 8 v }
  | .argLen => { s with argLen := v }
  | .version => { s with pkt := { s.pkt with version := BitVec.ofNat 2 v } }
  | .padding => { s with pkt := { s.pkt with padding := BitVec.ofNat 1 v } }
  | .hasExtension => { s with pkt := { s.pkt with hasExtension := BitVec.ofNat 1 v } }
  | .csrcCount => { s with pkt := { s.pkt with csrcCount := BitVec.ofNat 4 v } }
  | .marker => { s with pkt := { s.pkt with marker := BitVec.ofNat 1 v } }
  | .payloadType => { s with pkt := { s.pkt with payloadType := BitVec.ofNat 7 v } }
  | .sequenceNumber => { s with pkt := { s.pkt with sequenceNumber := BitVec.ofNat 16 v } }
  | .timestamp => { s with pkt := { s.pkt with timestamp := BitVec.ofNat 32 v } }
  | .ssrc => { s with pkt := { s.pkt with ssrc := BitVec.ofNat 32 v } }
  | .extensionProfile => { s with pkt := { s.pkt with extensionProfile := BitVec.ofNat 16 v } }
  | .paddingSize => { s with pkt := { s.pkt with paddingSize := BitVec.ofNat 8 v } }
  | .extBytes => { s with pkt := { s.pkt with extBytes := v } }

/-- Whether a value fits a register (R46). -/
def Reg.fits (p : Config.Params) (r : Reg) (v : Nat) : Bool :=
  match r.bound p with
  | some b => v < b
  | none => true

/-- `W <reg>, <value>` to a register that holds state: it takes the value and becomes written (R46, R47). -/
def hostWrite (r : Reg) (v : Nat) (s : State) : Host.Outcome State Fault Refusal :=
  if r.readOnly then .refused (.readOnly (.reg r))
  else if r.fits s.params v then .next { s.setReg r v with written := s.written.markReg r }
  else .refused (.doesNotFit (.reg r))

/-- A buffer with new content. -/
def State.setBuffer (s : State) (b : Buf) (m : Memory) : State :=
  match b with
  | .ibuf => { s with ibuf := m }
  | .obuf => { s with obuf := m }
  | .argbuf => { s with argbuf := m }

/-- `WB <buf>, <off>, [..]`: the host writes bytes to IBUF or ARGBUF, inside the buffer; OBUF is read-only (R46, R98). -/
def hostWriteBytes (b : Buf) (off : Nat) (bs : Bytes) (s : State) : Host.Outcome State Fault Refusal :=
  if b = .obuf then .refused (.readOnly (.buf b))
  else if off + bs.length ≤ bufCapacity s.params b then .next (s.setBuffer b ((s.buffer b).writeRange off bs))
  else .refused (.outOfRange b)

/-- The sequence a value is for. -/
def SeqValue.name : SeqValue → SeqName
  | .csrcList _ => .csrcList
  | .extensionElements _ => .extensionElements
  | .payload _ => .payload

/-- Whether a sequence fits its storage (R11, R32, R33, R36). -/
def SeqValue.fits (p : Config.Params) : SeqValue → Bool
  | .csrcList ws => ws.length ≤ p.maxCsrcSlots
  | .extensionElements es => es.length ≤ p.maxExtSlots && es.all fun e => e.data.length ≤ p.maxElemBytes
  | .payload bs => bs.length ≤ p.maxPayload

/-- A PKT sequence with new content. -/
def State.setSeq (s : State) : SeqValue → State
  | .csrcList ws => { s with pkt := { s.pkt with csrcList := ws } }
  | .extensionElements es => { s with pkt := { s.pkt with extensionElements := es } }
  | .payload bs => { s with pkt := { s.pkt with payload := bs } }

/-- The content of a PKT sequence. -/
def State.getSeq (s : State) : SeqName → SeqValue
  | .csrcList => .csrcList s.pkt.csrcList
  | .extensionElements => .extensionElements s.pkt.extensionElements
  | .payload => .payload s.pkt.payload

/-- `WS <seq>, [..]`: the host replaces a PKT sequence (R46, R98). -/
def hostWriteSeq (v : SeqValue) (s : State) : Host.Outcome State Fault Refusal :=
  if v.fits s.params then .next { s.setSeq v with written := s.written.markSeq v.name }
  else .refused (.doesNotFit (.seq v.name))

/-- What a read of a register returns: its value, or any value of its width when nothing has written it (I14, log 5). -/
def State.regValue (s : State) (r : Reg) : Nat :=
  if s.written.reg r then s.getReg r
  else
    let v := Config.unwrittenReg s.reads r.number.toNat
    match r.bound s.params with
    | some b => v % b
    | none => v

/-- The index in M0, M1, M2 (R46). -/
def Buf.index : Buf → Nat
  | .ibuf => 0
  | .obuf => 1
  | .argbuf => 2

/-- What a read of one buffer byte returns: the byte, or any value when nothing has written it (I14, I15, log 5). -/
def State.byteValue (s : State) (b : Buf) (a : Nat) : Byte :=
  ((s.buffer b).read a).getD (Config.unwrittenByte s.reads b.index a)

/-- What a read of a PKT sequence returns: its content, or any content its storage can hold when nothing has written it (I14, log 5). -/
def State.seqValue (s : State) (q : SeqName) : SeqValue :=
  if s.written.seq q then s.getSeq q
  else
    match q with
    | .csrcList => .csrcList ((Config.unwrittenCsrcs s.reads).take s.params.maxCsrcSlots)
    | .extensionElements =>
      .extensionElements (((Config.unwrittenElements s.reads).take s.params.maxExtSlots).map fun e =>
        { id := e.1, data := e.2.take s.params.maxElemBytes })
    | .payload => .payload ((Config.unwrittenPayload s.reads).take s.params.maxPayload)

/-- A read returns a value and changes no state of the block (R71, R98); the two model fields record it (log 5). -/
def State.returnRead (v : HostValue) (s : State) : State := { s with rdata := v, reads := s.reads + 1 }

/-- `R <reg>`: CMD reads as 0x00 (R39), a number that names no register is refused (R46). -/
def hostRead (n : Byte) (s : State) : Host.Outcome State Fault Refusal :=
  if n = cmdNumber then .next (s.returnRead (.nat 0))
  else
    match regAt n with
    | none => .refused (.reservedRegister n)
    | some r => .next (s.returnRead (.nat (s.regValue r)))

/-- `RB <buf>, <off>, <n>`, inside the buffer. -/
def hostReadBytes (b : Buf) (off n : Nat) (s : State) : Host.Outcome State Fault Refusal :=
  if off + n ≤ bufCapacity s.params b then
    .next (s.returnRead (.bytes ((List.range n).map fun k => s.byteValue b (off + k))))
  else .refused (.outOfRange b)

/-- `RS <seq>`. -/
def hostReadSeq (q : SeqName) (s : State) : Host.Outcome State Fault Refusal :=
  .next (s.returnRead (.seq (s.seqValue q)))

/-- R250, R251: reset of this instance. Its parameters stay; what the host does next, and the count of its reads, are the host's and
stay too (log 7). -/
def hostReset (s : State) : Host.Outcome State Fault Refusal :=
  .next { State.resetWith s.params with pending := s.pending, reads := s.reads }

/-- A host operation that is not a CMD write. A write to 0x00 is CMD's and never comes here (Machine/Fetch.lean). -/
def hostAccess (op : HostOp) (s : State) : Host.Outcome State Fault Refusal :=
  match op with
  | .write n v =>
    match regAt n with
    | none => .refused (.reservedRegister n)
    | some r => hostWrite r v s
  | .writeBytes b off bs => hostWriteBytes b off bs s
  | .writeSeq v => hostWriteSeq v s
  | .read n => hostRead n s
  | .readBytes b off n => hostReadBytes b off n s
  | .readSeq q => hostReadSeq q s
  | .reset => hostReset s

end Sys2Proof.Machine
end

