-- ==== Sys2Proof/Machine/Walk.lean ====
section
/-! DEFINITION. The parts of DECODE's procedure that are no row of the opcode table, as steps on its local state: start, fixed words and
CSRC list, extension length, tail (41_decoder.md R131, R135, R136, R140, R141, R143 to R148; log 8). -/

namespace Sys2Proof.Machine

/-- A DECODE in progress at its very start, on the frame `B` (R131). -/
def Walk.start (B : Bytes) : Walk := { Walk.idle with phase := .byte0, frame := B }

/-- S4 and S5 (R135, R136). -/
def walkWords (s : State) : State :=
  let w := s.walk
  let cc := w.draft.csrcCount.toNat
  match readCsrcs w.frame 12 cc with
  | none => s.raise .decode .truncated
  | some csrcs =>
    s.setWalk
      { w with
        phase := if w.draft.hasExtension = 1 then .profile else .tail
        cur := 12 + 4 * cc
        draft := { w.draft with
          sequenceNumber := be16 (slice w.frame 2 2), timestamp := be32 (slice w.frame 4 4),
          ssrc := be32 (slice w.frame 8 4), csrcList := csrcs } }

/-- S6, R140 and R141, and the iterator's start: `i = 0`, `elems = []`, `seen = {}` (R191). -/
def walkExtLength (s : State) : State :=
  match readExtLength s.walk.frame s.walk.cur with
  | .error e => s.raise .decode e
  | .ok n =>
    s.setWalk
      { s.walk with
        phase := .body, cur := s.walk.cur + 2, bodyLen := n, i := 0, seen := []
        draft := { s.walk.draft with extensionElements := [] } }

/-- S7 to S10 (R143 to R148). -/
def walkTail (s : State) : State :=
  let w := s.walk
  match readTail w.frame w.cur w.draft.padding with
  | .error e => s.raise .decode e
  | .ok (pay, psize) =>
    s.commitPacket
      { w.draft with paddingSize := psize, payload := pay, extBytes := elementBytes w.draft.extensionElements }

end Sys2Proof.Machine
end

