-- ==== Sys2Proof/Machine/Fetch.lean ====
section
/-! DEFINITION. What the machine does next: an instruction with the state it runs in, or a step that is no instruction (a host access,
a part of DECODE's procedure that is no row of the opcode table, or nothing when the host is idle). -/

namespace Sys2Proof.Machine

/-- What comes next. -/
inductive Fetched where
  /-- Run this instruction in this state. -/
  | instr (i : Instr) (s : State)
  /-- No instruction: this is the step's outcome. -/
  | outcome (o : Host.Outcome State Fault Refusal)
deriving Repr

/-- The error DECODE reports for bits that spell no row at their place: Truncated (R132, R137), UnsupportedVersion (R133),
UnsupportedExtensionProfile (R139). -/
def rejectErr : Reject → Err
  | .empty => .truncated
  | .unsupportedVersion _ => .unsupportedVersion
  | .unsupportedProfile _ => .unsupportedExtensionProfile

/-- The wire unit at a place of the frame being parsed. -/
def fetchUnit (p : Port) (bs : Bytes) (s : State) : Fetched :=
  match decode p bs with
  | .ok (i, _) => .instr i s
  | .error r => .outcome (.next (s.raise .decode (rejectErr r)))

/-- The next unit or part of a DECODE in progress; the host is held (R256, R264). -/
def fetchWalk (s : State) : Fetched :=
  let w := s.walk
  match w.phase with
  | .idle => .outcome (.next s)
  | .byte0 =>
    if w.frame.length < 12 then .outcome (.next (s.raise .decode .truncated)) else fetchUnit .byte0 w.frame s
  | .byte1 => fetchUnit .byte1 (w.frame.drop 1) s
  | .words => .outcome (.next (walkWords s))
  | .profile => fetchUnit .profile (w.frame.drop w.cur) s
  | .extLength => .outcome (.next (walkExtLength s))
  | .body =>
    if w.i ≥ w.bodyLen then .outcome (.next (s.setWalk w.endBody))
    else fetchUnit .ctrl (w.frame.drop (w.cur + w.i)) s
  | .tail => .outcome (.next (walkTail s))

/-- The host's next operation: a CMD write is a command (R39, R94), any other operation is an access (R46); with none left the block
is idle and keeps its state (R239, R252). -/
def fetchHost (s : State) : Fetched :=
  match s.pending with
  | [] => .outcome (.next s)
  | .write n v :: rest =>
    if n = cmdNumber then
      if v < 256 then .instr (decodeCmd (BitVec.ofNat 8 v)) { s with pending := rest }
      else .outcome (.refused (.commandTooWide v))
    else .outcome (hostAccess (.write n v) { s with pending := rest })
  | op :: rest => .outcome (hostAccess op { s with pending := rest })

/-- Commands and host accesses never overlap (R256): the host is looked at only when no DECODE is in progress. -/
def fetch (s : State) : Fetched :=
  match s.walk.phase with
  | .idle => fetchHost s
  | _ => fetchWalk s

/-- The state with one word of the opcode table where the next step fetches its instruction (log 9): a command word as the host's next
CMD write, a wire unit at the front of a frame whose other bytes are zero, with DECODE's local state standing at it. -/
def State.placeWord (s : State) (nbits w : Nat) : State :=
  let bytes := tableBytes nbits w
  match tablePort nbits w with
  | some .cmd => { s with walk := Walk.idle, pending := .write cmdNumber w :: s.pending }
  | some .byte0 => s.setWalk { Walk.idle with phase := .byte0, frame := bytes ++ zeros 16 }
  | some .byte1 => s.setWalk { Walk.idle with phase := .byte1, frame := zeros 1 ++ bytes ++ zeros 16 }
  | some .profile => s.setWalk { Walk.idle with phase := .profile, frame := bytes ++ zeros 16 }
  | some .ctrl => s.setWalk { Walk.idle with phase := .body, frame := bytes ++ zeros 19, bodyLen := 20 }
  | none => s

end Sys2Proof.Machine
end

