-- ==== Sys2Proof/Machine/Step.lean ====
section
/-! DEFINITION. One step: the next instruction, host access or part of a DECODE in progress (Machine/Fetch.lean). -/

namespace Sys2Proof.Machine

/-- Fetch, and run what was fetched. -/
def step (s : State) : Host.Outcome State Fault Refusal :=
  match fetch s with
  | .instr i t => exec i t
  | .outcome o => o

/-- The state with a word of the opcode table where `step` fetches its next instruction (log 9). -/
def State.withFetchWord (s : State) (nbits w : Nat) : State := s.placeWord nbits w

end Sys2Proof.Machine
end

