-- ==== Sys2Proof/Machine/Pseudo.lean ====
section
/-! DEFINITION. The host's command and pseudo-instruction lines as host operations (30_encoding.md R98, R99). -/

namespace Sys2Proof.Machine

/-- R98: `DECODE`, `ENCODE` and `ADD_EXT` are CMD writes of 0x01, 0x02 and 0x03. -/
def commandOp (c : Command) : HostOp := .write cmdNumber c.opcode.toNat

/-- R98: `W <reg>, <value>` by name. -/
def writeOp (r : Reg) (v : Nat) : HostOp := .write r.number v

/-- R99 `LOADFRAME [b0 ... b(n-1)]`. -/
def loadFrame (bs : Bytes) : List HostOp := [.writeBytes .ibuf 0 bs, writeOp .ilen bs.length]

/-- R99 `ENCODE_CAP c`. -/
def encodeCap (c : Nat) : List HostOp := [writeOp .cap c, commandOp .encode]

/-- R99 `ADDX id, [d0 ... d(m-1)]`. -/
def addX (id : Nat) (data : Bytes) : List HostOp :=
  [writeOp .argId id, .writeBytes .argbuf 0 data, writeOp .argLen data.length, commandOp .addExt]

/-- R99 `CLEARPKT`. -/
def clearPkt : List HostOp :=
  [writeOp .version 2, writeOp .padding 0, writeOp .hasExtension 0, writeOp .csrcCount 0, writeOp .marker 0,
   writeOp .payloadType 0, writeOp .sequenceNumber 0, writeOp .timestamp 0, writeOp .ssrc 0, writeOp .extensionProfile 0,
   writeOp .paddingSize 0, writeOp .extBytes 0, .writeSeq (.csrcList []), .writeSeq (.extensionElements []),
   .writeSeq (.payload [])]

end Sys2Proof.Machine
end

