-- ==== Sys2Proof/Machine/Canonical.lean ====
section
/-! DEFINITION. Canonical packets (10_state.md R45). -/

namespace Sys2Proof.Machine

/-- R34: what DECODE and ADD_EXT store, and R45 item 3. -/
abbrev elementsOk (es : List Element) : Prop :=
  es.length ≤ 14 ∧ (∀ e ∈ es, (1 ≤ e.id.toNat ∧ e.id.toNat ≤ 14) ∧ 1 ≤ e.data.length ∧ e.data.length ≤ 16) ∧
    (es.map Element.id).Nodup

/-- R45, items 1 to 7 in order. -/
abbrev Packet.canonical (p : Packet) : Prop :=
  p.version = 2 ∧
  (p.csrcCount.toNat = p.csrcList.length ∧ p.csrcList.length ≤ 15) ∧
  elementsOk p.extensionElements ∧
  (p.hasExtension = if p.extensionElements.length > 0 then 1 else 0) ∧
  (p.extensionProfile = if p.hasExtension = 1 then 0xBEDE else 0x0000) ∧
  (p.padding = if p.paddingSize.toNat > 0 then 1 else 0) ∧
  p.extBytes = elementBytes p.extensionElements

end Sys2Proof.Machine
end

