-- ==== Sys2Proof/Machine/Marks.lean ====
section
/-! DEFINITION. The fault and refusal marks (10_state.md R48, 30_encoding.md R96, 60_exceptions.md R228). -/

namespace Sys2Proof.Machine

/-- The state after the host operation that stopped the machine, but for the marks: nothing of the block is written (R228). -/
def State.dropOp (s : State) : State := { s with pending := s.pending.tail }

/-- The state a step leaves a run in, stops included: a fault sets the fault mark and a refusal the refusal mark, nothing else is
written, and no later step but reset clears them (R48, R96, R228, R250). -/
def stepMarked (s : State) : State :=
  match step s with
  | .next t => t
  | .fault _ => { s.dropOp with faultMark := true }
  | .refused _ => { s.dropOp with refusalMark := true }

end Sys2Proof.Machine
end

