-- ==== Sys2Proof/Safety.lean ====
section
/-! DEFINITION. What counts as a safe state and a run with an end state, in the terms claims use. -/

namespace Sys2Proof.Safety

open Sys2Proof.Machine

/-- R40, R221: the reserved bits are 0, CODE is at most 9, and LASTOP 0 goes only with the reset value 0x00. -/
abbrev StatusOk (st : Byte) : Prop :=
  st.extractLsb' 6 2 = 0 ∧ (statusCode st).toNat ≤ 9 ∧ (statusLastop st = 0 → st = 0)

/-- A buffer in canonical form, inside its capacity (R60 to R62). -/
abbrev BufferOk (m : Memory) (capacity : Nat) : Prop := m.wf ∧ ∀ c ∈ m, c.1 < capacity

/-- A DECODE in progress: the frame came from IBUF, the draft holds what a frame can give (R25, R34, R191), and no cursor
has passed the end of what it indexes, in whatever phase (R50, R201): `cur` the frame, `i` the body, and the body the frame. -/
abbrev WalkOk (p : Config.Params) (w : Walk) : Prop :=
  (w.frame.length ≤ p.maxIn ∧ w.cur ≤ w.frame.length ∧ w.i ≤ w.bodyLen) ∧
  (w.draft.csrcList.length ≤ 15 ∧
    w.draft.extensionElements.map Element.id = w.seen ∧ w.seen.Nodup ∧
    ∀ e ∈ w.draft.extensionElements, 1 ≤ e.data.length ∧ e.data.length ≤ 16) ∧
  (w.phase ≠ .idle ∧ w.phase ≠ .byte0 → 12 ≤ w.frame.length) ∧
  (w.phase = .body → w.cur + w.bodyLen ≤ w.frame.length)

/-- The invariant of a machine whose parameters meet R11: every bound of R46 on registers, buffers and sequences, and STATUS legal.
The element list has no bound of its own here: ADD_EXT does no count check (R215, log 11). -/
abbrev Inv (s : State) : Prop :=
  s.params.Valid ∧
  (s.ilen ≤ s.params.maxIn ∧ s.cap ≤ s.params.maxOut ∧ s.olen ≤ s.params.maxOut ∧ s.argLen ≤ s.params.maxArg) ∧
  (BufferOk s.ibuf s.params.maxIn ∧ BufferOk s.obuf s.params.maxOut ∧ BufferOk s.argbuf s.params.maxArg) ∧
  (s.pkt.csrcList.length ≤ s.params.maxCsrcSlots ∧ s.pkt.payload.length ≤ s.params.maxPayload ∧
    ∀ e ∈ s.pkt.extensionElements, e.data.length ≤ s.params.maxElemBytes) ∧
  StatusOk s.status ∧
  WalkOk s.params s.walk

/-- R265: the state after a run of host operations from a state with no operation waiting; defined only when no step ended in a fault
or a refusal. -/
def EndState (s : State) (ops : List HostOp) (t : State) : Prop :=
  Host.Core.run Sys2Proof.core ops.length { s with pending := ops } = .next t

end Sys2Proof.Safety
end

