-- ==== Sys2Proof/Certificates/Slice0/Obligations.lean ====
section
/-! DEFINITION. The statements about the model, from the spec's numbered rules. -/

open Sys2Proof Sys2Proof.Machine

namespace Sys2Proof.Obl

/-- The host has given DECODE the frame `B` (70_reset_and_hazards.md R253): ILEN is written and holds its length, and
`IBUF[0 .. ILEN)` is written and holds its bytes. -/
abbrev HoldsFrame (s : State) (B : Bytes) : Prop :=
  s.written.ilen = true ∧ s.ilen = B.length ∧ ∀ (k : Nat) (h : k < B.length), s.ibuf.read k = some B[k]

/-- ENCODE's inputs are written: CAP and the PKT elements of 42_encoder.md R160 (R254). -/
abbrev EncodeReady (s : State) : Prop :=
  s.written.cap = true ∧ s.written.version = true ∧ s.written.padding = true ∧ s.written.csrcCount = true ∧
    s.written.marker = true ∧ s.written.payloadType = true ∧ s.written.sequenceNumber = true ∧ s.written.timestamp = true ∧
    s.written.ssrc = true ∧ s.written.csrcList = true ∧ s.written.extensionElements = true ∧ s.written.payload = true ∧
    s.written.paddingSize = true

/-- ADD_EXT's inputs are written, and its data argument is `d` (44_extension_registry.md R210, R255). -/
abbrev HoldsArgs (s : State) (d : Bytes) : Prop :=
  s.written.argId = true ∧ s.written.argLen = true ∧ s.argLen = d.length ∧
    (∀ (k : Nat) (h : k < d.length), s.argbuf.read k = some d[k]) ∧
    s.written.extensionElements = true ∧ s.written.extBytes = true

/-- Every byte of the three buffers reads as before. -/
abbrev SameBuffers (s t : State) : Prop := ∀ (b : Buf) (a : Nat), (t.buffer b).read a = (s.buffer b).read a

/-- What no command writes: the parameters, the marks, what the host does next and has read, and the five registers the engine
never writes (10_state.md R46). -/
abbrev SameHostSide (s t : State) : Prop :=
  t.params = s.params ∧ t.faultMark = s.faultMark ∧ t.refusalMark = s.refusalMark ∧ t.pending = s.pending ∧
    t.rdata = s.rdata ∧ t.reads = s.reads ∧ t.ilen = s.ilen ∧ t.cap = s.cap ∧ t.argId = s.argId ∧ t.argLen = s.argLen

/-- Frame byte 0's fields (30_encoding.md R82). -/
abbrev ver (B : Bytes) : BitVec 2 := (unpack0 (byteAt B 0)).1
abbrev padFlag (B : Bytes) : Bit := (unpack0 (byteAt B 0)).2.1
abbrev extFlag (B : Bytes) : Bit := (unpack0 (byteAt B 0)).2.2.1
abbrev csrcs (B : Bytes) : Nat := (unpack0 (byteAt B 0)).2.2.2.toNat

/-- The offset after the CSRC list (R81). -/
abbrev extStart (B : Bytes) : Nat := 12 + 4 * csrcs B

/-- The extension length `L` in the frame (R85). -/
abbrev extL (B : Bytes) : Nat := (be16 (slice B (extStart B + 2) 2)).toNat

/-- The frame passes S1 and S2. -/
abbrev PastVersion (B : Bytes) : Prop := 12 ≤ B.length ∧ ver B = 2

/-- The frame passes S1 to S5. -/
abbrev PastCsrcs (B : Bytes) : Prop := PastVersion B ∧ extStart B ≤ B.length

/-- The frame has the extension flag and passes S6 up to the profile. -/
abbrev PastProfile (B : Bytes) : Prop :=
  PastCsrcs B ∧ extFlag B = 1 ∧ extStart B + 2 ≤ B.length ∧ be16 (slice B (extStart B) 2) = 0xBEDE

/-- The frame has the extension flag and passes S6 up to the body's length. -/
abbrev PastBodyLength (B : Bytes) : Prop :=
  PastProfile B ∧ extStart B + 4 ≤ B.length ∧ extStart B + 4 + 4 * extL B ≤ B.length

/-- The frame passes S1 to S6, with payload start `ps`. -/
abbrev PastExtension (B : Bytes) (ps : Nat) : Prop :=
  (PastCsrcs B ∧ extFlag B = 0 ∧ ps = extStart B) ∨
    (PastBodyLength B ∧ parseBlock (slice B (extStart B + 4) (4 * extL B)) ≠ none ∧ ps = extStart B + 4 + 4 * extL B)

/-- The state a failed DECODE or ADD_EXT leaves: STATUS, and nothing else (60_exceptions.md R222, R224). -/
abbrev failed (s : State) (status : Byte) : State := { s with status := status, walk := Walk.idle }

/-- The state a failed ENCODE leaves: STATUS, and OLEN = 0 (R222, R224). -/
abbrev failedEncode (s : State) (status : Byte) : State :=
  { s with status := status, walk := Walk.idle, olen := 0, written := { s.written with olen := true } }

/-- R166 in full: the length of the frame of a packet. -/
abbrev frameLength (p : Packet) : Nat :=
  12 + 4 * p.csrcList.length +
    (if p.extensionElements = [] then 0
     else 4 + 4 * (((p.extensionElements.map fun e => 1 + e.data.length).sum + 3) / 4)) +
    p.payload.length + p.paddingSize.toNat

/-- R165, V4. -/
abbrev Consistent (p : Packet) : Prop :=
  p.version = 2 ∧ p.csrcCount.toNat = p.csrcList.length ∧ (p.padding = 1 ↔ 0 < p.paddingSize.toNat) ∧
    (∀ e ∈ p.extensionElements, 1 ≤ e.id.toNat ∧ e.id.toNat ≤ 14) ∧ (p.extensionElements.map Element.id).Nodup

/-- R164, V3. -/
abbrev LengthsOk (p : Packet) : Prop := ∀ e ∈ p.extensionElements, 1 ≤ e.data.length ∧ e.data.length ≤ 16

/-- The packet passes V1 to V4 (R162 to R165). -/
abbrev PassesV4 (p : Packet) : Prop :=
  p.csrcList.length ≤ 15 ∧ p.extensionElements.length ≤ 14 ∧ LengthsOk p ∧ Consistent p

/-- The host's next operation is `op`, and no DECODE is in progress. -/
abbrev Next (s : State) (op : HostOp) (rest : List HostOp) : Prop := s.walk.phase = .idle ∧ s.pending = op :: rest

end Sys2Proof.Obl

open Sys2Proof.Obl

/-! ### Packed fields (40_packed_fields.md) -/

/-- R121: packers and unpackers are inverse on their domains. -/
def Obligations.PackersInvertUnpackers : Prop :=
  (∀ (v : BitVec 2) (p x : Bit) (cc : BitVec 4), unpack0 (pack0 v p x cc) = (v, p, x, cc)) ∧
  (∀ b : Byte, pack0 (unpack0 b).1 (unpack0 b).2.1 (unpack0 b).2.2.1 (unpack0 b).2.2.2 = b) ∧
  (∀ (m : Bit) (pt : BitVec 7), unpack1 (pack1 m pt) = (m, pt)) ∧
  (∀ b : Byte, pack1 (unpack1 b).1 (unpack1 b).2 = b) ∧
  (∀ v : BitVec 16, be16 (tobe16 v) = v) ∧ (∀ s : Bytes, s.length = 2 → tobe16 (be16 s) = s) ∧
  (∀ v : Word32, be32 (tobe32 v) = v) ∧ (∀ s : Bytes, s.length = 4 → tobe32 (be32 s) = s) ∧
  (∀ (id : Nibble) (n : Nat), 1 ≤ n → n ≤ 16 →
    (ctrlUnpack (ctrlPack id n)).1 = id ∧ (ctrlUnpack (ctrlPack id n)).2.toNat = n - 1 ∧
      (ctrlClass (ctrlPack id n) = .elem ↔ 1 ≤ id.toNat ∧ id.toNat ≤ 14))

/-- R120: the three classes, by the top four bits and as byte ranges. -/
def Obligations.ControlByteClassRanges : Prop :=
  ∀ c : Byte,
    (ctrlClass c = .pad ↔ c.extractLsb' 4 4 = 0) ∧ (ctrlClass c = .term ↔ c.extractLsb' 4 4 = 15) ∧
    (ctrlClass c = .pad ↔ c.toNat ≤ 0x0F) ∧ (ctrlClass c = .term ↔ 0xF0 ≤ c.toNat) ∧
    (ctrlClass c = .elem ↔ 0x10 ≤ c.toNat ∧ c.toNat ≤ 0xEF)

/-- R114 to R117: the big-endian primitives, on every value. -/
def Obligations.BigEndianPrimitives : Prop :=
  (∀ a b : Byte, (be16 [a, b]).toNat = a.toNat * 256 + b.toNat) ∧
  (∀ a b c d : Byte, (be32 [a, b, c, d]).toNat = a.toNat * 2 ^ 24 + b.toNat * 2 ^ 16 + c.toNat * 2 ^ 8 + d.toNat) ∧
  (∀ v : BitVec 16, tobe16 v = [v.extractLsb' 8 8, v.extractLsb' 0 8] ∧ be16 (tobe16 v) = v) ∧
  (∀ v : Word32, tobe32 v = [v.extractLsb' 24 8, v.extractLsb' 16 8, v.extractLsb' 8 8, v.extractLsb' 0 8] ∧
    be32 (tobe32 v) = v)

/-! ### Encodings -/

/-- Decoding the bytes of a well-formed instruction at its place gives it back, with the bytes after it. -/
def Obligations.InstrDecodeOfEncode : Prop :=
  ∀ (i : Instr) (rest : Bytes), i.wellFormed = true → decode i.port (encode i ++ rest) = .ok (i, rest)

/-- Whatever decodes is well-formed, stands at its place, and its bytes are the ones decoded: each word has one meaning at a place. -/
def Obligations.InstrEncodeOfDecode : Prop :=
  ∀ (p : Port) (bs : Bytes) (i : Instr) (rest : Bytes),
    decode p bs = .ok (i, rest) → i.wellFormed = true ∧ i.port = p ∧ bs = encode i ++ rest

/-- R94: the table of command words, and a host write of a word to CMD starts the command it spells. -/
def Obligations.CommandWordTable : Prop :=
  (∀ w : Byte,
    decodeCmd w =
      if w.extractLsb' 2 6 = 0 then
        (if w.extractLsb' 0 2 = 1 then Instr.decode
         else if w.extractLsb' 0 2 = 2 then Instr.encode
         else if w.extractLsb' 0 2 = 3 then Instr.addExt
         else Instr.reservedCmd w)
      else Instr.reservedCmd w) ∧
  ∀ (s : State) (w : Byte) (rest : List HostOp), Next s (.write 0x00 w.toNat) rest →
    step s = exec (decodeCmd w) { s with pending := rest }

/-- Words written out from the opcode table's encodings decode to their rows. -/
def Obligations.TableWordsDecode : Prop :=
  decode .cmd [0b00000001] = .ok (.decode, []) ∧ decode .cmd [0b00000010] = .ok (.encode, []) ∧
  decode .cmd [0b00000011] = .ok (.addExt, []) ∧ decode .cmd [0b00000100] = .ok (.reservedCmd 4, []) ∧
  decode .byte0 [0b10110011] = .ok (.rtpByte0 2 1 1 3, []) ∧ decode .byte1 [0b11100000] = .ok (.rtpByte1 1 0x60, []) ∧
  decode .profile [0b10111110, 0b11011110] = .ok (.extProfileBede, []) ∧
  decode .ctrl [0b00000101] = .ok (.extPad 5, []) ∧ decode .ctrl [0b01011111] = .ok (.extElem 5 15, []) ∧
  decode .ctrl [0b11110010] = .ok (.extTerm 2, [])

/-! ### The step -/

/-- A step runs the decoded instruction: the host's CMD write between commands; with a DECODE in progress, frame byte 0, frame byte
1, the profile, and each control byte of the body. -/
def Obligations.StepRunsDecodedInstruction : Prop :=
  (∀ (s : State) (w : Byte) (rest : List HostOp) (i : Instr),
    Next s (.write 0x00 w.toNat) rest → decode .cmd [w] = .ok (i, []) → step s = exec i { s with pending := rest }) ∧
  (∀ (s : State) (i : Instr) (rest : Bytes),
    (s.walk.phase = .byte0 → 12 ≤ s.walk.frame.length → decode .byte0 s.walk.frame = .ok (i, rest) → step s = exec i s) ∧
    (s.walk.phase = .byte1 → decode .byte1 (s.walk.frame.drop 1) = .ok (i, rest) → step s = exec i s) ∧
    (s.walk.phase = .profile → decode .profile (s.walk.frame.drop s.walk.cur) = .ok (i, rest) → step s = exec i s) ∧
    (s.walk.phase = .body → s.walk.i < s.walk.bodyLen →
      decode .ctrl (s.walk.frame.drop (s.walk.cur + s.walk.i)) = .ok (i, rest) → step s = exec i s))

/-- `withFetchWord` puts a word of the table where the next step fetches it, for every word the decoder reads (the model's own: log 9). -/
def Obligations.PlacedWordIsRun : Prop :=
  ∀ (s : State) (nbits w : Nat) (i : Instr), decodeTableWord nbits w = some i →
    step (s.withFetchWord nbits w) =
      exec i (if i.port = .cmd then { s with walk := Walk.idle } else s.withFetchWord nbits w)

/-- R239, R252: between commands, with nothing from the host, the block is idle and keeps all its state. -/
def Obligations.IdleKeepsState : Prop :=
  ∀ s : State, s.walk.phase = .idle → s.pending = [] → step s = .next s

/-! ### Reset -/

/-- R251: after reset STATUS is 0x00, every other element is unwritten, both marks are clear and no command is in progress. -/
def Obligations.ResetState : Prop :=
  State.reset.status = 0x00 ∧ (∀ r : Reg, r ≠ .status → State.reset.written.reg r = false) ∧
  (∀ q : SeqName, State.reset.written.seq q = false) ∧
  (∀ (b : Buf) (a : Nat), (State.reset.buffer b).read a = none) ∧
  State.reset.faultMark = false ∧ State.reset.refusalMark = false ∧ State.reset.walk = Walk.idle

/-- R250: a reset between commands does the same to any state of an instance, whose parameters stay. -/
def Obligations.ResetOperation : Prop :=
  ∀ (s : State) (rest : List HostOp), Next s .reset rest →
    ∃ t, step s = .next t ∧ t.status = 0x00 ∧ (∀ r : Reg, r ≠ .status → t.written.reg r = false) ∧
      (∀ q : SeqName, t.written.seq q = false) ∧ (∀ (b : Buf) (a : Nat), (t.buffer b).read a = none) ∧
      t.faultMark = false ∧ t.refusalMark = false ∧ t.walk = Walk.idle ∧ t.params = s.params ∧ t.pending = rest

/-! ### Faults, refusals and their marks -/

/-- R48: a command faults, naming an unwritten element it lists, exactly when one is unwritten; DECODE looks at ILEN first, ENCODE at CAP,
ADD_EXT at ARG_ID. -/
def Obligations.UnwrittenInputFaults : Prop :=
  ∀ s : State,
    ((∃ B, HoldsFrame s B) ↔ ∃ t, exec .decode s = .next t) ∧
    ((¬∃ B, HoldsFrame s B) ↔
      ∃ e, e ∈ [Elt.reg .ilen, .buf .ibuf] ∧ s.isWritten e = false ∧ exec .decode s = .fault (.unwritten e)) ∧
    (EncodeReady s ↔ ∃ t, exec .encode s = .next t) ∧
    (¬EncodeReady s ↔
      ∃ e,
        e ∈ [Elt.reg .cap, .reg .version, .reg .padding, .reg .csrcCount, .reg .marker, .reg .payloadType,
          .reg .sequenceNumber, .reg .timestamp, .reg .ssrc, .seq .csrcList, .seq .extensionElements, .seq .payload,
          .reg .paddingSize] ∧
          s.isWritten e = false ∧ exec .encode s = .fault (.unwritten e)) ∧
    ((∃ d, HoldsArgs s d) ↔ ∃ t, exec .addExt s = .next t) ∧
    ((¬∃ d, HoldsArgs s d) ↔
      ∃ e, e ∈ [Elt.reg .argId, .reg .argLen, .buf .argbuf, .seq .extensionElements, .reg .extBytes] ∧
        s.isWritten e = false ∧ exec .addExt s = .fault (.unwritten e)) ∧
    (s.written.ilen = false → exec .decode s = .fault (.unwritten (.reg .ilen))) ∧
    (s.written.cap = false → exec .encode s = .fault (.unwritten (.reg .cap))) ∧
    (s.written.argId = false → exec .addExt s = .fault (.unwritten (.reg .argId)))

/-- R96: a reserved CMD word is refused and no state changes; what is left is the state with the refusal mark set, which is kept for the
whole run. -/
def Obligations.ReservedCommandRefused : Prop :=
  (∀ (w : Byte) (s : State), exec (.reservedCmd w) s = .refused (.reservedCommand w)) ∧
  (∀ (s : State) (w : Byte) (rest : List HostOp), Next s (.write 0x00 w.toNat) rest → w ≠ 0x01 → w ≠ 0x02 → w ≠ 0x03 →
    step s = .refused (.reservedCommand w) ∧ stepMarked s = { s with pending := rest, refusalMark := true }) ∧
  (∀ s : State, s.refusalMark = true → (∀ rest, ¬Next s .reset rest) → (stepMarked s).refusalMark = true)

/-- R48, R96, R228: a stop sets its mark and writes nothing of the block, and no later step but a reset clears a mark. -/
def Obligations.MarksAreSticky : Prop :=
  ∀ s : State,
    (∀ f, step s = .fault f → stepMarked s = { s with pending := s.pending.tail, faultMark := true }) ∧
    (∀ r, step s = .refused r → stepMarked s = { s with pending := s.pending.tail, refusalMark := true }) ∧
    ((∀ rest, ¬Next s .reset rest) →
      (s.faultMark = true → (stepMarked s).faultMark = true) ∧ (s.refusalMark = true → (stepMarked s).refusalMark = true))

/-! ### The extension block (43_extension_block.md) -/

/-- R202: the iterator's start, its step case by case, and the parser's answer as what it reaches. -/
def Obligations.IteratorStepCases : Prop :=
  ∀ (body : Bytes) (i : Nat) (es : List Element) (seen : List Nibble) (id lf : Nibble),
    (body.length ≤ i → iterStep body (.run i es seen) = .done es) ∧
    (i < body.length → ctrlUnpack (byteAt body i) = (id, lf) →
      (id = 0 → iterStep body (.run i es seen) = .run (i + 1) es seen) ∧
      (id = 15 → iterStep body (.run i es seen) = .done es) ∧
      (id ≠ 0 → id ≠ 15 → body.length < i + 1 + (lf.toNat + 1) → iterStep body (.run i es seen) = .fail) ∧
      (id ≠ 0 → id ≠ 15 → id ∈ seen → iterStep body (.run i es seen) = .fail) ∧
      (id ≠ 0 → id ≠ 15 → i + 1 + (lf.toNat + 1) ≤ body.length → id ∉ seen →
        iterStep body (.run i es seen) =
          .run (i + 1 + (lf.toNat + 1)) (es ++ [{ id := id, data := slice body (i + 1) (lf.toNat + 1) }]) (seen ++ [id]))) ∧
    iterStep body (.done es) = .done es ∧ iterStep body .fail = .fail ∧
    iterStart = .run 0 [] [] ∧
    (parseBlock body = some es ↔ ∃ k, iterRun body k iterStart = .done es) ∧
    (parseBlock body = none ↔ ∃ k, iterRun body k iterStart = .fail) ∧
    ((∃ es', iterRun body (body.length + 1) iterStart = .done es') ∨ iterRun body (body.length + 1) iterStart = .fail)

/-- R201: the iterator ends within `N + 1` steps; while it runs its cursor has grown by at least one a step and has not passed `N`, and
it has recorded at most 14 elements. -/
def Obligations.IteratorEndsInBounds : Prop :=
  ∀ body : Bytes,
    (∀ (k i : Nat) (es : List Element) (seen : List Nibble),
      iterRun body k iterStart = .run i es seen → k ≤ i ∧ i ≤ body.length ∧ es.length ≤ 14) ∧
    ((∃ es, iterRun body (body.length + 1) iterStart = .done es) ∨ iterRun body (body.length + 1) iterStart = .fail)

/-- R34, R152: what the parser returns satisfies the element invariants. -/
def Obligations.ParsedElementsAreValid : Prop :=
  ∀ (body : Bytes) (es : List Element), parseBlock body = some es →
    es.length ≤ 14 ∧ (∀ e ∈ es, 1 ≤ e.id.toNat ∧ e.id.toNat ≤ 14 ∧ 1 ≤ e.data.length ∧ e.data.length ≤ 16) ∧
      (es.map Element.id).Nodup

/-- R203, R204: the body is the elements in list order, each a control byte and its data, then 0 to 3 zero bytes up to `4*L`; for a list
ENCODE accepts `eb` is 2 to 238, `L` is 1 to 60, and no control byte is a filler or a terminator. -/
def Obligations.WrittenBlockShape : Prop :=
  ∀ es : List Element,
    let eb := (es.map fun e => 1 + e.data.length).sum
    let L := (eb + 3) / 4
    writeBlock es =
        es.flatMap (fun e => ctrlPack e.id e.data.length :: e.data) ++ List.replicate (4 * L - eb) 0 ∧
      (writeBlock es).length = 4 * L ∧ eb ≤ 4 * L ∧ 4 * L - eb ≤ 3 ∧
      (1 ≤ es.length → es.length ≤ 14 → (∀ e ∈ es, 1 ≤ e.data.length ∧ e.data.length ≤ 16) →
        2 ≤ eb ∧ eb ≤ 238 ∧ 1 ≤ L ∧ L ≤ 60 ∧
          ∀ e ∈ es, 1 ≤ e.id.toNat → e.id.toNat ≤ 14 → ctrlClass (ctrlPack e.id e.data.length) = .elem)

/-- R205: writer and parser are inverse on checked lists; the converse does not hold. -/
def Obligations.ParseOfWrittenBlock : Prop :=
  (∀ es : List Element, 1 ≤ es.length → es.length ≤ 14 → (∀ e ∈ es, 1 ≤ e.id.toNat ∧ e.id.toNat ≤ 14) →
    (es.map Element.id).Nodup → (∀ e ∈ es, 1 ≤ e.data.length ∧ e.data.length ≤ 16) →
    parseBlock (writeBlock es) = some es) ∧
  ∃ (body : Bytes) (es : List Element), parseBlock body = some es ∧ writeBlock es ≠ body

/-! ### DECODE (41_decoder.md) -/

/-- R149: the first error in step order, with the state it leaves. -/
def Obligations.DecodeErrorPrecedence : Prop :=
  ∀ (s : State) (B : Bytes), HoldsFrame s B →
    (B.length < 12 → exec .decode s = .next (failed s 0x12)) ∧
    (12 ≤ B.length → ver B ≠ 2 → exec .decode s = .next (failed s 0x11)) ∧
    (PastVersion B → B.length < extStart B → exec .decode s = .next (failed s 0x12)) ∧
    (PastCsrcs B → extFlag B = 1 → B.length < extStart B + 2 → exec .decode s = .next (failed s 0x12)) ∧
    (PastCsrcs B → extFlag B = 1 → extStart B + 2 ≤ B.length → be16 (slice B (extStart B) 2) ≠ 0xBEDE →
      exec .decode s = .next (failed s 0x13)) ∧
    (PastProfile B → B.length < extStart B + 4 → exec .decode s = .next (failed s 0x12)) ∧
    (PastProfile B → extStart B + 4 ≤ B.length → B.length < extStart B + 4 + 4 * extL B →
      exec .decode s = .next (failed s 0x12)) ∧
    (PastBodyLength B → parseBlock (slice B (extStart B + 4) (4 * extL B)) = none →
      exec .decode s = .next (failed s 0x14)) ∧
    (∀ ps, PastExtension B ps → padFlag B = 1 →
      byteAt B (B.length - 1) = 0 ∨ B.length - ps < (byteAt B (B.length - 1)).toNat →
      exec .decode s = .next (failed s 0x14))

/-- R81, R136 to R148: DECODE of a frame laid out from any field values ends OK with those values in PKT, all of it written, STATUS 0x10,
and nothing else changed. The body may be any body that parses, and the padding's filler bytes may hold anything. -/
def Obligations.DecodeCompletes : Prop :=
  ∀ (s : State) (p x : Bit) (cc : BitVec 4) (m : Bit) (pt : BitVec 7) (seq : BitVec 16) (ts ssrc : Word32)
    (cs : List Word32) (ext : Bytes) (es : List Element) (payload pad : Bytes) (P : Byte),
    cs.length = cc.toNat →
    ((x = 0 ∧ ext = [] ∧ es = []) ∨
      (x = 1 ∧ ∃ (L : BitVec 16) (body : Bytes), body.length = 4 * L.toNat ∧
        ext = [0xBE, 0xDE] ++ tobe16 L ++ body ∧ parseBlock body = some es)) →
    ((p = 0 ∧ pad = [] ∧ P = 0) ∨
      (p = 1 ∧ P ≠ 0 ∧ ∃ filler : Bytes, filler.length = P.toNat - 1 ∧ pad = filler ++ [P])) →
    HoldsFrame s ([pack0 2 p x cc, pack1 m pt] ++ tobe16 seq ++ tobe32 ts ++ tobe32 ssrc ++ cs.flatMap tobe32 ++ ext ++
      payload ++ pad) →
    exec .decode s = .next
      { s with
        pkt :=
          { version := 2, padding := p, hasExtension := x, csrcCount := cc, marker := m, payloadType := pt,
            sequenceNumber := seq, timestamp := ts, ssrc := ssrc,
            extensionProfile := if x = 1 then 0xBEDE else 0x0000, csrcList := cs, extensionElements := es,
            paddingSize := P, payload := payload, extBytes := (es.map fun e => 1 + e.data.length).sum }
        written := s.written.markPkt
        status := 0x10
        walk := Walk.idle }

/-- R151: for every frame DECODE ends in OK or in one of its four errors. -/
def Obligations.DecodeOutcomes : Prop :=
  ∀ (s : State) (B : Bytes), HoldsFrame s B →
    ∃ t, exec .decode s = .next t ∧
      (t.status = 0x10 ∨ t.status = 0x11 ∨ t.status = 0x12 ∨ t.status = 0x13 ∨ t.status = 0x14) ∧
      (t.status ≠ 0x10 → t = failed s t.status)

/-- R152: the properties of every PKT a successful DECODE writes; it is canonical except when the extension flag is set and no element
was found. -/
def Obligations.DecodedRecordIsValid : Prop :=
  ∀ s t : State, exec .decode s = .next t → t.status = 0x10 →
    t.pkt.version = 2 ∧ t.pkt.csrcCount.toNat = t.pkt.csrcList.length ∧ t.pkt.csrcList.length ≤ 15 ∧
    t.pkt.extensionElements.length ≤ 14 ∧
    (∀ e ∈ t.pkt.extensionElements, 1 ≤ e.id.toNat ∧ e.id.toNat ≤ 14 ∧ 1 ≤ e.data.length ∧ e.data.length ≤ 16) ∧
    (t.pkt.extensionElements.map Element.id).Nodup ∧
    (t.pkt.padding = 1 ↔ 1 ≤ t.pkt.paddingSize.toNat) ∧
    t.pkt.extBytes = (t.pkt.extensionElements.map fun e => 1 + e.data.length).sum ∧
    (t.pkt.canonical ↔ ¬(t.pkt.hasExtension = 1 ∧ t.pkt.extensionElements = []))

/-- R70, R151: DECODE reads no byte at or beyond ILEN: two input buffers that agree below ILEN give the same result. -/
def Obligations.DecodeReadsOnlyItsFrame : Prop :=
  ∀ (s t : State) (m : Memory), (∀ k < s.ilen, m.read k = s.ibuf.read k) → exec .decode s = .next t →
    exec .decode { s with ibuf := m } = .next { t with ibuf := m }

/-- R60, R224, R53: what DECODE leaves alone: every byte of every buffer, OLEN and every register but PKT and STATUS, and PKT too when it
fails; PKT's elements become written when it succeeds. -/
def Obligations.DecodeFrame : Prop :=
  ∀ s t : State, exec .decode s = .next t →
    SameBuffers s t ∧ SameHostSide s t ∧ t.olen = s.olen ∧ t.walk = Walk.idle ∧
    (t.status = 0x10 → t.written = s.written.markPkt) ∧ (t.status ≠ 0x10 → t.pkt = s.pkt ∧ t.written = s.written)

/-- R153: the source's worked example. -/
def Obligations.DecodeSourceExample : Prop :=
  decodeFrame [0x80, 0x60, 0x00, 0x01, 0x00, 0x00, 0x00, 0x0A, 0x00, 0x00, 0x00, 0x01] =
    .ok
      { version := 2, padding := 0, hasExtension := 0, csrcCount := 0, marker := 0, payloadType := 0x60,
        sequenceNumber := 1, timestamp := 10, ssrc := 1, extensionProfile := 0x0000, csrcList := [],
        extensionElements := [], paddingSize := 0, payload := [], extBytes := 0 } ∧
  ∀ s : State, HoldsFrame s [0x80, 0x60, 0x00, 0x01, 0x00, 0x00, 0x00, 0x0A, 0x00, 0x00, 0x00, 0x01] →
    ∃ t, exec .decode s = .next t ∧ t.status = 0x10 ∧ t.pkt.version = 2 ∧ t.pkt.padding = 0 ∧ t.pkt.hasExtension = 0 ∧
      t.pkt.csrcCount = 0 ∧ t.pkt.marker = 0 ∧ t.pkt.payloadType = 0x60 ∧ t.pkt.sequenceNumber = 1 ∧
      t.pkt.timestamp = 10 ∧ t.pkt.ssrc = 1 ∧ t.pkt.payload = [] ∧ t.pkt.csrcList = [] ∧ t.pkt.extensionProfile = 0 ∧
      t.pkt.extensionElements = [] ∧ t.pkt.paddingSize = 0 ∧ t.pkt.extBytes = 0

/-- R151: a frame that decodes OK, cut anywhere, gives Truncated, Malformed or OK, never a version or profile error. -/
def Obligations.DecodeOfCutFrame : Prop :=
  ∀ (B : Bytes) (p : Packet) (k : Nat) (s : State), decodeFrame B = .ok p → HoldsFrame s (B.take k) →
    ∃ t, exec .decode s = .next t ∧ (t.status = 0x10 ∨ t.status = 0x12 ∨ t.status = 0x14)

/-! ### ENCODE (42_encoder.md) -/

/-- R162 to R167, R178: the first of the five checks that fails is reported, with OLEN 0 and nothing else written. -/
def Obligations.EncodeErrorOrder : Prop :=
  ∀ s : State, EncodeReady s →
    (15 < s.pkt.csrcList.length → exec .encode s = .next (failedEncode s 0x25)) ∧
    (s.pkt.csrcList.length ≤ 15 → 14 < s.pkt.extensionElements.length →
      exec .encode s = .next (failedEncode s 0x26)) ∧
    (s.pkt.csrcList.length ≤ 15 → s.pkt.extensionElements.length ≤ 14 → ¬LengthsOk s.pkt →
      exec .encode s = .next (failedEncode s 0x27)) ∧
    (s.pkt.csrcList.length ≤ 15 → s.pkt.extensionElements.length ≤ 14 → LengthsOk s.pkt → ¬Consistent s.pkt →
      exec .encode s = .next (failedEncode s 0x28)) ∧
    (PassesV4 s.pkt → s.cap < frameLength s.pkt → exec .encode s = .next (failedEncode s 0x29))

/-- R160, R175, R177: a packet that passes V1 to V5 is written from offset 0 of OBUF, OLEN is the frame's length, STATUS 0x20, and nothing
else changes. -/
def Obligations.EncodeCompletes : Prop :=
  ∀ s : State, EncodeReady s → PassesV4 s.pkt → frameLength s.pkt ≤ s.cap →
    exec .encode s = .next
      { s with
        obuf := s.obuf.writeRange 0 (frameBytes s.pkt), olen := frameLength s.pkt
        written := { s.written with olen := true }, status := 0x20, walk := Walk.idle }

/-- R81, R166, R168 to R174: the frame's length, and each part of it at its offset. -/
def Obligations.EncodedFrameLayout : Prop :=
  ∀ p : Packet,
    let C := p.csrcList.length
    let eb := (p.extensionElements.map fun e => 1 + e.data.length).sum
    let L := (eb + 3) / 4
    let ps := 12 + 4 * C + if p.extensionElements = [] then 0 else 4 + 4 * L
    let F := frameBytes p
    F.length = frameLength p ∧
    slice F 0 1 = [pack0 p.version p.padding (if p.extensionElements = [] then 0 else 1) p.csrcCount] ∧
    slice F 1 1 = [pack1 p.marker p.payloadType] ∧
    slice F 2 2 = tobe16 p.sequenceNumber ∧ slice F 4 4 = tobe32 p.timestamp ∧ slice F 8 4 = tobe32 p.ssrc ∧
    (∀ (k : Nat) (h : k < C), slice F (12 + 4 * k) 4 = tobe32 p.csrcList[k]) ∧
    (p.extensionElements ≠ [] →
      slice F (12 + 4 * C) 2 = [0xBE, 0xDE] ∧ slice F (14 + 4 * C) 2 = tobe16 (BitVec.ofNat 16 L) ∧
        slice F (16 + 4 * C) (4 * L) = writeBlock p.extensionElements) ∧
    slice F ps p.payload.length = p.payload ∧
    (0 < p.paddingSize.toNat →
      slice F (ps + p.payload.length) p.paddingSize.toNat =
        List.replicate (p.paddingSize.toNat - 1) 0 ++ [p.paddingSize])

/-- R91: the length of the frame ENCODE writes; for a canonical packet its largest value is `571 + |payload|`, which is reached. -/
def Obligations.CanonicalFrameLength : Prop :=
  (∀ p : Packet,
    (frameBytes p).length =
      12 + 4 * p.csrcList.length +
        (if 0 < p.extensionElements.length then
          4 + 4 * (((p.extensionElements.map fun e => 1 + e.data.length).sum + 3) / 4)
         else 0) +
        p.payload.length + p.paddingSize.toNat) ∧
  (∀ p : Packet, p.canonical → (frameBytes p).length ≤ 571 + p.payload.length) ∧
  ∀ payload : Bytes, ∃ p : Packet, p.canonical ∧ p.payload = payload ∧ (frameBytes p).length = 571 + payload.length

/-- R61, R177, R224, R53: what ENCODE leaves alone. On success every byte of OBUF outside `[0, frameLength)` reads as before and the
bytes inside are the frame's; on an error every byte reads as before and OLEN is 0. PKT, the other buffers and every other register
are unchanged either way. -/
def Obligations.EncodeFrame : Prop :=
  ∀ s t : State, exec .encode s = .next t →
    t.pkt = s.pkt ∧ SameHostSide s t ∧ (∀ a, t.ibuf.read a = s.ibuf.read a) ∧ (∀ a, t.argbuf.read a = s.argbuf.read a) ∧
    t.walk = Walk.idle ∧ t.written = { s.written with olen := true } ∧
    (t.status = 0x20 →
      t.olen = frameLength s.pkt ∧ t.olen ≤ s.cap ∧
        (∀ a, frameLength s.pkt ≤ a → t.obuf.read a = s.obuf.read a) ∧
        (∀ a, a < frameLength s.pkt → t.obuf.read a = (frameBytes s.pkt)[a]?)) ∧
    (t.status ≠ 0x20 → t.olen = 0 ∧ ∀ a, t.obuf.read a = s.obuf.read a)

/-- R176: ENCODE reads neither `has_extension` nor `extension_profile` nor `ext_bytes`: other values in them, written or not, give the
same result. -/
def Obligations.EncodeIgnoresDerivedFields : Prop :=
  ∀ (s t : State) (x : Bit) (prof : BitVec 16) (eb : Nat) (wx wp we : Bool), exec .encode s = .next t →
    exec .encode
        { s with
          pkt := { s.pkt with hasExtension := x, extensionProfile := prof, extBytes := eb }
          written := { s.written with hasExtension := wx, extensionProfile := wp, extBytes := we } } =
      .next
        { t with
          pkt := { s.pkt with hasExtension := x, extensionProfile := prof, extBytes := eb }
          written := { t.written with hasExtension := wx, extensionProfile := wp, extBytes := we } }

/-- R180: the round trip. ENCODE of a canonical packet into a large enough OBUF ends OK, and DECODE of the bytes it wrote, given to any
instance as a frame, ends OK with that packet. The other direction does not hold: some frame decodes to a packet whose frame is another. -/
def Obligations.EncodeThenDecode : Prop :=
  (∀ s : State, EncodeReady s → s.pkt.canonical → frameLength s.pkt ≤ s.cap →
    ∃ t, exec .encode s = .next t ∧ t.status = 0x20 ∧ t.olen = frameLength s.pkt ∧
      ∃ B : Bytes, B.length = t.olen ∧ (∀ (k : Nat) (h : k < B.length), t.obuf.read k = some B[k]) ∧
        ∀ u : State, HoldsFrame u B → ∃ v, exec .decode u = .next v ∧ v.status = 0x10 ∧ v.pkt = s.pkt) ∧
  ∃ (B : Bytes) (p : Packet), decodeFrame B = .ok p ∧ frameBytes p ≠ B

/-! ### ADD_EXT (44_extension_registry.md) -/

/-- R213: a valid element with a new id goes to the end of the list and `ext_bytes` grows by `1 + |d|`; STATUS 0x30, nothing else
changes. -/
def Obligations.AddExtAppends : Prop :=
  ∀ (s : State) (d : Bytes) (id : Nibble), HoldsArgs s d → s.argId.toNat = id.toNat → 1 ≤ id.toNat → id.toNat ≤ 14 →
    1 ≤ d.length → d.length ≤ 16 → (∀ e ∈ s.pkt.extensionElements, e.id ≠ id) →
    exec .addExt s = .next
      { s with
        pkt := { s.pkt with
          extensionElements := s.pkt.extensionElements ++ [{ id := id, data := d }]
          extBytes := s.pkt.extBytes + (1 + d.length) }
        status := 0x30
        walk := Walk.idle }

/-- R212: with a valid argument whose id is already on the packet ADD_EXT succeeds and writes nothing but STATUS; with data of a bad length
it is InvalidArgument all the same. -/
def Obligations.AddExtDuplicateIsNoOp : Prop :=
  ∀ (s : State) (d : Bytes) (e : Element), HoldsArgs s d → e ∈ s.pkt.extensionElements → s.argId.toNat = e.id.toNat →
    1 ≤ s.argId.toNat → s.argId.toNat ≤ 14 →
    (1 ≤ d.length → d.length ≤ 16 → exec .addExt s = .next { s with status := 0x30, walk := Walk.idle }) ∧
    (d = [] ∨ 16 < d.length → exec .addExt s = .next (failed s 0x38))

/-- R211: an id outside 1 to 14 or data of a length outside 1 to 16 is InvalidArgument, whatever is on the packet. -/
def Obligations.AddExtInvalidArgument : Prop :=
  ∀ (s : State) (d : Bytes), HoldsArgs s d →
    (s.argId = 0 ∨ 14 < s.argId.toNat ∨ d = [] ∨ 16 < d.length) → exec .addExt s = .next (failed s 0x38)

/-- R214, R53: ADD_EXT writes no field but `extension_elements`, `ext_bytes` and STATUS, and no byte of any buffer. -/
def Obligations.AddExtFrame : Prop :=
  ∀ s t : State, exec .addExt s = .next t →
    SameBuffers s t ∧ SameHostSide s t ∧ t.olen = s.olen ∧ t.written = s.written ∧ t.walk = Walk.idle ∧
    t.pkt = { s.pkt with extensionElements := t.pkt.extensionElements, extBytes := t.pkt.extBytes } ∧
    (t.status = 0x30 ∨ t.status = 0x38) ∧ (t.status = 0x38 → t.pkt = s.pkt)

/-- R34, R215: from a list that satisfies the element invariants ADD_EXT leaves one that does (so never more than 14 elements), and a
tracked total that equals the list's element bytes stays so. -/
def Obligations.AddExtKeepsElementsValid : Prop :=
  ∀ s t : State, elementsOk s.pkt.extensionElements → exec .addExt s = .next t →
    elementsOk t.pkt.extensionElements ∧
      (s.pkt.extBytes = (s.pkt.extensionElements.map fun e => 1 + e.data.length).sum →
        t.pkt.extBytes = (t.pkt.extensionElements.map fun e => 1 + e.data.length).sum)

/-! ### All commands -/

/-- R71: a command run twice, with no host access between, gives the state it gave the first time. -/
def Obligations.CommandsAreIdempotent : Prop :=
  ∀ s t : State,
    (exec .decode s = .next t → exec .decode t = .next t) ∧
    (s.obuf.wf → exec .encode s = .next t → exec .encode t = .next t) ∧
    (exec .addExt s = .next t → exec .addExt t = .next t)

/-- R40, R221, R222, R223: after a command LASTOP is its opcode, CODE is 0 or one of its errors' codes, and the reserved bits are 0. -/
def Obligations.StatusAfterCommand : Prop :=
  ∀ s t : State,
    (exec .decode s = .next t →
      t.status.extractLsb' 6 2 = 0 ∧ t.status.extractLsb' 4 2 = 1 ∧ (t.status.extractLsb' 0 4).toNat ≤ 4) ∧
    (exec .encode s = .next t →
      t.status.extractLsb' 6 2 = 0 ∧ t.status.extractLsb' 4 2 = 2 ∧
        ((t.status.extractLsb' 0 4).toNat = 0 ∨
          5 ≤ (t.status.extractLsb' 0 4).toNat ∧ (t.status.extractLsb' 0 4).toNat ≤ 9)) ∧
    (exec .addExt s = .next t →
      t.status.extractLsb' 6 2 = 0 ∧ t.status.extractLsb' 4 2 = 3 ∧
        ((t.status.extractLsb' 0 4).toNat = 0 ∨ (t.status.extractLsb' 0 4).toNat = 8))

/-! ### Wire units -/

/-- R133: frame byte 0 is unpacked when its version is 2, and is UnsupportedVersion otherwise. -/
def Obligations.RtpByte0Unpacks : Prop :=
  ∀ (s : State) (v : BitVec 2) (p x : Bit) (cc : BitVec 4),
    (v = 2 → exec (.rtpByte0 v p x cc) s = .next
      { s with walk := { s.walk with
        phase := .byte1
        draft := { s.walk.draft with version := v, padding := p, hasExtension := x, csrcCount := cc } } }) ∧
    (v ≠ 2 → exec (.rtpByte0 v p x cc) s = .next (failed s 0x11))

/-- R134, R138, R194, R195: frame byte 1 is unpacked; the accepted profile is read; a filler advances by 1; a terminator ends the body,
with the cursor past all of it. -/
def Obligations.PlainWireUnitsComplete : Prop :=
  ∀ s : State,
    (∀ (m : Bit) (pt : BitVec 7), exec (.rtpByte1 m pt) s = .next
      { s with walk := { s.walk with
        phase := .words, draft := { s.walk.draft with marker := m, payloadType := pt } } }) ∧
    (exec .extProfileBede s = .next
      { s with walk := { s.walk with
        phase := .extLength, cur := s.walk.cur + 2, draft := { s.walk.draft with extensionProfile := 0xBEDE } } }) ∧
    (∀ l : Nibble, exec (.extPad l) s = .next { s with walk := { s.walk with i := s.walk.i + 1 } }) ∧
    (∀ x : Nibble, exec (.extTerm x) s = .next
      { s with walk := { s.walk with phase := .tail, cur := s.walk.cur + s.walk.bodyLen } })

/-- R196 to R199: an element whose data lie in the body and whose id is new is recorded and skipped; one that runs past the body or
repeats an id is Malformed. -/
def Obligations.ExtElemRecords : Prop :=
  ∀ (s : State) (id lf : Nibble), s.walk.cur + s.walk.bodyLen ≤ s.walk.frame.length →
    (s.walk.i + 1 + (lf.toNat + 1) ≤ s.walk.bodyLen → id ∉ s.walk.seen →
      exec (.extElem id lf) s = .next
        { s with walk := { s.walk with
          i := s.walk.i + 1 + (lf.toNat + 1), seen := s.walk.seen ++ [id]
          draft := { s.walk.draft with
            extensionElements := s.walk.draft.extensionElements ++
              [{ id := id, data := slice s.walk.frame (s.walk.cur + s.walk.i + 1) (lf.toNat + 1) }] } } }) ∧
    (s.walk.bodyLen < s.walk.i + 1 + (lf.toNat + 1) ∨ id ∈ s.walk.seen →
      exec (.extElem id lf) s = .next (failed s 0x14))

/-- No wire unit writes a buffer, a register but STATUS, PKT, or `W`. That a wire unit is a step of its own is the model's choice (log 8,
DESIGN CHOICE); the spec says of the whole DECODE that its local state is not the host's (R49) and that an error writes STATUS alone
(R224). -/
def Obligations.WireUnitFrame : Prop :=
  ∀ (i : Instr) (s t : State), i.port ≠ .cmd → exec i s = .next t →
    t.pkt = s.pkt ∧ SameBuffers s t ∧ SameHostSide s t ∧ t.olen = s.olen ∧ t.written = s.written ∧
    (t.status ≠ s.status → t.walk = Walk.idle)

/-- R202, R130, R220: DECODE stepped unit by unit from its start ends in the very state the atomic command gives. -/
def Obligations.UnitSteppedDecode : Prop :=
  ∀ (s : State) (B : Bytes), HoldsFrame s B →
    ∃ k, Host.Core.run Sys2Proof.core k { s with walk := Walk.start B } = exec .decode s

/-! ### The host -/

/-- R46, R47: a host write that fits a read-write register stores its value there and marks it written; every other element is as
before. -/
def Obligations.HostWriteRegister : Prop :=
  ∀ (s : State) (r : Reg) (v : Nat) (rest : List HostOp), Next s (.write r.number v) rest → r ≠ .status → r ≠ .olen →
    r.fits s.params v = true →
    ∃ t, step s = .next t ∧ t.getReg r = v ∧ (∀ r', r' ≠ r → t.getReg r' = s.getReg r') ∧
      (∀ q, t.getSeq q = s.getSeq q) ∧ SameBuffers s t ∧ t.written = s.written.markReg r ∧ t.pending = rest ∧
      t.params = s.params ∧ t.faultMark = s.faultMark ∧ t.refusalMark = s.refusalMark ∧ t.walk = s.walk ∧
      t.rdata = s.rdata ∧ t.reads = s.reads

/-- R46: the register map. Every number from 0x00 to 0xFF names the port CMD, the register of the table, or nothing. -/
def Obligations.RegisterMap : Prop :=
  (∀ n : Byte, regAt n = none ↔ n = 0x00 ∨ (0x07 ≤ n.toNat ∧ n.toNat ≤ 0x0F) ∨ 0x1C ≤ n.toNat) ∧
  [0x01, 0x02, 0x03, 0x04, 0x05, 0x06, 0x10, 0x11, 0x12, 0x13, 0x14, 0x15, 0x16, 0x17, 0x18, 0x19, 0x1A, 0x1B].map regAt =
    [.status, .ilen, .cap, .olen, .argId, .argLen, .version, .padding, .hasExtension, .csrcCount, .marker, .payloadType,
      .sequenceNumber, .timestamp, .ssrc, .extensionProfile, .paddingSize, .extBytes].map some ∧
  (∀ (p : Config.Params) (v : Nat),
    (Reg.ilen.fits p v = true ↔ v ≤ p.maxIn) ∧ (Reg.cap.fits p v = true ↔ v ≤ p.maxOut) ∧
    (Reg.argId.fits p v = true ↔ v < 2 ^ 8) ∧ (Reg.argLen.fits p v = true ↔ v ≤ p.maxArg) ∧
    (Reg.version.fits p v = true ↔ v < 2 ^ 2) ∧ (Reg.padding.fits p v = true ↔ v < 2 ^ 1) ∧
    (Reg.hasExtension.fits p v = true ↔ v < 2 ^ 1) ∧ (Reg.csrcCount.fits p v = true ↔ v < 2 ^ 4) ∧
    (Reg.marker.fits p v = true ↔ v < 2 ^ 1) ∧ (Reg.payloadType.fits p v = true ↔ v < 2 ^ 7) ∧
    (Reg.sequenceNumber.fits p v = true ↔ v < 2 ^ 16) ∧ (Reg.timestamp.fits p v = true ↔ v < 2 ^ 32) ∧
    (Reg.ssrc.fits p v = true ↔ v < 2 ^ 32) ∧ (Reg.extensionProfile.fits p v = true ↔ v < 2 ^ 16) ∧
    (Reg.paddingSize.fits p v = true ↔ v < 2 ^ 8) ∧ Reg.extBytes.fits p v = true)

/-- R46, I9, I12: the host's register writes that are refused, each by its name. -/
def Obligations.HostWriteRefused : Prop :=
  ∀ (s : State) (n : Byte) (v : Nat) (rest : List HostOp), Next s (.write n v) rest →
    ((0x07 ≤ n.toNat ∧ n.toNat ≤ 0x0F) ∨ 0x1C ≤ n.toNat → step s = .refused (.reservedRegister n)) ∧
    (n = 0x01 → step s = .refused (.readOnly (.reg .status))) ∧
    (n = 0x04 → step s = .refused (.readOnly (.reg .olen))) ∧
    (∀ r : Reg, n = r.number → r ≠ .status → r ≠ .olen → r.fits s.params v = false →
      step s = .refused (.doesNotFit (.reg r))) ∧
    (n = 0x00 → 256 ≤ v → step s = .refused (.commandTooWide v))

/-- R46, R47, R60 to R62: a host write of bytes inside IBUF or ARGBUF stores them, in order, and nothing else; outside the buffer, or to
OBUF, it is refused. -/
def Obligations.HostWriteBytes : Prop :=
  ∀ (s : State) (b : Buf) (off : Nat) (bs : Bytes) (rest : List HostOp), Next s (.writeBytes b off bs) rest →
    (b ≠ .obuf → off + bs.length ≤ bufCapacity s.params b →
      ∃ t, step s = .next t ∧ (∀ (k : Nat) (h : k < bs.length), (t.buffer b).read (off + k) = some bs[k]) ∧
        (∀ a, a < off ∨ off + bs.length ≤ a → (t.buffer b).read a = (s.buffer b).read a) ∧
        (∀ b', b' ≠ b → ∀ a, (t.buffer b').read a = (s.buffer b').read a) ∧
        t.pkt = s.pkt ∧ (∀ r, t.getReg r = s.getReg r) ∧ t.written = s.written ∧ t.pending = rest ∧
        t.params = s.params ∧ t.faultMark = s.faultMark ∧ t.refusalMark = s.refusalMark ∧ t.walk = s.walk ∧
        t.rdata = s.rdata ∧ t.reads = s.reads) ∧
    (b ≠ .obuf → bufCapacity s.params b < off + bs.length → step s = .refused (.outOfRange b)) ∧
    (b = .obuf → step s = .refused (.readOnly (.buf .obuf)))

/-- R32, R33, R36, R46: a host write of a PKT sequence that fits its storage replaces it whole and marks it; one that does not fit is
refused. -/
def Obligations.HostWriteSequence : Prop :=
  ∀ (s : State) (v : SeqValue) (rest : List HostOp), Next s (.writeSeq v) rest →
    (v.fits s.params = true →
      ∃ t, step s = .next t ∧ t.getSeq v.name = v ∧ (∀ q, q ≠ v.name → t.getSeq q = s.getSeq q) ∧
        (∀ r, t.getReg r = s.getReg r) ∧ SameBuffers s t ∧ t.written = s.written.markSeq v.name ∧ t.pending = rest ∧
        t.params = s.params ∧ t.faultMark = s.faultMark ∧ t.refusalMark = s.refusalMark ∧ t.walk = s.walk ∧
        t.rdata = s.rdata ∧ t.reads = s.reads) ∧
    (v.fits s.params = false → step s = .refused (.doesNotFit (.seq v.name)))

/-- R39, R46, R71, R98: host reads change nothing of the block; CMD reads as 0x00, a written register as its value, and an unwritten one
as some value of its width (I14). What is returned stands in the model's own `rdata` (log 5). -/
def Obligations.HostReadsChangeNothing : Prop :=
  ∀ (s : State) (rest : List HostOp),
    (∀ n, Next s (.read n) rest →
      (n = 0x00 → step s = .next { s with pending := rest, rdata := .nat 0, reads := s.reads + 1 }) ∧
      (∀ r, n = Reg.number r → ∃ v, step s = .next { s with pending := rest, rdata := .nat v, reads := s.reads + 1 } ∧
        (s.written.reg r = true → v = s.getReg r) ∧ (s.written.reg r = false → r.fits s.params v = true)) ∧
      ((0x07 ≤ n.toNat ∧ n.toNat ≤ 0x0F) ∨ 0x1C ≤ n.toNat → step s = .refused (.reservedRegister n))) ∧
    (∀ (b : Buf) (off n : Nat), Next s (.readBytes b off n) rest → off + n ≤ bufCapacity s.params b →
      ∃ bs : Bytes, step s = .next { s with pending := rest, rdata := .bytes bs, reads := s.reads + 1 } ∧ bs.length = n ∧
        ∀ (k : Nat) (v : Byte), k < n → (s.buffer b).read (off + k) = some v → bs[k]? = some v) ∧
    (∀ q, Next s (.readSeq q) rest →
      ∃ v, step s = .next { s with pending := rest, rdata := .seq v, reads := s.reads + 1 } ∧
        (s.written.seq q = true → v = s.getSeq q))

/-- R99: CLEARPKT leaves a canonical packet with every PKT element written, and touches nothing else. -/
def Obligations.ClearPktGivesCanonicalPacket : Prop :=
  ∀ s : State, s.walk.phase = .idle →
    ∃ t, Safety.EndState s clearPkt t ∧ t.pkt.canonical ∧ t.written = s.written.markPkt ∧ SameBuffers s t ∧
      t.ilen = s.ilen ∧ t.cap = s.cap ∧ t.olen = s.olen ∧ t.argId = s.argId ∧ t.argLen = s.argLen ∧ t.status = s.status

/-- R99, R253: LOADFRAME gives DECODE the frame, when IBUF can hold it. -/
def Obligations.LoadFrameMakesDecodeReady : Prop :=
  ∀ (s : State) (B : Bytes), s.walk.phase = .idle → B.length ≤ s.params.maxIn →
    ∃ t, Safety.EndState s (loadFrame B) t ∧ HoldsFrame t B ∧ t.pkt = s.pkt ∧ t.status = s.status

/-! ### Every step -/

/-- Every step keeps the invariant: the bounds of R46 on registers, buffers, the CSRC list, the payload and each element's data (not on
the number of elements, for ADD_EXT does no count check: R215, log 11), the buffers' canonical form, a legal STATUS (R40), and cursors
that have not passed the end of what they index (R50). -/
def Obligations.StepKeepsInvariant : Prop :=
  ∀ s t : State, Safety.Inv s → step s = .next t → Safety.Inv t

/-- The machine after reset meets the invariant. -/
def Obligations.ResetMeetsInvariant : Prop := Safety.Inv State.reset

/-- R49, R251: the local state of a command does not survive it: from a state with none in progress no step leaves any. -/
def Obligations.NoLocalStateBetweenCommands : Prop :=
  ∀ s t : State, s.walk = Walk.idle → step s = .next t → t.walk = Walk.idle

/-- R11, R41, R42, R44, R60, R62: the parameters never change, and a step that is no access of the host's writes none of the six
elements R46 says the engine never writes: IBUF, ILEN, CAP, ARGBUF, ARG_ID, ARG_LEN. (ADD_EXT's other two inputs,
`PKT.extension_elements` and `PKT.ext_bytes`, are written by the engine: R46, R77.) -/
def Obligations.OnlyTheHostWritesFrameCapAndArguments : Prop :=
  ∀ s t : State, step s = .next t →
    t.params = s.params ∧
    ((s.walk.phase ≠ .idle ∨ s.pending = [] ∨ ∃ (v : Nat) (rest : List HostOp), s.pending = .write 0x00 v :: rest) →
      (∀ a, t.ibuf.read a = s.ibuf.read a) ∧ t.ilen = s.ilen ∧ t.cap = s.cap ∧ (∀ a, t.argbuf.read a = s.argbuf.read a) ∧
        t.argId = s.argId ∧ t.argLen = s.argLen)
end

