-- ==== Sys2Proof/Laws/Memory.lean ====
section
/-! SUPPORT. What the buffer operations do (20_memory.md): read after write, the canonical form, ranges. -/

namespace Sys2Proof.Machine

@[simp] theorem Memory.read_nil (a : Nat) : Memory.read [] a = none := rfl

/-- A byte reads as last written. -/
@[simp] theorem Memory.read_write (m : Memory) (a : Nat) (b : Byte) : (Memory.write m a b).read a = some b := by
  induction m with
  | nil => simp [Memory.write, Memory.read]
  | cons c rest ih =>
    obtain ⟨k, v⟩ := c
    simp only [Memory.write]
    split
    · simp [Memory.read]
    · split
      · simp [Memory.read]
      · next h => simp [Memory.read, Ne.symm h, ih]

/-- A write leaves every other byte alone. -/
theorem Memory.read_write_ne (m : Memory) (a a' : Nat) (b : Byte) (h : a' ≠ a) : (Memory.write m a b).read a' = m.read a' := by
  induction m with
  | nil => simp [Memory.write, Memory.read, h.symm]
  | cons c rest ih =>
    obtain ⟨k, v⟩ := c
    simp only [Memory.write]
    split
    · simp [Memory.read, h.symm]
    · split
      · next hk => subst hk; simp [Memory.read, h.symm]
      · simp [Memory.read, ih]

/-- A write lists only its own offset beside what was listed. -/
theorem Memory.mem_write (m : Memory) (a : Nat) (b : Byte) (c : Host.Cell) (h : c ∈ Memory.write m a b) : c = (a, b) ∨ c ∈ m := by
  induction m with
  | nil => simpa [Memory.write] using h
  | cons d rest ih =>
    obtain ⟨k, v⟩ := d
    simp only [Memory.write] at h
    split at h
    · simpa using h
    · split at h
      · rcases List.mem_cons.1 h with h | h
        · exact .inl h
        · exact .inr (List.mem_cons_of_mem _ h)
      · rcases List.mem_cons.1 h with h | h
        · exact .inr (h ▸ List.mem_cons_self)
        · exact (ih h).imp_right (List.mem_cons_of_mem _)

/-- Every write keeps the canonical form. -/
theorem Memory.wf_write (m : Memory) (a : Nat) (b : Byte) (h : m.wf) : (Memory.write m a b).wf := by
  induction m with
  | nil => simp [Memory.write, Memory.wf]
  | cons c rest ih =>
    obtain ⟨k, v⟩ := c
    simp only [Memory.wf, List.map_cons, List.pairwise_cons] at h ih ⊢
    simp only [Memory.write]
    split
    · next hk =>
      simp only [List.map_cons, List.pairwise_cons, List.mem_cons, forall_eq_or_imp]
      exact ⟨⟨hk, fun x hx => Nat.lt_trans hk (h.1 x hx)⟩, h⟩
    · split
      · next hk => subst hk; exact List.pairwise_cons.2 h
      · next hlt hne =>
        simp only [List.map_cons, List.pairwise_cons]
        refine ⟨fun x hx => ?_, ih h.2⟩
        obtain ⟨c, hc, rfl⟩ := List.mem_map.1 hx
        rcases Memory.mem_write rest a b c hc with rfl | hc
        · show k < a
          omega
        · exact h.1 _ (List.mem_map_of_mem hc)

theorem Memory.mem_writeRange (m : Memory) (off : Nat) (bs : Bytes) (c : Host.Cell) (h : c ∈ m.writeRange off bs) :
    (off ≤ c.1 ∧ c.1 < off + bs.length) ∨ c ∈ m := by
  induction bs generalizing m off with
  | nil => exact .inr h
  | cons b bs ih =>
    rcases ih _ _ h with h | h
    · refine .inl ⟨by omega, ?_⟩
      simp only [List.length_cons]
      omega
    · rcases Memory.mem_write m off b c h with rfl | h
      · exact .inl ⟨Nat.le_refl _, by simp⟩
      · exact .inr h

/-- A range write keeps the canonical form. -/
theorem Memory.wf_writeRange (m : Memory) (off : Nat) (bs : Bytes) (h : m.wf) : (m.writeRange off bs).wf := by
  induction bs generalizing m off with
  | nil => exact h
  | cons b bs ih => exact ih _ _ (Memory.wf_write m off b h)

/-- A byte outside a written range is as before. -/
theorem Memory.read_writeRange_out (m : Memory) (off : Nat) (bs : Bytes) (a : Nat) (h : a < off ∨ off + bs.length ≤ a) :
    (m.writeRange off bs).read a = m.read a := by
  induction bs generalizing m off with
  | nil => rfl
  | cons b bs ih =>
    simp only [List.length_cons] at h
    rw [Memory.writeRange, ih _ _ (by omega), Memory.read_write_ne _ _ _ _ (by omega)]

/-- A byte inside a written range is the one written there. -/
theorem Memory.read_writeRange_in (m : Memory) (off : Nat) (bs : Bytes) (k : Nat) (h : k < bs.length) :
    (m.writeRange off bs).read (off + k) = some bs[k] := by
  induction bs generalizing m off k with
  | nil => simp at h
  | cons b bs ih =>
    cases k with
    | zero =>
      rw [Memory.writeRange, Nat.add_zero, Memory.read_writeRange_out _ _ _ _ (by omega)]
      simp
    | succ k =>
      have := ih (Memory.write m off b) (off + 1) k (by simpa using h)
      rw [Memory.writeRange, show off + (k + 1) = off + 1 + k by omega, this]
      simp

/-- When a range read answers, and with what. -/
theorem Memory.readRange_eq_some (m : Memory) (off n : Nat) (bs : Bytes) :
    m.readRange off n = some bs ↔ bs.length = n ∧ ∀ k (h : k < bs.length), m.read (off + k) = some bs[k] := by
  induction n generalizing off bs with
  | zero =>
    simp only [Memory.readRange, Option.some.injEq]
    constructor
    · rintro rfl
      simp
    · rintro ⟨h, -⟩
      exact (List.eq_nil_of_length_eq_zero h).symm
  | succ n ih =>
    rw [Memory.readRange]
    constructor
    · intro h
      split at h
      · next b bs' hb hbs =>
        obtain rfl := Option.some.inj h
        obtain ⟨hl, hk⟩ := (ih _ _).1 hbs
        refine ⟨by simp [hl], fun k hk' => ?_⟩
        cases k with
        | zero => simpa using hb
        | succ k =>
          have := hk k (by simpa using hk')
          rw [show off + (k + 1) = off + 1 + k by omega, this]
          simp
      · cases h
    · rintro ⟨hl, hk⟩
      cases bs with
      | nil => simp at hl
      | cons b bs =>
        have h0 : m.read off = some b := hk 0 (Nat.succ_pos _)
        have h1 : m.readRange (off + 1) n = some bs := by
          refine (ih _ _).2 ⟨by simpa using hl, fun k hk' => ?_⟩
          have := hk (k + 1) (by simpa using hk')
          rw [show off + 1 + k = off + (k + 1) by omega, this]
          simp
        simp [h0, h1]

/-- A range reads as last written. -/
@[simp] theorem Memory.readRange_writeRange (m : Memory) (off : Nat) (bs : Bytes) :
    (m.writeRange off bs).readRange off bs.length = some bs :=
  (Memory.readRange_eq_some _ _ _ _).2 ⟨rfl, fun k h => Memory.read_writeRange_in m off bs k h⟩

theorem Memory.readRange_length (m : Memory) (off n : Nat) (bs : Bytes) (h : m.readRange off n = some bs) : bs.length = n :=
  ((Memory.readRange_eq_some m off n bs).1 h).1

/-- The empty memory is in canonical form. -/
theorem Memory.wf_nil : Memory.wf [] := List.Pairwise.nil

/-- The memories of the machine after reset are in canonical form. -/
theorem State.reset_buffers_wf (b : Buf) : (State.reset.buffer b).wf := by
  cases b <;> exact Memory.wf_nil

/-- Two memories in canonical form that read alike are the same list. -/
theorem Memory.ext_of_read (m m' : Memory) (h : m.wf) (h' : m'.wf) (hr : ∀ a, m.read a = m'.read a) : m = m' := by
  have read_none : ∀ (l : Memory) (a : Nat), (∀ c ∈ l, a < c.1) → l.read a = none := by
    intro l a hl
    induction l with
    | nil => rfl
    | cons c l ih =>
      obtain ⟨k, v⟩ := c
      have : k ≠ a := by have := hl (k, v) (by simp); simp at this; omega
      simp only [Memory.read, this, if_false]
      exact ih fun c hc => hl c (List.mem_cons_of_mem _ hc)
  induction m generalizing m' with
  | nil =>
    cases m' with
    | nil => rfl
    | cons c m' =>
      obtain ⟨k, v⟩ := c
      have := hr k
      simp [Memory.read] at this
  | cons c m ih =>
    obtain ⟨k, v⟩ := c
    simp only [Memory.wf, List.map_cons, List.pairwise_cons, List.mem_map, forall_exists_index, and_imp,
      forall_apply_eq_imp_iff₂] at h
    cases m' with
    | nil =>
      have := hr k
      simp [Memory.read] at this
    | cons c' m' =>
      obtain ⟨k', v'⟩ := c'
      simp only [Memory.wf, List.map_cons, List.pairwise_cons, List.mem_map, forall_exists_index, and_imp,
        forall_apply_eq_imp_iff₂] at h'
      have hkk : k = k' := by
        rcases Nat.lt_trichotomy k k' with hlt | heq | hlt
        · have h1 := hr k
          have h2 := read_none ((k', v') :: m') k (by
            intro c hc
            rcases List.mem_cons.1 hc with rfl | hc
            · exact hlt
            · exact Nat.lt_trans hlt (h'.1 _ hc))
          rw [h2] at h1
          simp [Memory.read] at h1
        · exact heq
        · have h1 := hr k'
          have h2 := read_none ((k, v) :: m) k' (by
            intro c hc
            rcases List.mem_cons.1 hc with rfl | hc
            · exact hlt
            · exact Nat.lt_trans hlt (h.1 _ hc))
          rw [h2] at h1
          simp [Memory.read] at h1
      subst hkk
      have hv : v = v' := by simpa [Memory.read] using hr k
      subst hv
      congr 1
      refine ih m' h.2 h'.2 fun a => ?_
      by_cases ha : k = a
      · subst ha
        rw [read_none m k h.1, read_none m' k h'.1]
      · simpa [Memory.read, ha] using hr a

end Sys2Proof.Machine
end

