-- ==== Sys2Proof/Laws/State.lean ====
section
/-! SUPPORT. One lemma per field of State for each operation that updates it, so that no proof unfolds a record update. -/

namespace Sys2Proof.Machine

/-! ### `State.complete` -/

@[simp] theorem State.complete_params (op : Command) (s : State) : (s.complete op).params = s.params := rfl
@[simp] theorem State.complete_pkt (op : Command) (s : State) : (s.complete op).pkt = s.pkt := rfl
@[simp] theorem State.complete_ibuf (op : Command) (s : State) : (s.complete op).ibuf = s.ibuf := rfl
@[simp] theorem State.complete_ilen (op : Command) (s : State) : (s.complete op).ilen = s.ilen := rfl
@[simp] theorem State.complete_obuf (op : Command) (s : State) : (s.complete op).obuf = s.obuf := rfl
@[simp] theorem State.complete_cap (op : Command) (s : State) : (s.complete op).cap = s.cap := rfl
@[simp] theorem State.complete_olen (op : Command) (s : State) : (s.complete op).olen = s.olen := rfl
@[simp] theorem State.complete_argbuf (op : Command) (s : State) : (s.complete op).argbuf = s.argbuf := rfl
@[simp] theorem State.complete_argId (op : Command) (s : State) : (s.complete op).argId = s.argId := rfl
@[simp] theorem State.complete_argLen (op : Command) (s : State) : (s.complete op).argLen = s.argLen := rfl
@[simp] theorem State.complete_status (op : Command) (s : State) : (s.complete op).status = statusWord 0 op.opcode := rfl
@[simp] theorem State.complete_written (op : Command) (s : State) : (s.complete op).written = s.written := rfl
@[simp] theorem State.complete_faultMark (op : Command) (s : State) : (s.complete op).faultMark = s.faultMark := rfl
@[simp] theorem State.complete_refusalMark (op : Command) (s : State) : (s.complete op).refusalMark = s.refusalMark := rfl
@[simp] theorem State.complete_walk (op : Command) (s : State) : (s.complete op).walk = Walk.idle := rfl
@[simp] theorem State.complete_pending (op : Command) (s : State) : (s.complete op).pending = s.pending := rfl
@[simp] theorem State.complete_rdata (op : Command) (s : State) : (s.complete op).rdata = s.rdata := rfl
@[simp] theorem State.complete_reads (op : Command) (s : State) : (s.complete op).reads = s.reads := rfl

/-! ### `State.raise` -/

@[simp] theorem State.raise_params (op : Command) (e : Err) (s : State) : (s.raise op e).params = s.params := by
  cases op <;> rfl
@[simp] theorem State.raise_pkt (op : Command) (e : Err) (s : State) : (s.raise op e).pkt = s.pkt := by
  cases op <;> rfl
@[simp] theorem State.raise_ibuf (op : Command) (e : Err) (s : State) : (s.raise op e).ibuf = s.ibuf := by
  cases op <;> rfl
@[simp] theorem State.raise_ilen (op : Command) (e : Err) (s : State) : (s.raise op e).ilen = s.ilen := by
  cases op <;> rfl
@[simp] theorem State.raise_obuf (op : Command) (e : Err) (s : State) : (s.raise op e).obuf = s.obuf := by
  cases op <;> rfl
@[simp] theorem State.raise_cap (op : Command) (e : Err) (s : State) : (s.raise op e).cap = s.cap := by
  cases op <;> rfl
@[simp] theorem State.raise_argbuf (op : Command) (e : Err) (s : State) : (s.raise op e).argbuf = s.argbuf := by
  cases op <;> rfl
@[simp] theorem State.raise_argId (op : Command) (e : Err) (s : State) : (s.raise op e).argId = s.argId := by
  cases op <;> rfl
@[simp] theorem State.raise_argLen (op : Command) (e : Err) (s : State) : (s.raise op e).argLen = s.argLen := by
  cases op <;> rfl
@[simp] theorem State.raise_status (op : Command) (e : Err) (s : State) :
    (s.raise op e).status = statusWord e.code op.opcode := by
  cases op <;> rfl
@[simp] theorem State.raise_faultMark (op : Command) (e : Err) (s : State) : (s.raise op e).faultMark = s.faultMark := by
  cases op <;> rfl
@[simp] theorem State.raise_refusalMark (op : Command) (e : Err) (s : State) :
    (s.raise op e).refusalMark = s.refusalMark := by
  cases op <;> rfl
@[simp] theorem State.raise_walk (op : Command) (e : Err) (s : State) : (s.raise op e).walk = Walk.idle := by
  cases op <;> rfl
@[simp] theorem State.raise_pending (op : Command) (e : Err) (s : State) : (s.raise op e).pending = s.pending := by
  cases op <;> rfl
@[simp] theorem State.raise_rdata (op : Command) (e : Err) (s : State) : (s.raise op e).rdata = s.rdata := by
  cases op <;> rfl
@[simp] theorem State.raise_reads (op : Command) (e : Err) (s : State) : (s.raise op e).reads = s.reads := by
  cases op <;> rfl
@[simp] theorem State.raise_olen (op : Command) (e : Err) (s : State) :
    (s.raise op e).olen = if op = .encode then 0 else s.olen := by
  cases op <;> rfl
@[simp] theorem State.raise_written (op : Command) (e : Err) (s : State) :
    (s.raise op e).written = if op = .encode then s.written.markReg .olen else s.written := by
  cases op <;> rfl

/-! ### `State.setWalk` -/

@[simp] theorem State.setWalk_params (w : Walk) (s : State) : (s.setWalk w).params = s.params := rfl
@[simp] theorem State.setWalk_pkt (w : Walk) (s : State) : (s.setWalk w).pkt = s.pkt := rfl
@[simp] theorem State.setWalk_ibuf (w : Walk) (s : State) : (s.setWalk w).ibuf = s.ibuf := rfl
@[simp] theorem State.setWalk_ilen (w : Walk) (s : State) : (s.setWalk w).ilen = s.ilen := rfl
@[simp] theorem State.setWalk_obuf (w : Walk) (s : State) : (s.setWalk w).obuf = s.obuf := rfl
@[simp] theorem State.setWalk_cap (w : Walk) (s : State) : (s.setWalk w).cap = s.cap := rfl
@[simp] theorem State.setWalk_olen (w : Walk) (s : State) : (s.setWalk w).olen = s.olen := rfl
@[simp] theorem State.setWalk_argbuf (w : Walk) (s : State) : (s.setWalk w).argbuf = s.argbuf := rfl
@[simp] theorem State.setWalk_argId (w : Walk) (s : State) : (s.setWalk w).argId = s.argId := rfl
@[simp] theorem State.setWalk_argLen (w : Walk) (s : State) : (s.setWalk w).argLen = s.argLen := rfl
@[simp] theorem State.setWalk_status (w : Walk) (s : State) : (s.setWalk w).status = s.status := rfl
@[simp] theorem State.setWalk_written (w : Walk) (s : State) : (s.setWalk w).written = s.written := rfl
@[simp] theorem State.setWalk_faultMark (w : Walk) (s : State) : (s.setWalk w).faultMark = s.faultMark := rfl
@[simp] theorem State.setWalk_refusalMark (w : Walk) (s : State) : (s.setWalk w).refusalMark = s.refusalMark := rfl
@[simp] theorem State.setWalk_walk (w : Walk) (s : State) : (s.setWalk w).walk = w := rfl
@[simp] theorem State.setWalk_pending (w : Walk) (s : State) : (s.setWalk w).pending = s.pending := rfl
@[simp] theorem State.setWalk_rdata (w : Walk) (s : State) : (s.setWalk w).rdata = s.rdata := rfl
@[simp] theorem State.setWalk_reads (w : Walk) (s : State) : (s.setWalk w).reads = s.reads := rfl

/-! ### `State.commitPacket` -/

@[simp] theorem State.commitPacket_params (p : Packet) (s : State) : (s.commitPacket p).params = s.params := rfl
@[simp] theorem State.commitPacket_pkt (p : Packet) (s : State) : (s.commitPacket p).pkt = p := rfl
@[simp] theorem State.commitPacket_ibuf (p : Packet) (s : State) : (s.commitPacket p).ibuf = s.ibuf := rfl
@[simp] theorem State.commitPacket_ilen (p : Packet) (s : State) : (s.commitPacket p).ilen = s.ilen := rfl
@[simp] theorem State.commitPacket_obuf (p : Packet) (s : State) : (s.commitPacket p).obuf = s.obuf := rfl
@[simp] theorem State.commitPacket_cap (p : Packet) (s : State) : (s.commitPacket p).cap = s.cap := rfl
@[simp] theorem State.commitPacket_olen (p : Packet) (s : State) : (s.commitPacket p).olen = s.olen := rfl
@[simp] theorem State.commitPacket_argbuf (p : Packet) (s : State) : (s.commitPacket p).argbuf = s.argbuf := rfl
@[simp] theorem State.commitPacket_argId (p : Packet) (s : State) : (s.commitPacket p).argId = s.argId := rfl
@[simp] theorem State.commitPacket_argLen (p : Packet) (s : State) : (s.commitPacket p).argLen = s.argLen := rfl
@[simp] theorem State.commitPacket_status (p : Packet) (s : State) :
    (s.commitPacket p).status = statusWord 0 Command.decode.opcode := rfl
@[simp] theorem State.commitPacket_written (p : Packet) (s : State) : (s.commitPacket p).written = s.written.markPkt := rfl
@[simp] theorem State.commitPacket_faultMark (p : Packet) (s : State) : (s.commitPacket p).faultMark = s.faultMark := rfl
@[simp] theorem State.commitPacket_refusalMark (p : Packet) (s : State) :
    (s.commitPacket p).refusalMark = s.refusalMark := rfl
@[simp] theorem State.commitPacket_walk (p : Packet) (s : State) : (s.commitPacket p).walk = Walk.idle := rfl
@[simp] theorem State.commitPacket_pending (p : Packet) (s : State) : (s.commitPacket p).pending = s.pending := rfl
@[simp] theorem State.commitPacket_rdata (p : Packet) (s : State) : (s.commitPacket p).rdata = s.rdata := rfl
@[simp] theorem State.commitPacket_reads (p : Packet) (s : State) : (s.commitPacket p).reads = s.reads := rfl

/-! ### `State.commitFrame` -/

@[simp] theorem State.commitFrame_params (p : Packet) (s : State) : (s.commitFrame p).params = s.params := rfl
@[simp] theorem State.commitFrame_pkt (p : Packet) (s : State) : (s.commitFrame p).pkt = s.pkt := rfl
@[simp] theorem State.commitFrame_ibuf (p : Packet) (s : State) : (s.commitFrame p).ibuf = s.ibuf := rfl
@[simp] theorem State.commitFrame_ilen (p : Packet) (s : State) : (s.commitFrame p).ilen = s.ilen := rfl
@[simp] theorem State.commitFrame_obuf (p : Packet) (s : State) :
    (s.commitFrame p).obuf = s.obuf.writeRange 0 (frameBytes p) := rfl
@[simp] theorem State.commitFrame_cap (p : Packet) (s : State) : (s.commitFrame p).cap = s.cap := rfl
@[simp] theorem State.commitFrame_olen (p : Packet) (s : State) : (s.commitFrame p).olen = p.total := rfl
@[simp] theorem State.commitFrame_argbuf (p : Packet) (s : State) : (s.commitFrame p).argbuf = s.argbuf := rfl
@[simp] theorem State.commitFrame_argId (p : Packet) (s : State) : (s.commitFrame p).argId = s.argId := rfl
@[simp] theorem State.commitFrame_argLen (p : Packet) (s : State) : (s.commitFrame p).argLen = s.argLen := rfl
@[simp] theorem State.commitFrame_status (p : Packet) (s : State) :
    (s.commitFrame p).status = statusWord 0 Command.encode.opcode := rfl
@[simp] theorem State.commitFrame_written (p : Packet) (s : State) :
    (s.commitFrame p).written = s.written.markReg .olen := rfl
@[simp] theorem State.commitFrame_faultMark (p : Packet) (s : State) : (s.commitFrame p).faultMark = s.faultMark := rfl
@[simp] theorem State.commitFrame_refusalMark (p : Packet) (s : State) : (s.commitFrame p).refusalMark = s.refusalMark := rfl
@[simp] theorem State.commitFrame_walk (p : Packet) (s : State) : (s.commitFrame p).walk = Walk.idle := rfl
@[simp] theorem State.commitFrame_pending (p : Packet) (s : State) : (s.commitFrame p).pending = s.pending := rfl
@[simp] theorem State.commitFrame_rdata (p : Packet) (s : State) : (s.commitFrame p).rdata = s.rdata := rfl
@[simp] theorem State.commitFrame_reads (p : Packet) (s : State) : (s.commitFrame p).reads = s.reads := rfl

/-! ### `State.returnRead` -/

@[simp] theorem State.returnRead_params (v : HostValue) (s : State) : (s.returnRead v).params = s.params := rfl
@[simp] theorem State.returnRead_pkt (v : HostValue) (s : State) : (s.returnRead v).pkt = s.pkt := rfl
@[simp] theorem State.returnRead_ibuf (v : HostValue) (s : State) : (s.returnRead v).ibuf = s.ibuf := rfl
@[simp] theorem State.returnRead_ilen (v : HostValue) (s : State) : (s.returnRead v).ilen = s.ilen := rfl
@[simp] theorem State.returnRead_obuf (v : HostValue) (s : State) : (s.returnRead v).obuf = s.obuf := rfl
@[simp] theorem State.returnRead_cap (v : HostValue) (s : State) : (s.returnRead v).cap = s.cap := rfl
@[simp] theorem State.returnRead_olen (v : HostValue) (s : State) : (s.returnRead v).olen = s.olen := rfl
@[simp] theorem State.returnRead_argbuf (v : HostValue) (s : State) : (s.returnRead v).argbuf = s.argbuf := rfl
@[simp] theorem State.returnRead_argId (v : HostValue) (s : State) : (s.returnRead v).argId = s.argId := rfl
@[simp] theorem State.returnRead_argLen (v : HostValue) (s : State) : (s.returnRead v).argLen = s.argLen := rfl
@[simp] theorem State.returnRead_status (v : HostValue) (s : State) : (s.returnRead v).status = s.status := rfl
@[simp] theorem State.returnRead_written (v : HostValue) (s : State) : (s.returnRead v).written = s.written := rfl
@[simp] theorem State.returnRead_faultMark (v : HostValue) (s : State) : (s.returnRead v).faultMark = s.faultMark := rfl
@[simp] theorem State.returnRead_refusalMark (v : HostValue) (s : State) :
    (s.returnRead v).refusalMark = s.refusalMark := rfl
@[simp] theorem State.returnRead_walk (v : HostValue) (s : State) : (s.returnRead v).walk = s.walk := rfl
@[simp] theorem State.returnRead_pending (v : HostValue) (s : State) : (s.returnRead v).pending = s.pending := rfl
@[simp] theorem State.returnRead_rdata (v : HostValue) (s : State) : (s.returnRead v).rdata = v := rfl
@[simp] theorem State.returnRead_reads (v : HostValue) (s : State) : (s.returnRead v).reads = s.reads + 1 := rfl

/-! ### `State.setReg` -/

@[simp] theorem State.setReg_params (s : State) (r : Reg) (v : Nat) : (s.setReg r v).params = s.params := by
  cases r <;> rfl
@[simp] theorem State.setReg_ibuf (s : State) (r : Reg) (v : Nat) : (s.setReg r v).ibuf = s.ibuf := by
  cases r <;> rfl
@[simp] theorem State.setReg_obuf (s : State) (r : Reg) (v : Nat) : (s.setReg r v).obuf = s.obuf := by
  cases r <;> rfl
@[simp] theorem State.setReg_argbuf (s : State) (r : Reg) (v : Nat) : (s.setReg r v).argbuf = s.argbuf := by
  cases r <;> rfl
@[simp] theorem State.setReg_written (s : State) (r : Reg) (v : Nat) : (s.setReg r v).written = s.written := by
  cases r <;> rfl
@[simp] theorem State.setReg_faultMark (s : State) (r : Reg) (v : Nat) : (s.setReg r v).faultMark = s.faultMark := by
  cases r <;> rfl
@[simp] theorem State.setReg_refusalMark (s : State) (r : Reg) (v : Nat) : (s.setReg r v).refusalMark = s.refusalMark := by
  cases r <;> rfl
@[simp] theorem State.setReg_walk (s : State) (r : Reg) (v : Nat) : (s.setReg r v).walk = s.walk := by
  cases r <;> rfl
@[simp] theorem State.setReg_pending (s : State) (r : Reg) (v : Nat) : (s.setReg r v).pending = s.pending := by
  cases r <;> rfl
@[simp] theorem State.setReg_rdata (s : State) (r : Reg) (v : Nat) : (s.setReg r v).rdata = s.rdata := by
  cases r <;> rfl
@[simp] theorem State.setReg_reads (s : State) (r : Reg) (v : Nat) : (s.setReg r v).reads = s.reads := by
  cases r <;> rfl

/-! ### `State.setBuffer` -/

@[simp] theorem State.setBuffer_params (s : State) (b : Buf) (m : Memory) : (s.setBuffer b m).params = s.params := by
  cases b <;> rfl
@[simp] theorem State.setBuffer_pkt (s : State) (b : Buf) (m : Memory) : (s.setBuffer b m).pkt = s.pkt := by
  cases b <;> rfl
@[simp] theorem State.setBuffer_ilen (s : State) (b : Buf) (m : Memory) : (s.setBuffer b m).ilen = s.ilen := by
  cases b <;> rfl
@[simp] theorem State.setBuffer_cap (s : State) (b : Buf) (m : Memory) : (s.setBuffer b m).cap = s.cap := by
  cases b <;> rfl
@[simp] theorem State.setBuffer_olen (s : State) (b : Buf) (m : Memory) : (s.setBuffer b m).olen = s.olen := by
  cases b <;> rfl
@[simp] theorem State.setBuffer_argId (s : State) (b : Buf) (m : Memory) : (s.setBuffer b m).argId = s.argId := by
  cases b <;> rfl
@[simp] theorem State.setBuffer_argLen (s : State) (b : Buf) (m : Memory) : (s.setBuffer b m).argLen = s.argLen := by
  cases b <;> rfl
@[simp] theorem State.setBuffer_status (s : State) (b : Buf) (m : Memory) : (s.setBuffer b m).status = s.status := by
  cases b <;> rfl
@[simp] theorem State.setBuffer_written (s : State) (b : Buf) (m : Memory) : (s.setBuffer b m).written = s.written := by
  cases b <;> rfl
@[simp] theorem State.setBuffer_faultMark (s : State) (b : Buf) (m : Memory) :
    (s.setBuffer b m).faultMark = s.faultMark := by
  cases b <;> rfl
@[simp] theorem State.setBuffer_refusalMark (s : State) (b : Buf) (m : Memory) :
    (s.setBuffer b m).refusalMark = s.refusalMark := by
  cases b <;> rfl
@[simp] theorem State.setBuffer_walk (s : State) (b : Buf) (m : Memory) : (s.setBuffer b m).walk = s.walk := by
  cases b <;> rfl
@[simp] theorem State.setBuffer_pending (s : State) (b : Buf) (m : Memory) : (s.setBuffer b m).pending = s.pending := by
  cases b <;> rfl
@[simp] theorem State.setBuffer_rdata (s : State) (b : Buf) (m : Memory) : (s.setBuffer b m).rdata = s.rdata := by
  cases b <;> rfl
@[simp] theorem State.setBuffer_reads (s : State) (b : Buf) (m : Memory) : (s.setBuffer b m).reads = s.reads := by
  cases b <;> rfl
@[simp] theorem State.setBuffer_buffer (s : State) (b : Buf) (m : Memory) : (s.setBuffer b m).buffer b = m := by
  cases b <;> rfl
theorem State.setBuffer_buffer_ne (s : State) (b b' : Buf) (m : Memory) (h : b' ≠ b) :
    (s.setBuffer b m).buffer b' = s.buffer b' := by
  cases b <;> cases b' <;> first | rfl | exact absurd rfl h

/-! ### `State.setSeq` -/

@[simp] theorem State.setSeq_params (s : State) (v : SeqValue) : (s.setSeq v).params = s.params := by
  cases v <;> rfl
@[simp] theorem State.setSeq_ibuf (s : State) (v : SeqValue) : (s.setSeq v).ibuf = s.ibuf := by
  cases v <;> rfl
@[simp] theorem State.setSeq_ilen (s : State) (v : SeqValue) : (s.setSeq v).ilen = s.ilen := by
  cases v <;> rfl
@[simp] theorem State.setSeq_obuf (s : State) (v : SeqValue) : (s.setSeq v).obuf = s.obuf := by
  cases v <;> rfl
@[simp] theorem State.setSeq_cap (s : State) (v : SeqValue) : (s.setSeq v).cap = s.cap := by
  cases v <;> rfl
@[simp] theorem State.setSeq_olen (s : State) (v : SeqValue) : (s.setSeq v).olen = s.olen := by
  cases v <;> rfl
@[simp] theorem State.setSeq_argbuf (s : State) (v : SeqValue) : (s.setSeq v).argbuf = s.argbuf := by
  cases v <;> rfl
@[simp] theorem State.setSeq_argId (s : State) (v : SeqValue) : (s.setSeq v).argId = s.argId := by
  cases v <;> rfl
@[simp] theorem State.setSeq_argLen (s : State) (v : SeqValue) : (s.setSeq v).argLen = s.argLen := by
  cases v <;> rfl
@[simp] theorem State.setSeq_status (s : State) (v : SeqValue) : (s.setSeq v).status = s.status := by
  cases v <;> rfl
@[simp] theorem State.setSeq_written (s : State) (v : SeqValue) : (s.setSeq v).written = s.written := by
  cases v <;> rfl
@[simp] theorem State.setSeq_faultMark (s : State) (v : SeqValue) : (s.setSeq v).faultMark = s.faultMark := by
  cases v <;> rfl
@[simp] theorem State.setSeq_refusalMark (s : State) (v : SeqValue) : (s.setSeq v).refusalMark = s.refusalMark := by
  cases v <;> rfl
@[simp] theorem State.setSeq_walk (s : State) (v : SeqValue) : (s.setSeq v).walk = s.walk := by
  cases v <;> rfl
@[simp] theorem State.setSeq_pending (s : State) (v : SeqValue) : (s.setSeq v).pending = s.pending := by
  cases v <;> rfl
@[simp] theorem State.setSeq_rdata (s : State) (v : SeqValue) : (s.setSeq v).rdata = s.rdata := by
  cases v <;> rfl
@[simp] theorem State.setSeq_reads (s : State) (v : SeqValue) : (s.setSeq v).reads = s.reads := by
  cases v <;> rfl

/-! ### `State.getReg`, `State.getSeq` after a host write -/

/-- A register holds the value stored in it, when the value fits (R46). -/
@[simp] theorem State.getReg_setReg (s : State) (r : Reg) (v : Nat) (p : Config.Params) (h : r.fits p v = true) :
    (s.setReg r v).getReg r = v := by
  cases r <;> simp_all [Reg.fits, Reg.bound, State.setReg, State.getReg, Nat.mod_eq_of_lt]

/-- Storing into one register leaves every other register alone. -/
theorem State.getReg_setReg_ne (s : State) (r r' : Reg) (v : Nat) (h : r' ≠ r) : (s.setReg r v).getReg r' = s.getReg r' := by
  cases r <;> cases r' <;> first | rfl | exact absurd rfl h

@[simp] theorem State.getSeq_setReg (s : State) (r : Reg) (v : Nat) (q : SeqName) : (s.setReg r v).getSeq q = s.getSeq q := by
  cases r <;> cases q <;> rfl

@[simp] theorem State.getSeq_setSeq (s : State) (v : SeqValue) : (s.setSeq v).getSeq v.name = v := by
  cases v <;> rfl

theorem State.getSeq_setSeq_ne (s : State) (v : SeqValue) (q : SeqName) (h : q ≠ v.name) :
    (s.setSeq v).getSeq q = s.getSeq q := by
  cases v <;> cases q <;> first | rfl | exact absurd rfl h

@[simp] theorem State.getReg_setSeq (s : State) (v : SeqValue) (r : Reg) : (s.setSeq v).getReg r = s.getReg r := by
  cases v <;> cases r <;> rfl

/-! ### `W` -/

@[simp] theorem Written.reg_markReg (w : Written) (r : Reg) : (w.markReg r).reg r = true := by
  cases r <;> rfl

theorem Written.reg_markReg_ne (w : Written) (r r' : Reg) (h : r' ≠ r) : (w.markReg r).reg r' = w.reg r' := by
  cases r <;> cases r' <;> first | rfl | exact absurd rfl h

@[simp] theorem Written.seq_markReg (w : Written) (r : Reg) (q : SeqName) : (w.markReg r).seq q = w.seq q := by
  cases r <;> cases q <;> rfl

@[simp] theorem Written.seq_markSeq (w : Written) (q : SeqName) : (w.markSeq q).seq q = true := by
  cases q <;> rfl

theorem Written.seq_markSeq_ne (w : Written) (q q' : SeqName) (h : q' ≠ q) : (w.markSeq q).seq q' = w.seq q' := by
  cases q <;> cases q' <;> first | rfl | exact absurd rfl h

@[simp] theorem Written.reg_markSeq (w : Written) (q : SeqName) (r : Reg) : (w.markSeq q).reg r = w.reg r := by
  cases q <;> cases r <;> rfl

/-- Marking an element that is already written changes nothing. -/
theorem Written.markReg_of_written (w : Written) (r : Reg) (h : w.reg r = true) : w.markReg r = w := by
  cases w
  cases r <;> simp_all [Written.reg, Written.markReg]

theorem Written.markSeq_of_written (w : Written) (q : SeqName) (h : w.seq q = true) : w.markSeq q = w := by
  cases w
  cases q <;> simp_all [Written.seq, Written.markSeq]

@[simp] theorem Written.markPkt_markPkt (w : Written) : w.markPkt.markPkt = w.markPkt := rfl

@[simp] theorem Written.seq_markPkt (w : Written) (q : SeqName) : w.markPkt.seq q = true := by
  cases q <;> rfl

@[simp] theorem Written.seq_none (q : SeqName) : Written.none.seq q = false := by
  cases q <;> rfl

theorem Written.reg_none (r : Reg) (h : r ≠ .status) : Written.none.reg r = false := by
  cases r <;> first | rfl | exact absurd rfl h

end Sys2Proof.Machine
end

