-- ==== Sys2Proof/Laws/Commands.lean ====
section
/-! SUPPORT. What each shared operation of the commands can do, said once: inputs, the three commands, the wire units, the step. -/

namespace Sys2Proof.Machine

/-! ### Inputs (R48) -/

/-- No listed input is unwritten. -/
theorem firstUnwritten_eq_none (s : State) (es : List Elt) :
    s.firstUnwritten es = none ↔ ∀ e ∈ es, s.isWritten e = true := by
  simp [State.firstUnwritten]

/-- The element a fault names is listed and unwritten. -/
theorem firstUnwritten_some (s : State) (es : List Elt) (e : Elt) (h : s.firstUnwritten es = some e) :
    e ∈ es ∧ s.isWritten e = false := by
  refine ⟨List.mem_of_find?_eq_some h, ?_⟩
  simpa using List.find?_some h

theorem withInputs_next (c : Command) (s t : State) (run : State → State) :
    withInputs c s run = .next t ↔ (∀ e ∈ c.inputs, s.isWritten e = true) ∧ t = run s := by
  unfold withInputs
  rw [← firstUnwritten_eq_none]
  split
  · next e he => simp [he]
  · next he => simp [he, eq_comm]

theorem withInputs_of_written (c : Command) (s : State) (run : State → State)
    (h : ∀ e ∈ c.inputs, s.isWritten e = true) : withInputs c s run = .next (run s) :=
  (withInputs_next c s _ run).2 ⟨h, rfl⟩

/-- DECODE's inputs are written exactly when ILEN is and its frame is, whose bytes are then `inFrame`. -/
theorem decodeInputs_written (s : State) :
    (∀ e ∈ Command.decode.inputs, s.isWritten e = true) ↔
      s.written.ilen = true ∧ s.ibuf.readRange 0 s.ilen = some s.inFrame := by
  simp [Command.inputs, decodeInputs, State.isWritten, Written.reg, State.inFrame, State.bytes, State.buffer,
    Option.isSome_iff_exists]
  intro _
  constructor
  · rintro ⟨bs, h⟩
    simp [h]
  · intro h
    exact ⟨_, h⟩

/-- The frame DECODE reads is ILEN bytes long. -/
theorem inFrame_length (s : State) (h : s.ibuf.readRange 0 s.ilen = some s.inFrame) : s.inFrame.length = s.ilen :=
  Memory.readRange_length _ _ _ _ h

/-! ### The three commands -/

/-- Everything DECODE can do with a next state: inputs written, and a commit or a raise. -/
theorem execDecode_next (s t : State) :
    execDecode s = .next t ↔
      (∀ e ∈ Command.decode.inputs, s.isWritten e = true) ∧
        ((∃ p, decodeFrame s.inFrame = .ok p ∧ t = s.commitPacket p) ∨
          ∃ e, decodeFrame s.inFrame = .error e ∧ t = s.raise .decode e) := by
  rw [execDecode, withInputs_next, runDecode]
  cases decodeFrame s.inFrame <;> simp

/-- Everything ENCODE can do with a next state. -/
theorem execEncode_next (s t : State) :
    execEncode s = .next t ↔
      (∀ e ∈ Command.encode.inputs, s.isWritten e = true) ∧
        ((encodeError s.pkt s.cap = none ∧ t = s.commitFrame s.pkt) ∨
          ∃ e, encodeError s.pkt s.cap = some e ∧ t = s.raise .encode e) := by
  rw [execEncode, withInputs_next, runEncode]
  cases encodeError s.pkt s.cap <;> simp

/-- R211: the arguments ADD_EXT rejects. -/
abbrev badArgument (s : State) : Prop :=
  s.argId.toNat < 1 ∨ s.argId.toNat > 14 ∨ s.argData.length < 1 ∨ s.argData.length > 16

/-- R212: the id is already on the packet. -/
abbrev idPresent (s : State) : Prop := ∃ e ∈ s.pkt.extensionElements, e.id.toNat = s.argId.toNat

/-- The state an append leaves (R213). -/
def State.appended (s : State) : State :=
  State.complete .addExt
    { s with
      pkt := s.pkt.append { id := s.argId.extractLsb' 0 4, data := s.argData }
      written := (s.written.markSeq .extensionElements).markReg .extBytes }

/-- Everything ADD_EXT can do with a next state. -/
theorem execAddExt_next (s t : State) :
    execAddExt s = .next t ↔
      (∀ e ∈ Command.addExt.inputs, s.isWritten e = true) ∧
        ((badArgument s ∧ t = s.raise .addExt .invalidArgument) ∨
          (¬badArgument s ∧ idPresent s ∧ t = s.complete .addExt) ∨
            (¬badArgument s ∧ ¬idPresent s ∧ t = s.appended)) := by
  rw [execAddExt, withInputs_next]
  unfold runAddExt
  by_cases hb : badArgument s
  · simp only [hb, if_true, not_true, false_and, or_false, true_and]
  · by_cases hp : idPresent s
    · simp only [hb, hp, if_false, if_true, not_false_eq_true, not_true, false_and, or_false, true_and, false_or]
    · simp only [hb, hp, if_false, not_false_eq_true, false_and, true_and, false_or]
      rfl

/-! ### Wire units -/

/-- A wire unit replaces DECODE's local state, or ends DECODE with an error; it does nothing else. -/
theorem execWire_next (i : Instr) (s : State) (h : i.port ≠ .cmd) :
    ∃ t, exec i s = .next t ∧ ((∃ w, t = s.setWalk w) ∨ ∃ e, t = s.raise .decode e) := by
  cases i <;> simp only [Instr.port, ne_eq, not_true_eq_false, reduceCtorEq, not_false_eq_true] at h <;>
    simp only [exec, execRtpByte0, execRtpByte1, execExtProfileBede, execExtPad, execExtElem, execExtTerm]
  · split
    · exact ⟨_, rfl, .inr ⟨_, rfl⟩⟩
    · exact ⟨_, rfl, .inl ⟨_, rfl⟩⟩
  · exact ⟨_, rfl, .inl ⟨_, rfl⟩⟩
  · exact ⟨_, rfl, .inl ⟨_, rfl⟩⟩
  · exact ⟨_, rfl, .inl ⟨_, rfl⟩⟩
  · split
    · exact ⟨_, rfl, .inr ⟨_, rfl⟩⟩
    · exact ⟨_, rfl, .inl ⟨_, rfl⟩⟩
  · exact ⟨_, rfl, .inl ⟨_, rfl⟩⟩

/-! ### The step -/

/-- With no DECODE in progress the step looks at the host. -/
theorem step_idle (s : State) (h : s.walk.phase = .idle) :
    step s = match fetchHost s with
      | .instr i t => exec i t
      | .outcome o => o := by
  simp [step, fetch, h] <;> rfl

/-- With a DECODE in progress the step is its next unit or part. -/
theorem step_walk (s : State) (h : s.walk.phase ≠ .idle) :
    step s = match fetchWalk s with
      | .instr i t => exec i t
      | .outcome o => o := by
  cases hp : s.walk.phase <;> simp_all [step, fetch] <;> rfl

/-- A CMD write runs the command it spells, in the state without the operation. -/
theorem step_cmd (s : State) (v : Nat) (rest : List HostOp) (h : s.walk.phase = .idle)
    (hp : s.pending = .write cmdNumber v :: rest) (hv : v < 256) :
    step s = exec (decodeCmd (BitVec.ofNat 8 v)) { s with pending := rest } := by
  rw [step_idle s h]
  simp [fetchHost, hp, hv]

end Sys2Proof.Machine
end

