-- ==== Sys2Proof/Laws/ExtBlock.lean ====
section
/-! SUPPORT. What one step of the extension iterator and one recorded element can do (43_extension_block.md). -/

namespace Sys2Proof.Machine

theorem slice_length {α : Type} (s : List α) (off n : Nat) : (slice s off n).length = min n (s.length - off) := by
  simp [slice]

theorem slice_length_le {α : Type} (s : List α) (off n : Nat) : (slice s off n).length ≤ n := by
  simp [slice]

theorem slice_length_eq {α : Type} (s : List α) (off n : Nat) (h : off + n ≤ s.length) : (slice s off n).length = n := by
  rw [slice_length]
  omega

/-- Everything recording an element can answer (R196 to R199). -/
theorem recordElement_some (body : Bytes) (i : Nat) (id lenField : Nibble) (elems : List Element) (seen : List Nibble)
    (r : Nat × List Element × List Nibble) :
    recordElement body i id lenField elems seen = some r ↔
      i + 2 + lenField.toNat ≤ body.length ∧ id ∉ seen ∧
        r = (i + 2 + lenField.toNat,
          elems ++ [{ id := id, data := slice body (i + 1) (lenField.toNat + 1) }], seen ++ [id]) := by
  unfold recordElement
  simp only [gt_iff_lt]
  split
  · simp only [reduceCtorEq, false_iff, not_and]
    omega
  · split
    · next h => simp [h]
    · next h1 h2 =>
      rw [show i + 1 + (lenField.toNat + 1) = i + 2 + lenField.toNat by omega] at h1 ⊢
      simp only [Option.some.injEq, h2, not_false_eq_true, true_and]
      constructor
      · rintro rfl
        exact ⟨by omega, rfl⟩
      · rintro ⟨-, rfl⟩
        rfl

/-- Everything one running step of the iterator can do (R192 to R199): at the end it is done; a filler advances by one; a terminator
ends it; an element is recorded, or is Malformed. -/
theorem iterStep_run (body : Bytes) (i : Nat) (elems : List Element) (seen : List Nibble) :
    (body.length ≤ i ∧ iterStep body (.run i elems seen) = .done elems) ∨
    (i < body.length ∧ ctrlClass (byteAt body i) = .pad ∧ iterStep body (.run i elems seen) = .run (i + 1) elems seen) ∨
    (i < body.length ∧ ctrlClass (byteAt body i) = .term ∧ iterStep body (.run i elems seen) = .done elems) ∨
    (i < body.length ∧ ctrlClass (byteAt body i) = .elem ∧
      iterStep body (.run i elems seen) =
        match recordElement body i (ctrlUnpack (byteAt body i)).1 (ctrlUnpack (byteAt body i)).2 elems seen with
        | none => .fail
        | some (i', elems', seen') => .run i' elems' seen') := by
  by_cases h : body.length ≤ i
  · exact .inl ⟨h, by simp [iterStep, h]⟩
  · have h' : i < body.length := by omega
    cases hc : ctrlClass (byteAt body i) with
    | pad => exact .inr (.inl ⟨h', rfl, by simp [iterStep, hc, h]⟩)
    | term => exact .inr (.inr (.inl ⟨h', rfl, by simp [iterStep, hc, h]⟩))
    | elem => exact .inr (.inr (.inr ⟨h', rfl, by simp only [iterStep, hc, ge_iff_le, h, if_false] <;> rfl⟩))

@[simp] theorem iterStep_done (body : Bytes) (elems : List Element) : iterStep body (.done elems) = .done elems := rfl

@[simp] theorem iterStep_fail (body : Bytes) : iterStep body .fail = .fail := rfl

@[simp] theorem iterRun_done (body : Bytes) (n : Nat) (elems : List Element) : iterRun body n (.done elems) = .done elems := by
  induction n with
  | zero => rfl
  | succ n ih => simpa [iterRun] using ih

@[simp] theorem iterRun_fail (body : Bytes) (n : Nat) : iterRun body n .fail = .fail := by
  induction n with
  | zero => rfl
  | succ n ih => simpa [iterRun] using ih

theorem iterRun_add (body : Bytes) (n m : Nat) (st : IterState) :
    iterRun body (n + m) st = iterRun body m (iterRun body n st) := by
  induction n generalizing st with
  | zero => simp [iterRun]
  | succ n ih => rw [Nat.succ_add, iterRun, iterRun, ih]

theorem iterRun_succ_last (body : Bytes) (n : Nat) (st : IterState) :
    iterRun body (n + 1) st = iterStep body (iterRun body n st) := by
  rw [iterRun_add body n 1]
  rfl

/-- What holds of the iterator while it runs, after `k` steps (R191, R196 to R199, R201). -/
structure IterRunning (body : Bytes) (k i : Nat) (elems : List Element) (seen : List Nibble) : Prop where
  steps_le : k ≤ i
  cursor_le : i ≤ body.length
  ids : elems.map Element.id = seen
  nodup : seen.Nodup
  valid : ∀ e ∈ elems, (1 ≤ e.id.toNat ∧ e.id.toNat ≤ 14) ∧ 1 ≤ e.data.length ∧ e.data.length ≤ 16

theorem ctrlClass_elem_id : ∀ c : Byte, ctrlClass c = .elem → 1 ≤ (ctrlUnpack c).1.toNat ∧ (ctrlUnpack c).1.toNat ≤ 14 := by
  decide +kernel

/-- A running step keeps it. -/
theorem IterRunning.step {body : Bytes} {k i i' : Nat} {elems elems' : List Element} {seen seen' : List Nibble}
    (h : IterRunning body k i elems seen) (hs : iterStep body (.run i elems seen) = .run i' elems' seen') :
    IterRunning body (k + 1) i' elems' seen' := by
  have hk := h.steps_le
  rcases iterStep_run body i elems seen with ⟨_, h2⟩ | ⟨h1, _, h2⟩ | ⟨_, _, h2⟩ | ⟨_, hc, h2⟩ <;> rw [h2] at hs
  · cases hs
  · cases hs
    exact ⟨by omega, by omega, h.ids, h.nodup, h.valid⟩
  · cases hs
  · split at hs
    · cases hs
    · next hr =>
      cases hs
      obtain ⟨hb, hn, he⟩ := (recordElement_some ..).1 hr
      cases he
      refine ⟨by omega, by omega, by simp [h.ids], ?_, fun e he => ?_⟩
      · refine List.nodup_append.2 ⟨h.nodup, by simp, ?_⟩
        rintro a ha b hb' rfl
        rw [List.mem_singleton] at hb'
        exact hn (hb' ▸ ha)
      · rcases List.mem_append.1 he with he | he
        · exact h.valid e he
        · rw [List.mem_singleton] at he
          subst he
          have hlt := (ctrlUnpack (byteAt body i)).2.isLt
          refine ⟨ctrlClass_elem_id _ hc, ?_⟩
          have hl := slice_length_eq body (i + 1) ((ctrlUnpack (byteAt body i)).2.toNat + 1) (by omega)
          simp only [hl]
          omega

/-- It holds whenever the iterator still runs. -/
theorem iterRun_running (body : Bytes) (k i : Nat) (elems : List Element) (seen : List Nibble)
    (h : iterRun body k iterStart = .run i elems seen) : IterRunning body k i elems seen := by
  induction k generalizing i elems seen with
  | zero =>
    simp only [iterRun, iterStart, IterState.run.injEq] at h
    obtain ⟨rfl, rfl, rfl⟩ := h
    exact ⟨Nat.le_refl _, Nat.zero_le _, rfl, List.nodup_nil, by simp⟩
  | succ k ih =>
    rw [iterRun_succ_last] at h
    cases hr : iterRun body k iterStart with
    | run i' elems' seen' => exact (ih _ _ _ hr).step (hr ▸ h)
    | done elems' => simp [hr] at h
    | fail => simp [hr] at h

/-- What the iterator ends with, it had while it ran. -/
theorem iterRun_done_running (body : Bytes) (k : Nat) (elems : List Element) (h : iterRun body k iterStart = .done elems) :
    ∃ k i seen, IterRunning body k i elems seen := by
  induction k with
  | zero => simp [iterRun, iterStart] at h
  | succ k ih =>
    rw [iterRun_succ_last] at h
    cases hr : iterRun body k iterStart with
    | run i' elems' seen' =>
      have hi := iterRun_running _ _ _ _ _ hr
      rw [hr] at h
      rcases iterStep_run body i' elems' seen' with ⟨_, h2⟩ | ⟨_, _, h2⟩ | ⟨_, _, h2⟩ | ⟨_, _, h2⟩ <;> rw [h2] at h
      · cases h; exact ⟨_, _, _, hi⟩
      · cases h
      · cases h; exact ⟨_, _, _, hi⟩
      · split at h <;> cases h
    | done elems' => rw [hr] at h; cases h; exact ih hr
    | fail => simp [hr] at h

/-- Ids from 1 to 14, each once, are at most 14 (R34). -/
theorem elements_length_le (elems : List Element) (h : ∀ e ∈ elems, 1 ≤ e.id.toNat ∧ e.id.toNat ≤ 14)
    (hn : (elems.map Element.id).Nodup) : elems.length ≤ 14 := by
  have hd : (elems.map fun e => e.id.toNat).Nodup := by
    simpa [List.map_map, Function.comp_def] using hn.map (f := BitVec.toNat) fun a b hab => BitVec.eq_of_toNat_eq hab
  have hs : (elems.map fun e => e.id.toNat) ⊆ List.range' 1 14 := by
    intro x hx
    obtain ⟨e, he, rfl⟩ := List.mem_map.1 hx
    have := h e he
    simp only [List.mem_range'_1]
    omega
  simpa using (List.subperm_of_subset hd hs).length_le

/-! ### The writer -/

theorem Element.wire_length (e : Element) : e.wire.length = e.wireSize := by
  simp [Element.wire, Element.wireSize, Nat.add_comm]

theorem flatMap_wire_length (elems : List Element) : (elems.flatMap Element.wire).length = elementBytes elems := by
  simp [elementBytes, List.length_flatMap, Element.wire_length]

end Sys2Proof.Machine
end

