-- ==== Sys2Proof/Laws/Decoder.lean ====
section
/-! SUPPORT. What the parts of DECODE and ENCODE answer: cuts of a frame, the CSRC list, the lengths of the parts of a frame. -/

namespace Sys2Proof.Machine

/-- The middle part of a sequence, at its offset. -/
theorem slice_of_eq {α : Type} {s a b c : List α} {n m : Nat} (h : s = a ++ (b ++ c)) (hn : n = a.length)
    (hm : m = b.length) : slice s n m = b := by
  subst h hn hm
  simp [slice]

/-- A cut of a cut. -/
theorem slice_slice {α : Type} (s : List α) (a n i m : Nat) (h : i + m ≤ n) :
    slice (slice s a n) i m = slice s (a + i) m := by
  simp only [slice, List.drop_take, List.drop_drop, List.take_take]
  congr 1
  omega

/-- S5 is Truncated exactly when the CSRC list does not fit (R136). -/
theorem readCsrcs_eq_none (B : Bytes) (cur k : Nat) : readCsrcs B cur k = none ↔ B.length < cur + 4 * k ∧ k ≠ 0 := by
  induction k generalizing cur with
  | zero => simp [readCsrcs]
  | succ k ih =>
    have h4 := ih (cur + 4)
    unfold readCsrcs
    split
    · simp only [true_iff, ne_eq, Nat.add_eq_zero_iff, one_ne_zero, and_false, not_false_eq_true, and_true]
      omega
    · cases hr : readCsrcs B (cur + 4) k with
      | none =>
        have := h4.1 hr
        simp only [true_iff, ne_eq, Nat.add_eq_zero_iff, one_ne_zero, and_false, not_false_eq_true, and_true]
        omega
      | some cs =>
        rw [hr] at h4
        simp only [reduceCtorEq, false_iff, not_and, Decidable.not_not, ne_eq] at h4 ⊢
        omega

/-- S5 reads as many entries as it is asked for. -/
theorem readCsrcs_length (B : Bytes) (cur k : Nat) (cs : List Word32) (h : readCsrcs B cur k = some cs) : cs.length = k := by
  induction k generalizing cur cs with
  | zero => cases h; rfl
  | succ k ih =>
    unfold readCsrcs at h
    split at h
    · cases h
    · split at h
      · cases h
      · next cs' hr =>
        cases h
        simp [ih _ _ hr]

/-- A length field whose body is not all there is Truncated (R140, R141). -/
theorem readExtLength_truncated (B : Bytes) (cur : Nat)
    (h : B.length < cur + 2 ∨ B.length < cur + 2 + 4 * (be16 (slice B cur 2)).toNat) :
    readExtLength B cur = .error .truncated := by
  unfold readExtLength
  split
  · rfl
  · simp only
    rw [if_pos (by omega)]

theorem readExtLength_ok (B : Bytes) (cur : Nat) (h : cur + 2 + 4 * (be16 (slice B cur 2)).toNat ≤ B.length) :
    readExtLength B cur = .ok (4 * (be16 (slice B cur 2)).toNat) := by
  unfold readExtLength
  rw [if_neg (by omega)]
  simp only
  rw [if_neg (by omega)]

/-- The payload is no longer than the frame. -/
theorem readTail_length (B : Bytes) (ps : Nat) (pflag : Bit) (pay : Bytes) (n : Byte)
    (h : readTail B ps pflag = .ok (pay, n)) : pay.length ≤ B.length := by
  unfold readTail at h
  split at h
  · simp only at h
    split at h
    · cases h
    · cases h
      have := slice_length_le B ps (B.length - ps - (byteAt B (B.length - 1)).toNat)
      omega
  · cases h
    have := slice_length_le B ps (B.length - ps)
    omega

/-! ### Lengths of the parts ENCODE writes -/

theorem tobe16_length (v : BitVec 16) : (tobe16 v).length = 2 := rfl

theorem tobe32_length (v : Word32) : (tobe32 v).length = 4 := rfl

theorem flatMap_tobe32_length (cs : List Word32) : (cs.flatMap tobe32).length = 4 * cs.length := by
  induction cs with
  | nil => rfl
  | cons c cs ih =>
    simp only [List.flatMap_cons, List.length_append, ih, tobe32_length, List.length_cons]
    omega

theorem trailer_length (n : Byte) : (trailer n).length = n.toNat := by
  unfold trailer
  split
  · next h => subst h; rfl
  · next h =>
    have : n.toNat ≠ 0 := fun h0 => h (BitVec.eq_of_toNat_eq h0)
    simp only [zeros, List.length_append, List.length_replicate, List.length_singleton]
    omega

end Sys2Proof.Machine
end

