-- ==== Sys2Proof/Laws/PerInstr.lean ====
section
/-! SUPPORT. Statements made per instruction: how many bytes each row takes on its place (the `format` column of the opcode table). -/

namespace Sys2Proof.Laws.Width

/-- The instruction takes one byte, or two where it is the 16-bit profile. -/
def Statement (i : Instr) : Prop := (encode i).length = if i.port = .profile then 2 else 1

theorem decode : Statement .decode := rfl

theorem encode : Statement .encode := rfl

theorem addExt : Statement .addExt := rfl

theorem reservedCmd (word : Byte) : Statement (.reservedCmd word) := rfl

theorem rtpByte0 (version : BitVec 2) (padding extension : Bit) (csrcCount : BitVec 4) :
    Statement (.rtpByte0 version padding extension csrcCount) := rfl

theorem rtpByte1 (marker : Bit) (payloadType : BitVec 7) : Statement (.rtpByte1 marker payloadType) := rfl

theorem extProfileBede : Statement .extProfileBede := rfl

theorem extPad (lenField : Nibble) : Statement (.extPad lenField) := rfl

theorem extElem (id lenField : Nibble) : Statement (.extElem id lenField) := rfl

theorem extTerm (low : Nibble) : Statement (.extTerm low) := rfl

end Sys2Proof.Laws.Width
end

