-- ==== Sys2Proof/Laws/Step.lean ====
section
/-! SUPPORT. Everything a step that answers a next state can have done. -/

namespace Sys2Proof.Machine

/-- The wire unit that DECODE's local state stands at: the phase says at which place of the frame (41_decoder.md R130, R202). -/
def unitAt (s : State) (i : Instr) : Prop :=
  ∃ rest,
    (s.walk.phase = .byte0 ∧ 12 ≤ s.walk.frame.length ∧ decode .byte0 s.walk.frame = .ok (i, rest)) ∨
    (s.walk.phase = .byte1 ∧ decode .byte1 (s.walk.frame.drop 1) = .ok (i, rest)) ∨
    (s.walk.phase = .profile ∧ decode .profile (s.walk.frame.drop s.walk.cur) = .ok (i, rest)) ∨
    (s.walk.phase = .body ∧ s.walk.i < s.walk.bodyLen ∧
      decode .ctrl (s.walk.frame.drop (s.walk.cur + s.walk.i)) = .ok (i, rest))

/-- What decodes at a place stands at that place. -/
theorem decode_port (p : Port) (bs rest : Bytes) (i : Instr) (h : decode p bs = .ok (i, rest)) : i.port = p := by
  have hcmd : ∀ b, (decodeCmd b).port = .cmd := fun b => by unfold decodeCmd; split_ifs <;> rfl
  have hctrl : ∀ b, (decodeCtrl b).port = .ctrl := fun b => by unfold decodeCtrl; cases ctrlClass b <;> rfl
  unfold decode at h
  split at h
  · cases h; exact hcmd _
  · next b _ =>
    by_cases hv : (unpack0 b).1 = 2
    · rw [show decodeByte0 b = .ok (.rtpByte0 (unpack0 b).1 (unpack0 b).2.1 (unpack0 b).2.2.1 (unpack0 b).2.2.2) from if_pos hv] at h
      cases h; rfl
    · rw [show decodeByte0 b = .error (.unsupportedVersion (unpack0 b).1) from if_neg hv] at h
      cases h
  · cases h; rfl
  · next b c _ =>
    by_cases hv : be16 [b, c] = 0xBEDE
    · rw [show decodeProfile (be16 [b, c]) = .ok .extProfileBede from if_pos hv] at h
      cases h; rfl
    · rw [show decodeProfile (be16 [b, c]) = .error (.unsupportedProfile (be16 [b, c])) from if_neg hv] at h
      cases h
  · cases h; exact hctrl _
  · cases h

/-- A wire unit is no command. -/
theorem unitAt_port (s : State) (i : Instr) (h : unitAt s i) : i.port ≠ .cmd := by
  obtain ⟨rest, h | h | h | h⟩ := h
  · rw [decode_port _ _ _ _ h.2.2]; decide
  · rw [decode_port _ _ _ _ h.2]; decide
  · rw [decode_port _ _ _ _ h.2]; decide
  · rw [decode_port _ _ _ _ h.2.2]; decide

/-- With a DECODE in progress a step runs the wire unit it stands at, is one of its other parts, or ends it with an error. -/
theorem step_walk_next (s t : State) (h : s.walk.phase ≠ .idle) (hs : step s = .next t) :
    (∃ i, unitAt s i ∧ exec i s = .next t) ∨ (∃ e, t = s.raise .decode e) ∨
    (s.walk.phase = .words ∧ t = walkWords s) ∨ (s.walk.phase = .extLength ∧ t = walkExtLength s) ∨
    (s.walk.phase = .body ∧ s.walk.bodyLen ≤ s.walk.i ∧ t = s.setWalk s.walk.endBody) ∨
    (s.walk.phase = .tail ∧ t = walkTail s) := by
  rw [step_walk s h] at hs
  simp only [fetchWalk] at hs
  cases hp : s.walk.phase <;> simp only [hp] at hs
  · exact absurd hp h
  · by_cases hl : s.walk.frame.length < 12
    · simp only [hl, if_true] at hs
      cases hs
      exact .inr (.inl ⟨_, rfl⟩)
    · simp only [hl, if_false, fetchUnit] at hs
      cases hd : decode .byte0 s.walk.frame with
      | ok r => simp only [hd] at hs; exact .inl ⟨r.1, ⟨r.2, .inl ⟨hp, by omega, hd⟩⟩, hs⟩
      | error e => simp only [hd] at hs; cases hs; exact .inr (.inl ⟨_, rfl⟩)
  · simp only [fetchUnit] at hs
    cases hd : decode .byte1 (s.walk.frame.drop 1) with
    | ok r => simp only [hd] at hs; exact .inl ⟨r.1, ⟨r.2, .inr (.inl ⟨hp, hd⟩)⟩, hs⟩
    | error e => simp only [hd] at hs; cases hs; exact .inr (.inl ⟨_, rfl⟩)
  · cases hs; exact .inr (.inr (.inl ⟨rfl, rfl⟩))
  · simp only [fetchUnit] at hs
    cases hd : decode .profile (s.walk.frame.drop s.walk.cur) with
    | ok r => simp only [hd] at hs; exact .inl ⟨r.1, ⟨r.2, .inr (.inr (.inl ⟨hp, hd⟩))⟩, hs⟩
    | error e => simp only [hd] at hs; cases hs; exact .inr (.inl ⟨_, rfl⟩)
  · cases hs; exact .inr (.inr (.inr (.inl ⟨rfl, rfl⟩)))
  · by_cases hl : s.walk.i ≥ s.walk.bodyLen
    · simp only [hl, if_true] at hs
      cases hs
      exact .inr (.inr (.inr (.inr (.inl ⟨rfl, hl, rfl⟩))))
    · simp only [hl, if_false, fetchUnit] at hs
      cases hd : decode .ctrl (s.walk.frame.drop (s.walk.cur + s.walk.i)) with
      | ok r => simp only [hd] at hs; exact .inl ⟨r.1, ⟨r.2, .inr (.inr (.inr ⟨hp, by omega, hd⟩))⟩, hs⟩
      | error e => simp only [hd] at hs; cases hs; exact .inr (.inl ⟨_, rfl⟩)
  · cases hs; exact .inr (.inr (.inr (.inr (.inr ⟨rfl, rfl⟩))))

/-- A host operation that is no CMD write is an access. -/
theorem step_access (s : State) (op : HostOp) (rest : List HostOp) (h : s.walk.phase = .idle) (hp : s.pending = op :: rest)
    (hop : ∀ v, op ≠ .write cmdNumber v) : step s = hostAccess op { s with pending := rest } := by
  rw [step_idle s h]
  unfold fetchHost
  rw [hp]
  cases op with
  | write n v =>
    have hn : n ≠ cmdNumber := by
      rintro rfl
      exact hop v rfl
    simp only [hn, if_false]
  | writeBytes _ _ _ => rfl
  | writeSeq _ => rfl
  | read _ => rfl
  | readBytes _ _ _ => rfl
  | readSeq _ => rfl
  | reset => rfl

/-- With no DECODE in progress a step is idle, runs a command, or is a host access. -/
theorem step_idle_next (s t : State) (h : s.walk.phase = .idle) (hs : step s = .next t) :
    (s.pending = [] ∧ t = s) ∨
    (∃ v rest, s.pending = .write cmdNumber v :: rest ∧ v < 256 ∧
      exec (decodeCmd (BitVec.ofNat 8 v)) { s with pending := rest } = .next t) ∨
    (∃ op rest, s.pending = op :: rest ∧ (∀ v, op ≠ .write cmdNumber v) ∧
      hostAccess op { s with pending := rest } = .next t) := by
  cases hp : s.pending with
  | nil =>
    simp only [step_idle s h, fetchHost, hp] at hs
    cases hs
    exact .inl ⟨rfl, rfl⟩
  | cons op rest =>
    by_cases hop : ∃ v, op = .write cmdNumber v
    · obtain ⟨v, rfl⟩ := hop
      by_cases hv : v < 256
      · rw [step_cmd s v rest h hp hv] at hs
        exact .inr (.inl ⟨v, rest, rfl, hv, hs⟩)
      · simp only [step_idle s h, fetchHost, hp, if_true, hv, if_false] at hs
        cases hs
    · have hop' : ∀ v, op ≠ .write cmdNumber v := fun v hv => hop ⟨v, hv⟩
      rw [step_access s op rest h hp hop'] at hs
      exact .inr (.inr ⟨op, rest, rfl, hop', hs⟩)

/-- Everything a host access can do with a next state. -/
theorem hostAccess_next (op : HostOp) (s t : State) (h : hostAccess op s = .next t) :
    (∃ n v r, op = .write n v ∧ regAt n = some r ∧ r.readOnly = false ∧ r.fits s.params v = true ∧
      t = { s.setReg r v with written := s.written.markReg r }) ∨
    (∃ b off bs, op = .writeBytes b off bs ∧ b ≠ .obuf ∧ off + bs.length ≤ bufCapacity s.params b ∧
      t = s.setBuffer b ((s.buffer b).writeRange off bs)) ∨
    (∃ v, op = .writeSeq v ∧ v.fits s.params = true ∧ t = { s.setSeq v with written := s.written.markSeq v.name }) ∨
    (∃ v, t = s.returnRead v) ∨
    (op = .reset ∧ t = { State.resetWith s.params with pending := s.pending, reads := s.reads }) := by
  cases op with
  | write n v =>
    simp only [hostAccess] at h
    split at h
    · cases h
    · next r hr =>
      simp only [hostWrite] at h
      split at h
      · cases h
      · next hro =>
        split at h
        · next hf => cases h; exact .inl ⟨n, v, r, rfl, hr, by simpa using hro, hf, rfl⟩
        · cases h
  | writeBytes b off bs =>
    simp only [hostAccess, hostWriteBytes] at h
    split at h
    · cases h
    · next hb =>
      split at h
      · next hl => cases h; exact .inr (.inl ⟨b, off, bs, rfl, hb, hl, rfl⟩)
      · cases h
  | writeSeq v =>
    simp only [hostAccess, hostWriteSeq] at h
    split at h
    · next hf => cases h; exact .inr (.inr (.inl ⟨v, rfl, hf, rfl⟩))
    · cases h
  | read n =>
    simp only [hostAccess, hostRead] at h
    split at h
    · cases h; exact .inr (.inr (.inr (.inl ⟨_, rfl⟩)))
    · split at h
      · cases h
      · cases h; exact .inr (.inr (.inr (.inl ⟨_, rfl⟩)))
  | readBytes b off n =>
    simp only [hostAccess, hostReadBytes] at h
    split at h
    · cases h; exact .inr (.inr (.inr (.inl ⟨_, rfl⟩)))
    · cases h
  | readSeq q => cases h; exact .inr (.inr (.inr (.inl ⟨_, rfl⟩)))
  | reset => cases h; exact .inr (.inr (.inr (.inr ⟨rfl, rfl⟩)))

end Sys2Proof.Machine
end

