-- ==== Sys2Proof/Tests/Slice0.lean ====
section
/-! SUPPORT. Own tests: ill-formed terms, decoding of words written out from spec/opcode_table.json, small steps checked against the
vectors of 95_test_vectors.md, and a witness for the hypotheses of each statement. -/

namespace Sys2Proof.Tests

open Sys2Proof.Machine Sys2Proof.Obl

/- One theorem at a time: checked all at once, these ask for more threads than the check allows. -/
set_option Elab.async false

/-! ### Helpers -/

/-- The next state, if there is one. -/
def nextOf : Host.Outcome State Fault Refusal → Option State
  | .next t => some t
  | .fault _ => none
  | .refused _ => none

theorem exists_next (o : Host.Outcome State Fault Refusal) (P : State → Bool) (h : (nextOf o).any P = true) :
    ∃ t, o = .next t ∧ P t = true := by
  cases o with
  | next t => exact ⟨t, rfl, h⟩
  | fault _ => cases h
  | refused _ => cases h

/-- A machine whose host has given DECODE a frame. -/
def given (B : Bytes) : State :=
  { State.reset with ibuf := Memory.writeRange [] 0 B, ilen := B.length, written := { Written.none with ilen := true } }

/-- A machine with a packet written, and a capacity. -/
def holding (p : Packet) (cap : Nat) : State :=
  { State.reset with pkt := p, cap := cap, written := { Written.none.markPkt with cap := true } }

/-- A machine with ADD_EXT's arguments written, on a packet with these elements. -/
def adding (es : List Element) (id : Byte) (d : Bytes) : State :=
  { State.reset with
    pkt := { Packet.zero with extensionElements := es, extBytes := elementBytes es }
    argbuf := Memory.writeRange [] 0 d, argId := id, argLen := d.length
    written := { Written.none.markPkt with argId := true, argLen := true } }

/-- A machine whose host does this next. -/
def hosted (ops : List HostOp) : State := { State.reset with pending := ops }

/-- A DECODE in progress. -/
def walking (w : Walk) : State := { State.reset with walk := w }

/-- 95_test_vectors.md section 1.1. -/
def frame0 : Bytes := [0x80, 0x60, 0x00, 0x01, 0x00, 0x00, 0x00, 0x0A, 0x00, 0x00, 0x00, 0x01]

/-- A frame with one CSRC entry, two elements, a payload and padding (section 3.3.3). -/
def frameFull : Bytes :=
  [0xB1, 0xE0, 0x00, 0x07, 0x00, 0x00, 0x00, 0x46, 0x00, 0x00, 0x00, 0x09, 0x01, 0x02, 0x03, 0x04] ++
  [0xBE, 0xDE, 0x00, 0x02, 0x10, 0xAA, 0x21, 0xBB, 0xCC, 0x00, 0x00, 0x00] ++
  [0x61, 0x62, 0x63, 0x00, 0x00, 0x00, 0x04]

/-- Frame byte 0 of choice before the rest of `frame0`, and bytes after it. -/
def framed (b0 : Byte) (more : Bytes) : Bytes := b0 :: frame0.tail ++ more

/-- Section 2.d. -/
def packetD : Packet :=
  { version := 2, padding := 0, hasExtension := 1, csrcCount := 0, marker := 0, payloadType := 0x61, sequenceNumber := 3,
    timestamp := 0x1E, ssrc := 2, extensionProfile := 0xBEDE, csrcList := []
    extensionElements := [⟨1, [0xAA]⟩, ⟨2, [0xBB, 0xCC]⟩, ⟨3, [0xDD, 0xEE, 0xFF, 0x11]⟩], paddingSize := 0,
    payload := [0x99], extBytes := 10 }

/-- Section 2.d, OBUF. -/
def frameD : Bytes :=
  [0x90, 0x61, 0x00, 0x03, 0x00, 0x00, 0x00, 0x1E, 0x00, 0x00, 0x00, 0x02, 0xBE, 0xDE, 0x00, 0x03, 0x10, 0xAA] ++
  [0x21, 0xBB, 0xCC, 0x33, 0xDD, 0xEE, 0xFF, 0x11, 0x00, 0x00, 0x99]

/-- The largest canonical packet without payload (30_encoding.md R91). -/
def packetMax : Packet :=
  { packetD with
    padding := 1, csrcCount := 15, csrcList := List.replicate 15 7, paddingSize := 255, payload := [], extBytes := 238
    extensionElements := (List.range 14).map fun k => ⟨BitVec.ofNat 4 (k + 1), List.replicate 16 3⟩ }

/-! ### WellFormed refuses ill-formed terms -/

theorem smoke_reserved_decode_refused : (Instr.reservedCmd 0x01).wellFormed = false := by decide
theorem smoke_reserved_encode_refused : (Instr.reservedCmd 0x02).wellFormed = false := by decide
theorem smoke_reserved_addext_refused : (Instr.reservedCmd 0x03).wellFormed = false := by decide
theorem smoke_version_refused : ∀ v : BitVec 2, v ≠ 2 → (Instr.rtpByte0 v 0 0 0).wellFormed = false := by decide
theorem smoke_element_id_pad_refused : (Instr.extElem 0 3).wellFormed = false := by decide
theorem smoke_element_id_term_refused : (Instr.extElem 15 3).wellFormed = false := by decide

/-! ### Words written out from the opcode table's encodings -/

theorem test_word_decode : decode .cmd [0b00000001] = .ok (.decode, []) := by decide
theorem test_word_encode : decode .cmd [0b00000010] = .ok (.encode, []) := by decide
theorem test_word_addext : decode .cmd [0b00000011] = .ok (.addExt, []) := by decide
theorem test_word_reserved : decode .cmd [0b00000000] = .ok (.reservedCmd 0, []) := by decide
theorem test_word_byte0 : decode .byte0 [0b10100011, 9] = .ok (.rtpByte0 2 1 0 3, [9]) := by decide
theorem test_word_byte0_versions :
    [decode .byte0 [0b00100011], decode .byte0 [0b01100011], decode .byte0 [0b11100011]] =
      [.error (.unsupportedVersion 0), .error (.unsupportedVersion 1), .error (.unsupportedVersion 3)] := by decide
theorem test_word_byte1 : decode .byte1 [0b11100000] = .ok (.rtpByte1 1 0x60, []) := by decide
theorem test_word_profile : decode .profile [0b10111110, 0b11011110] = .ok (.extProfileBede, []) := by decide
theorem test_word_profile_swapped : decode .profile [0xDE, 0xBE] = .error (.unsupportedProfile 0xDEBE) := by decide
theorem test_word_pad : decode .ctrl [0b00000101] = .ok (.extPad 5, []) := by decide
theorem test_word_elem : decode .ctrl [0b11100011] = .ok (.extElem 14 3, []) := by decide
theorem test_word_term : decode .ctrl [0b11111111] = .ok (.extTerm 15, []) := by decide
theorem test_word_missing : decode .profile [0xBE] = .error .empty := by decide
theorem test_encode_words :
    [encode .decode, encode (.rtpByte0 2 1 1 3), encode (.rtpByte1 1 0x60), encode .extProfileBede, encode (.extElem 2 1),
      encode (.extTerm 0), encode (.extPad 0)] =
    [[0x01], [0xB3], [0xE0], [0xBE, 0xDE], [0x21], [0xF0], [0x00]] := by decide

theorem test_table_words :
    [decodeTableWord 8 0x01, decodeTableWord 8 0x02, decodeTableWord 8 0x03, decodeTableWord 8 0x80,
      decodeTableWord 16 0xBEDE, decodeTableWord 8 0x00, decodeTableWord 8 0x10, decodeTableWord 8 0xF0] =
    [some .decode, some .encode, some .addExt, some (.rtpByte0 2 0 0 0), some .extProfileBede, some (.extPad 0),
      some (.extElem 1 0), some (.extTerm 0)] := by decide +kernel
theorem test_table_word_unknown : decodeTableWord 16 0x1234 = none := by decide +kernel

/-- After reset a placed DECODE is run, and faults on ILEN (10_state.md R48). -/
theorem test_fetch_decode : step (State.reset.withFetchWord 8 0x01) = .fault (.unwritten (.reg .ilen)) := by rfl
theorem test_fetch_encode : step (State.reset.withFetchWord 8 0x02) = .fault (.unwritten (.reg .cap)) := by rfl
theorem test_fetch_addext : step (State.reset.withFetchWord 8 0x03) = .fault (.unwritten (.reg .argId)) := by rfl

/-- 95_test_vectors.md section 3.7: DECODE with ILEN written and a byte of its frame unwritten. -/
theorem test_decode_partly_unwritten :
    exec .decode { State.reset with ilen := 2, ibuf := [(0, 0x80)], written := { Written.none with ilen := true } } =
      .fault (.unwritten (.buf .ibuf)) := by rfl

/-- 95_test_vectors.md, the program that ends its section 4: ENCODE with CAP written and PKT not, the fault names a PKT element. -/
theorem test_encode_pkt_unwritten :
    exec .encode { State.reset with cap := 64, written := { Written.none with cap := true } } =
      .fault (.unwritten (.reg .version)) := by rfl

theorem test_fetch_byte0 :
    (nextOf (step (State.reset.withFetchWord 8 0xB3))).map (fun t => (t.walk.phase, t.walk.draft.csrcCount)) =
      some (.byte1, 3) := by decide +kernel
theorem test_fetch_profile :
    (nextOf (step (State.reset.withFetchWord 16 0xBEDE))).map (fun t => (t.walk.phase, t.walk.draft.extensionProfile)) =
      some (.extLength, 0xBEDE) := by decide +kernel
theorem test_fetch_elem :
    (nextOf (step (State.reset.withFetchWord 8 0x51))).map (fun t => (t.walk.i, t.walk.draft.extensionElements)) =
      some (3, [⟨5, [0, 0]⟩]) := by decide +kernel

/-! ### One step, against the vectors of 95_test_vectors.md -/

/-- Section 3.3.3, the whole frame. -/
theorem test_decode_full :
    (nextOf (exec .decode (given frameFull))).map (fun t =>
      (t.status, t.pkt.csrcList, t.pkt.extensionElements, t.pkt.payload, t.pkt.paddingSize)) =
    some (0x10, [0x01020304], [⟨1, [0xAA]⟩, ⟨2, [0xBB, 0xCC]⟩], [0x61, 0x62, 0x63], 4) := by decide +kernel

/-- Section 1.6: a repeated id is Malformed, and PKT is unchanged. -/
theorem test_decode_repeated_id :
    (nextOf (exec .decode (given (framed 0x90 [0xBE, 0xDE, 0, 1, 0x10, 0xAA, 0x10, 0xBB])))).map
      (fun t => (t.status, t.pkt, t.written)) =
    some (0x14, Packet.zero, { Written.none with ilen := true }) := by decide +kernel

/-- Section 2.d. -/
theorem test_encode_d :
    (nextOf (exec .encode (holding packetD 29))).map (fun t => (t.status, t.olen, t.obuf.readRange 0 29)) =
    some (0x20, 29, some frameD) := by decide +kernel

/-- Section 2.d with CAP one less. -/
theorem test_encode_too_small :
    (nextOf (exec .encode (holding packetD 28))).map (fun t => (t.status, t.olen, t.obuf)) =
    some (0x29, 0, []) := by decide +kernel

/-- Section 1.6, first call. -/
theorem test_addext_appends :
    (nextOf (exec .addExt (adding [] 3 [0xAA, 0xBB]))).map
      (fun t => (t.status, t.pkt.extensionElements, t.pkt.extBytes)) =
    some (0x30, [⟨3, [0xAA, 0xBB]⟩], 3) := by decide +kernel

/-- 44_extension_registry.md R211: id 19 is out of range, though its low four bits are an id. -/
theorem test_addext_wide_id :
    (nextOf (exec .addExt (adding [⟨3, [1]⟩] 19 [0xAA]))).map (fun t => (t.status, t.pkt.extBytes)) =
    some (0x38, 2) := by decide +kernel

theorem test_reserved_refused : exec (.reservedCmd 0xFF) State.reset = .refused (.reservedCommand 0xFF) := by rfl

/-- Section 1.2: version 1, in the unit-stepped view. -/
theorem test_byte0_version :
    (nextOf (step (walking (Walk.start (framed 0x40 []))))).map (fun t => (t.status, t.walk)) =
    some (0x11, Walk.idle) := by decide +kernel

theorem test_byte1_marker :
    (nextOf (exec (.rtpByte1 1 0x7F) State.reset)).map (fun t => (t.walk.draft.marker, t.walk.draft.payloadType)) =
    some (1, 0x7F) := by decide +kernel

/-- Section 1.3: the wrong profile, in the unit-stepped view. -/
theorem test_profile_wrong :
    (nextOf (step (walking { Walk.idle with phase := .profile, frame := framed 0x90 [0x10, 0], cur := 12 }))).map
      (fun t => t.status) = some 0x13 := by decide +kernel

/-- 43_extension_block.md R194: the low bits of a filler are ignored. -/
theorem test_pad_one_byte : (nextOf (exec (.extPad 15) State.reset)).map (fun t => t.walk.i) = some 1 := by decide +kernel

/-- Section 3.2: `10 AA 00 2F` runs past the body at its last byte. -/
theorem test_elem_past_body :
    (nextOf (exec (.extElem 2 15)
      (walking { Walk.idle with phase := .body, frame := [0x10, 0xAA, 0, 0x2F], bodyLen := 4, i := 3 }))).map
      (fun t => t.status) = some 0x14 := by decide +kernel

/-- 43_extension_block.md R195, 41_decoder.md R143: the cursor is past the whole body. -/
theorem test_term_skips_body :
    (nextOf (exec (.extTerm 0) (walking { Walk.idle with phase := .body, frame := frameFull, cur := 20, bodyLen := 8 }))).map
      (fun t => (t.walk.phase, t.walk.cur)) = some (.tail, 28) := by decide +kernel

/-- Section 3.2, step-function trace. -/
theorem test_iterator_trace :
    iterRun [0x00, 0x10, 0xAA, 0x21, 0xBB, 0xCC, 0xF0, 0x99] 4 iterStart =
      .done [⟨1, [0xAA]⟩, ⟨2, [0xBB, 0xCC]⟩] := by decide +kernel

/-! ### Witnesses: the hypotheses of each statement can be met, clause by clause -/

theorem witness_PackersInvertUnpackers :
    ([1, 2] : Bytes).length = 2 ∧ ([1, 2, 3, 4] : Bytes).length = 4 ∧ 1 ≤ 1 ∧ 1 ≤ 16 ∧ 16 ≤ 16 := by decide

theorem witness_InstrDecodeOfEncode :
    ∀ i ∈ [Instr.decode, .encode, .addExt, .reservedCmd 0, .reservedCmd 0xFF, .rtpByte0 2 1 1 15, .rtpByte1 1 0x7F,
      .extProfileBede, .extPad 15, .extElem 1 0, .extElem 14 15, .extTerm 15], i.wellFormed = true := by decide

theorem witness_InstrEncodeOfDecode :
    decode .cmd [4, 5] = .ok (.reservedCmd 4, [5]) ∧ decode .byte0 [0xB3] = .ok (.rtpByte0 2 1 1 3, []) ∧
    decode .byte1 [0xFF] = .ok (.rtpByte1 1 0x7F, []) ∧ decode .profile [0xBE, 0xDE] = .ok (.extProfileBede, []) ∧
    decode .ctrl [0xEF] = .ok (.extElem 14 15, []) := by decide

theorem witness_CommandWordTable :
    Next (hosted [.write 0x00 (0xFF : Byte).toNat]) (.write 0x00 (0xFF : Byte).toNat) [] := by decide

theorem witness_StepRunsDecodedInstruction :
    (Next (hosted [.write 0x00 (0x01 : Byte).toNat]) (.write 0x00 (0x01 : Byte).toNat) [] ∧
      decode .cmd [0x01] = .ok (.decode, [])) ∧
    (let s := walking (Walk.start frame0);
      s.walk.phase = .byte0 ∧ 12 ≤ s.walk.frame.length ∧
        decode .byte0 s.walk.frame = .ok (.rtpByte0 2 0 0 0, frame0.tail)) ∧
    (let s := walking { Walk.start frame0 with phase := .byte1 };
      s.walk.phase = .byte1 ∧ decode .byte1 (s.walk.frame.drop 1) = .ok (.rtpByte1 0 0x60, frame0.drop 2)) ∧
    (let s := walking { Walk.start frameFull with phase := .profile, cur := 16 };
      s.walk.phase = .profile ∧
        decode .profile (s.walk.frame.drop s.walk.cur) = .ok (.extProfileBede, frameFull.drop 18)) ∧
    (let s := walking { Walk.start frameFull with phase := .body, cur := 20, bodyLen := 8, i := 7 };
      s.walk.phase = .body ∧ s.walk.i < s.walk.bodyLen ∧
        decode .ctrl (s.walk.frame.drop (s.walk.cur + s.walk.i)) = .ok (.extPad 0, frameFull.drop 28)) := by
  dsimp only
  decide +kernel

theorem witness_PlacedWordIsRun :
    decodeTableWord 8 0x03 = some .addExt ∧ decodeTableWord 8 0xBF = some (.rtpByte0 2 1 1 15) ∧
    decodeTableWord 8 0xFF = some (.extTerm 15) ∧ decodeTableWord 16 0xBEDE = some .extProfileBede := by decide +kernel

theorem witness_IdleKeepsState : State.reset.walk.phase = .idle ∧ State.reset.pending = [] := by decide

theorem witness_ResetOperation : Next { given frame0 with pending := [.reset] } .reset [] := by decide

theorem witness_UnwrittenInputFaults :
    State.reset.written.ilen = false ∧ State.reset.written.cap = false ∧ State.reset.written.argId = false := by decide

theorem witness_ReservedCommandRefused :
    (Next (hosted [.write 0x00 (0x00 : Byte).toNat]) (.write 0x00 (0x00 : Byte).toNat) [] ∧
      (0x00 : Byte) ≠ 0x01 ∧ (0x00 : Byte) ≠ 0x02 ∧ (0x00 : Byte) ≠ 0x03) ∧
    (Next (hosted [.write 0x00 (0x04 : Byte).toNat]) (.write 0x00 (0x04 : Byte).toNat) [] ∧
      (0x04 : Byte) ≠ 0x01 ∧ (0x04 : Byte) ≠ 0x02 ∧ (0x04 : Byte) ≠ 0x03) ∧
    ({ State.reset with refusalMark := true } : State).refusalMark = true ∧
    (∀ rest, ¬Next { State.reset with refusalMark := true } .reset rest) :=
  ⟨by decide, by decide, rfl, by simp [Next, State.reset, State.resetWith]⟩

theorem witness_MarksAreSticky :
    step (hosted [.write 0x00 1]) = .fault (.unwritten (.reg .ilen)) ∧
    step (hosted [.write 0x00 4]) = .refused (.reservedCommand 4) ∧
    (∀ rest, ¬Next { State.reset with faultMark := true, refusalMark := true } .reset rest) :=
  ⟨rfl, rfl, by simp [Next, State.reset, State.resetWith]⟩

theorem witness_IteratorStepCases :
    ([0x00] : Bytes).length ≤ 1 ∧
    (0 < ([0x0F] : Bytes).length ∧ ctrlUnpack (byteAt [0x0F] 0) = (0, 15)) ∧
    (0 < ([0xF0] : Bytes).length ∧ ctrlUnpack (byteAt [0xF0] 0) = (15, 0)) ∧
    (0 < ([0x11, 0] : Bytes).length ∧ ctrlUnpack (byteAt [0x11, 0] 0) = (1, 1) ∧
      ([0x11, 0] : Bytes).length < 0 + 1 + ((1 : Nibble).toNat + 1)) ∧
    (0 < ([0xE0, 0] : Bytes).length ∧ ctrlUnpack (byteAt [0xE0, 0] 0) = (14, 0) ∧ (14 : Nibble) ∈ [(14 : Nibble)]) ∧
    (0 < ([0xE0, 0] : Bytes).length ∧ 0 + 1 + ((0 : Nibble).toNat + 1) ≤ ([0xE0, 0] : Bytes).length ∧
      (14 : Nibble) ∉ [(1 : Nibble)]) := by decide +kernel

theorem witness_IteratorEndsInBounds :
    iterRun [0x10, 0xAA, 0x00] 2 iterStart = .run 3 [⟨1, [0xAA]⟩] [1] := by decide +kernel

theorem witness_ParsedElementsAreValid :
    parseBlock [0x10, 0xAA, 0xE0, 0x01, 0xF0, 0x77] = some [⟨1, [0xAA]⟩, ⟨14, [0x01]⟩] := by decide +kernel

theorem witness_WrittenBlockShape :
    1 ≤ packetMax.extensionElements.length ∧ packetMax.extensionElements.length ≤ 14 ∧
    ∀ e ∈ packetMax.extensionElements, 1 ≤ e.data.length ∧ e.data.length ≤ 16 := by decide +kernel

theorem witness_ParseOfWrittenBlock :
    1 ≤ packetMax.extensionElements.length ∧ packetMax.extensionElements.length ≤ 14 ∧
    (∀ e ∈ packetMax.extensionElements, 1 ≤ e.id.toNat ∧ e.id.toNat ≤ 14) ∧
    (packetMax.extensionElements.map Element.id).Nodup ∧
    (∀ e ∈ packetMax.extensionElements, 1 ≤ e.data.length ∧ e.data.length ≤ 16) := by decide +kernel

/-- One frame for each of the nine errors, cut or broken at the boundary. -/
theorem witness_DecodeErrorPrecedence :
    (let B := frame0.take 11; HoldsFrame (given B) B ∧ B.length < 12) ∧
    (let B := framed 0xC0 []; HoldsFrame (given B) B ∧ 12 ≤ B.length ∧ ver B ≠ 2) ∧
    (let B := framed 0x81 [1, 2, 3]; HoldsFrame (given B) B ∧ PastVersion B ∧ B.length < extStart B) ∧
    (let B := framed 0x90 [0xBE]; HoldsFrame (given B) B ∧ PastCsrcs B ∧ extFlag B = 1 ∧ B.length < extStart B + 2) ∧
    (let B := framed 0x90 [0xBE, 0xDF];
      HoldsFrame (given B) B ∧ PastCsrcs B ∧ extFlag B = 1 ∧ extStart B + 2 ≤ B.length ∧
        be16 (slice B (extStart B) 2) ≠ 0xBEDE) ∧
    (let B := framed 0x90 [0xBE, 0xDE, 0]; HoldsFrame (given B) B ∧ PastProfile B ∧ B.length < extStart B + 4) ∧
    (let B := framed 0x90 [0xBE, 0xDE, 0, 1, 0x10, 0xAA, 0];
      HoldsFrame (given B) B ∧ PastProfile B ∧ extStart B + 4 ≤ B.length ∧ B.length < extStart B + 4 + 4 * extL B) ∧
    (let B := framed 0x90 [0xBE, 0xDE, 0, 1, 0x10, 0xAA, 0x10, 0xBB];
      HoldsFrame (given B) B ∧ PastBodyLength B ∧ parseBlock (slice B (extStart B + 4) (4 * extL B)) = none) ∧
    (let B := framed 0xA0 [0xAB, 3];
      HoldsFrame (given B) B ∧ PastExtension B 12 ∧ padFlag B = 1 ∧
        (byteAt B (B.length - 1) = 0 ∨ B.length - 12 < (byteAt B (B.length - 1)).toNat)) := by
  dsimp only
  refine ⟨?_, ?_, ?_, ?_, ?_, ?_, ?_, ?_, ?_⟩ <;> decide +kernel

/-- With extension and padding: `frameFull`. -/
theorem witness_DecodeCompletes_full :
    ([0x01020304] : List Word32).length = (1 : BitVec 4).toNat ∧
    (∃ (L : BitVec 16) (body : Bytes), body.length = 4 * L.toNat ∧
      frameFull.extract 16 28 = [0xBE, 0xDE] ++ tobe16 L ++ body ∧
      parseBlock body = some [⟨1, [0xAA]⟩, ⟨2, [0xBB, 0xCC]⟩]) ∧
    ((4 : Byte) ≠ 0 ∧ ∃ filler : Bytes, filler.length = (4 : Byte).toNat - 1 ∧ frameFull.drop 31 = filler ++ [4]) ∧
    HoldsFrame (given frameFull)
      ([pack0 2 1 1 1, pack1 1 0x60] ++ tobe16 7 ++ tobe32 0x46 ++ tobe32 9 ++
        ([0x01020304] : List Word32).flatMap tobe32 ++ frameFull.extract 16 28 ++ [0x61, 0x62, 0x63] ++ frameFull.drop 31) :=
  ⟨by decide, ⟨2, [0x10, 0xAA, 0x21, 0xBB, 0xCC, 0, 0, 0], by decide +kernel⟩,
    ⟨by decide, [0, 0, 0], by decide +kernel⟩, by decide +kernel⟩

/-- With neither: `frame0`. -/
theorem witness_DecodeCompletes_plain :
    ([] : List Word32).length = (0 : BitVec 4).toNat ∧
    HoldsFrame (given frame0)
      ([pack0 2 0 0 0, pack1 0 0x60] ++ tobe16 1 ++ tobe32 10 ++ tobe32 1 ++ ([] : List Word32).flatMap tobe32 ++ [] ++ [] ++
        []) := by decide +kernel

theorem witness_DecodeOutcomes : HoldsFrame (given []) [] ∧ HoldsFrame (given frameFull) frameFull := by decide +kernel

theorem witness_DecodedRecordIsValid : ∃ t, exec .decode (given frameFull) = .next t ∧ (t.status == 0x10) = true :=
  exists_next _ _ (by decide +kernel)

theorem witness_DecodeReadsOnlyItsFrame :
    (∀ k < (given frame0).ilen, (Memory.writeRange [] 0 (frame0 ++ [7])).read k = (given frame0).ibuf.read k) ∧
    ∃ t, exec .decode (given frame0) = .next t ∧ (fun _ => true) t = true :=
  ⟨by decide +kernel, exists_next _ _ (by decide +kernel)⟩

theorem witness_DecodeFrame :
    (∃ t, exec .decode (given frame0) = .next t ∧ (t.status == 0x10) = true) ∧
    ∃ t, exec .decode (given []) = .next t ∧ (t.status != 0x10) = true :=
  ⟨exists_next _ _ (by decide +kernel), exists_next _ _ (by decide +kernel)⟩

theorem witness_DecodeSourceExample : HoldsFrame (given frame0) frame0 := by decide +kernel

theorem witness_DecodeOfCutFrame :
    (∃ p, decodeFrame frameFull = .ok p) ∧ HoldsFrame (given (frameFull.take 34)) (frameFull.take 34) :=
  ⟨⟨_, rfl⟩, by decide +kernel⟩

theorem witness_EncodeErrorOrder :
    (let s := holding { packetD with csrcList := List.replicate 16 0 } 99;
      EncodeReady s ∧ 15 < s.pkt.csrcList.length) ∧
    (let s := holding { packetD with extensionElements := List.replicate 15 ⟨1, [1]⟩ } 99;
      EncodeReady s ∧ s.pkt.csrcList.length ≤ 15 ∧ 14 < s.pkt.extensionElements.length) ∧
    (let s := holding { packetD with extensionElements := [⟨1, List.replicate 17 0⟩] } 99;
      EncodeReady s ∧ s.pkt.csrcList.length ≤ 15 ∧ s.pkt.extensionElements.length ≤ 14 ∧ ¬LengthsOk s.pkt) ∧
    (let s := holding { packetD with padding := 1 } 99;
      EncodeReady s ∧ s.pkt.csrcList.length ≤ 15 ∧ s.pkt.extensionElements.length ≤ 14 ∧ LengthsOk s.pkt ∧
        ¬Consistent s.pkt) ∧
    (let s := holding packetD 28; EncodeReady s ∧ PassesV4 s.pkt ∧ s.cap < frameLength s.pkt) := by
  dsimp only
  refine ⟨?_, ?_, ?_, ?_, ?_⟩ <;> decide +kernel

theorem witness_EncodeCompletes :
    let s := holding packetD 29;
    EncodeReady s ∧ PassesV4 s.pkt ∧ frameLength s.pkt ≤ s.cap := by
  dsimp only
  decide +kernel

theorem witness_EncodedFrameLayout :
    14 < packetMax.csrcList.length ∧ packetMax.extensionElements ≠ [] ∧ 0 < packetMax.paddingSize.toNat := by decide +kernel

/-- R91's bound is reached. -/
theorem witness_CanonicalFrameLength : packetMax.canonical ∧ frameLength packetMax = 571 := by decide +kernel

theorem witness_EncodeFrame :
    (∃ t, exec .encode (holding packetD 29) = .next t ∧ (t.status == 0x20) = true) ∧
    ∃ t, exec .encode (holding packetD 28) = .next t ∧ (t.status != 0x20) = true :=
  ⟨exists_next _ _ (by decide +kernel), exists_next _ _ (by decide +kernel)⟩

theorem witness_EncodeIgnoresDerivedFields :
    ∃ t, exec .encode (holding packetD 29) = .next t ∧ (fun _ => true) t = true := exists_next _ _ (by decide +kernel)

theorem witness_EncodeThenDecode :
    (let s := holding packetD 29; EncodeReady s ∧ s.pkt.canonical ∧ frameLength s.pkt ≤ s.cap) ∧
    HoldsFrame (given frameD) frameD := by
  dsimp only
  decide +kernel

theorem witness_AddExtAppends :
    (let s := adding [⟨1, [1]⟩] 14 (List.replicate 16 9);
      HoldsArgs s (List.replicate 16 9) ∧ s.argId.toNat = (14 : Nibble).toNat ∧
        ∀ e ∈ s.pkt.extensionElements, e.id ≠ (14 : Nibble)) := by
  dsimp only
  decide +kernel

theorem witness_AddExtDuplicateIsNoOp :
    let s := adding [⟨1, [1]⟩] 1 [9];
    HoldsArgs s [9] ∧ (⟨1, [1]⟩ : Element) ∈ s.pkt.extensionElements ∧ s.argId.toNat = (1 : Nibble).toNat ∧
      1 ≤ s.argId.toNat ∧ s.argId.toNat ≤ 14 ∧ HoldsArgs (adding [⟨1, [1]⟩] 1 []) [] ∧
      HoldsArgs (adding [⟨1, [1]⟩] 1 (List.replicate 17 0)) (List.replicate 17 0) := by
  dsimp only
  decide +kernel

theorem witness_AddExtInvalidArgument :
    (HoldsArgs (adding [] 0 [9]) [9] ∧ (adding [] 0 [9]).argId = 0) ∧
    (HoldsArgs (adding [] 15 [9]) [9] ∧ 14 < (adding [] 15 [9]).argId.toNat) ∧
    HoldsArgs (adding [] 1 []) [] ∧
    HoldsArgs (adding [] 1 (List.replicate 17 0)) (List.replicate 17 0) := by decide +kernel

theorem witness_AddExtFrame :
    (∃ t, exec .addExt (adding [] 1 [9]) = .next t ∧ (t.status == 0x30) = true) ∧
    ∃ t, exec .addExt (adding [] 0 [9]) = .next t ∧ (t.status == 0x38) = true :=
  ⟨exists_next _ _ (by decide +kernel), exists_next _ _ (by decide +kernel)⟩

theorem witness_AddExtKeepsElementsValid :
    elementsOk (adding [⟨2, [1]⟩] 1 [9]).pkt.extensionElements ∧
    (∃ t, exec .addExt (adding [⟨2, [1]⟩] 1 [9]) = .next t ∧ (t.status == 0x30) = true) ∧
    (adding [⟨2, [1]⟩] 1 [9]).pkt.extBytes =
      ((adding [⟨2, [1]⟩] 1 [9]).pkt.extensionElements.map fun e => 1 + e.data.length).sum :=
  ⟨by decide +kernel, exists_next _ _ (by decide +kernel), by decide +kernel⟩

/-- Each command runs: for CommandsAreIdempotent and StatusAfterCommand. -/
theorem witness_CommandsAreIdempotent :
    (∃ t, exec .decode (given frame0) = .next t ∧ (t.status == 0x10) = true) ∧
    ((holding packetD 29).obuf.wf ∧ ∃ t, exec .encode (holding packetD 29) = .next t ∧ (t.status == 0x20) = true) ∧
    ∃ t, exec .addExt (adding [] 1 [9]) = .next t ∧ (t.status == 0x30) = true :=
  ⟨exists_next _ _ (by decide +kernel), ⟨by decide, exists_next _ _ (by decide +kernel)⟩,
    exists_next _ _ (by decide +kernel)⟩

theorem witness_StatusAfterCommand :
    (∃ t, exec .decode (given []) = .next t ∧ (t.status == 0x12) = true) ∧
    (∃ t, exec .encode (holding packetD 28) = .next t ∧ (t.status == 0x29) = true) ∧
    ∃ t, exec .addExt (adding [] 0 [9]) = .next t ∧ (t.status == 0x38) = true :=
  ⟨exists_next _ _ (by decide +kernel), exists_next _ _ (by decide +kernel), exists_next _ _ (by decide +kernel)⟩

theorem witness_RtpByte0Unpacks : (2 : BitVec 2) = 2 ∧ (3 : BitVec 2) ≠ 2 := by decide

/-- The last element that fits, one that does not, and a repeated id. -/
theorem witness_ExtElemRecords :
    (let s := walking { Walk.start frameFull with phase := .body, cur := 20, bodyLen := 8, i := 6 };
      s.walk.cur + s.walk.bodyLen ≤ s.walk.frame.length ∧
        s.walk.i + 1 + ((0 : Nibble).toNat + 1) ≤ s.walk.bodyLen ∧ (3 : Nibble) ∉ s.walk.seen) ∧
    (let s := walking { Walk.start frameFull with phase := .body, cur := 20, bodyLen := 8, i := 7 };
      s.walk.cur + s.walk.bodyLen ≤ s.walk.frame.length ∧ s.walk.bodyLen < s.walk.i + 1 + ((0 : Nibble).toNat + 1)) ∧
    (let s := walking { Walk.start frameFull with phase := .body, cur := 20, bodyLen := 8, i := 2, seen := [1] };
      s.walk.cur + s.walk.bodyLen ≤ s.walk.frame.length ∧ (1 : Nibble) ∈ s.walk.seen) := by
  dsimp only
  decide +kernel

theorem witness_WireUnitFrame :
    (Instr.extTerm 0).port ≠ .cmd ∧ ∃ t, exec (.extTerm 0) (walking (Walk.start frame0)) = .next t ∧ (fun _ => true) t = true :=
  ⟨by decide, exists_next _ _ (by decide +kernel)⟩

theorem witness_UnitSteppedDecode : HoldsFrame (given frameFull) frameFull := by decide +kernel

theorem witness_HostWriteRegister :
    Next (hosted [.write Reg.version.number 3]) (.write Reg.version.number 3) [] ∧ Reg.version ≠ .status ∧
    Reg.version ≠ .olen ∧ Reg.version.fits State.reset.params 3 = true := by decide

theorem witness_HostWriteRefused :
    (Next (hosted [.write 0x07 0]) (.write 0x07 0) [] ∧ 0x07 ≤ (0x07 : Byte).toNat ∧ (0x07 : Byte).toNat ≤ 0x0F) ∧
    (Next (hosted [.write 0x1C 0]) (.write 0x1C 0) [] ∧ 0x1C ≤ (0x1C : Byte).toNat) ∧
    Next (hosted [.write 0x01 0]) (.write 0x01 0) [] ∧ Next (hosted [.write 0x04 0]) (.write 0x04 0) [] ∧
    (Next (hosted [.write 0x02 2049]) (.write 0x02 2049) [] ∧ (0x02 : Byte) = Reg.ilen.number ∧
      Reg.ilen.fits State.reset.params 2049 = false) ∧
    Next (hosted [.write 0x00 256]) (.write 0x00 256) [] := by decide +kernel

/-- The last byte of IBUF, and one past it. -/
theorem witness_HostWriteBytes :
    (Next (hosted [.writeBytes .ibuf 2047 [1]]) (.writeBytes .ibuf 2047 [1]) [] ∧
      2047 + ([1] : Bytes).length ≤ bufCapacity State.reset.params .ibuf) ∧
    (Next (hosted [.writeBytes .argbuf 256 [1]]) (.writeBytes .argbuf 256 [1]) [] ∧
      bufCapacity State.reset.params .argbuf < 256 + ([1] : Bytes).length) ∧
    Next (hosted [.writeBytes .obuf 0 [1]]) (.writeBytes .obuf 0 [1]) [] := by decide +kernel

theorem witness_HostWriteSequence :
    (Next (hosted [.writeSeq (.csrcList (List.replicate 64 0))]) (.writeSeq (.csrcList (List.replicate 64 0))) [] ∧
      (SeqValue.csrcList (List.replicate 64 0)).fits State.reset.params = true) ∧
    (Next (hosted [.writeSeq (.csrcList (List.replicate 65 0))]) (.writeSeq (.csrcList (List.replicate 65 0))) [] ∧
      (SeqValue.csrcList (List.replicate 65 0)).fits State.reset.params = false) := by decide +kernel

theorem witness_HostReadsChangeNothing :
    Next (hosted [.read 0x00]) (.read 0x00) [] ∧
    (Next { holding packetD 29 with pending := [.read 0x03] } (.read 0x03) [] ∧ (0x03 : Byte) = Reg.cap.number ∧
      (holding packetD 29).written.reg .cap = true ∧ (holding packetD 29).written.reg .ilen = false) ∧
    (Next (hosted [.read 0x0F]) (.read 0x0F) [] ∧ (0x0F : Byte).toNat ≤ 0x0F) ∧
    (Next { given frame0 with pending := [.readBytes .ibuf 11 2037] } (.readBytes .ibuf 11 2037) [] ∧
      11 + 2037 ≤ bufCapacity (given frame0).params .ibuf ∧ ((given frame0).buffer .ibuf).read (11 + 0) = some 0x01) ∧
    (Next { holding packetD 29 with pending := [.readSeq .payload] } (.readSeq .payload) [] ∧
      (holding packetD 29).written.seq .payload = true) := by decide +kernel

theorem witness_ClearPktGivesCanonicalPacket : (holding packetD 29).walk.phase = .idle := by decide

theorem witness_LoadFrameMakesDecodeReady :
    State.reset.walk.phase = .idle ∧ frameFull.length ≤ State.reset.params.maxIn := by decide

/-- The invariant holds of a state a run can reach, inside a DECODE, and of the one it steps to. -/
theorem witness_StepKeepsInvariant :
    Safety.Inv { given frameFull with walk := Walk.start frameFull } ∧
    ∃ t, step { given frameFull with walk := Walk.start frameFull } = .next t ∧ decide (t.walk.phase = .byte1) = true :=
  ⟨by decide +kernel, exists_next _ _ (by decide +kernel)⟩

theorem witness_NoLocalStateBetweenCommands :
    (hosted [.write 0x02 7]).walk = Walk.idle ∧
    ∃ t, step (hosted [.write 0x02 7]) = .next t ∧ (t.ilen == 7) = true :=
  ⟨by decide, exists_next _ _ (by decide +kernel)⟩

theorem witness_OnlyTheHostWritesFrameCapAndArguments :
    (∃ t, step (walking (Walk.start frame0)) = .next t ∧ (fun _ => true) t = true) ∧
    (walking (Walk.start frame0)).walk.phase ≠ .idle ∧
    (∃ t, step { given frame0 with pending := [.write 0x00 1] } = .next t ∧ (t.status == 0x10) = true) ∧
    ∃ t, step State.reset = .next t ∧ (fun _ => true) t = true :=
  ⟨exists_next _ _ (by decide +kernel), by decide, exists_next _ _ (by decide +kernel), exists_next _ _ (by decide +kernel)⟩

end Sys2Proof.Tests
end

section
/-! Encodings: the command words and what a CMD write of one does (30_encoding.md R94, R96), and that no step but a reset changes a
mark (10_state.md R48, 30_encoding.md R96). -/

namespace Sys2Proof.Machine

open Sys2Proof.Obl

/-! ### Command words -/

/-- A word is an opcode alone exactly when its bits 7-2 are zero and its bits 1-0 are that opcode (R94). -/
theorem word_eq_opcode_iff (w : Byte) (op : BitVec 2) :
    w = op.setWidth 8 ↔ w.extractLsb' 2 6 = 0 ∧ w.extractLsb' 0 2 = op := by
  simp only [← BitVec.toNat_inj, BitVec.toNat_setWidth, BitVec.extractLsb'_toNat, Nat.shiftRight_eq_div_pow,
    BitVec.ofNat_eq_ofNat, BitVec.toNat_ofNat]
  omega

/-- A word that spells none of the three commands is reserved (R96). -/
theorem decodeCmd_of_reserved (w : Byte) (h1 : w ≠ 0x01) (h2 : w ≠ 0x02) (h3 : w ≠ 0x03) :
    decodeCmd w = .reservedCmd w := by
  rw [decodeCmd, if_neg h1, if_neg h2, if_neg h3]

/-- R94: the table of command words, read by the fields of the word. -/
theorem decodeCmd_eq_table (w : Byte) :
    decodeCmd w =
      if w.extractLsb' 2 6 = 0 then
        (if w.extractLsb' 0 2 = 1 then Instr.decode
         else if w.extractLsb' 0 2 = 2 then Instr.encode
         else if w.extractLsb' 0 2 = 3 then Instr.addExt
         else Instr.reservedCmd w)
      else Instr.reservedCmd w := by
  have h1 : w = 0x01 ↔ _ := word_eq_opcode_iff w 1
  have h2 : w = 0x02 ↔ _ := word_eq_opcode_iff w 2
  have h3 : w = 0x03 ↔ _ := word_eq_opcode_iff w 3
  by_cases hz : w.extractLsb' 2 6 = 0
  · simp only [decodeCmd, h1, h2, h3, hz, true_and, if_true]
  · simp only [decodeCmd, h1, h2, h3, hz, false_and, if_false]

/-- A host write of a word to CMD between commands runs what the word spells (R39, R94). -/
theorem step_write_cmd (s : State) (w : Byte) (rest : List HostOp) (h : Next s (.write 0x00 w.toNat) rest) :
    step s = exec (decodeCmd w) { s with pending := rest } := by
  obtain ⟨hidle, hpending⟩ := h
  simpa using step_cmd s w.toNat rest hidle hpending w.isLt

/-! ### The marks -/

/-- A stop by a refusal leaves the state without the operation taken, and with the refusal mark set (R96). -/
theorem stepMarked_of_refused (s : State) (r : Refusal) (h : step s = .refused r) :
    stepMarked s = { s.dropOp with refusalMark := true } := by
  simp [stepMarked, h]

/-- Neither mark changes. -/
@[simp] abbrev SameMarks (s t : State) : Prop := t.faultMark = s.faultMark ∧ t.refusalMark = s.refusalMark

/-- A wire unit changes neither mark. -/
theorem execWire_sameMarks (i : Instr) (s t : State) (hi : i.port ≠ .cmd) (h : exec i s = .next t) : SameMarks s t := by
  obtain ⟨t', ht', hw⟩ := execWire_next i s hi
  cases ht'.symm.trans h
  obtain ⟨w, rfl⟩ | ⟨e, rfl⟩ := hw
  · simp
  · simp

/-- No instruction that answers a next state changes a mark. -/
theorem exec_sameMarks (i : Instr) (s t : State) (h : exec i s = .next t) : SameMarks s t := by
  cases i with
  | decode =>
    obtain ⟨-, ⟨p, -, rfl⟩ | ⟨e, -, rfl⟩⟩ := (execDecode_next s t).1 h
    · simp
    · simp
  | encode =>
    obtain ⟨-, ⟨-, rfl⟩ | ⟨e, -, rfl⟩⟩ := (execEncode_next s t).1 h
    · simp
    · simp
  | addExt =>
    obtain ⟨-, ⟨-, rfl⟩ | ⟨-, -, rfl⟩ | ⟨-, -, rfl⟩⟩ := (execAddExt_next s t).1 h
    · simp
    · simp
    · simp [State.appended]
  | reservedCmd w => cases h
  | _ => exact execWire_sameMarks _ s t (by simp [Instr.port]) h

theorem walkWords_sameMarks (s : State) : SameMarks s (walkWords s) := by
  simp only [walkWords]
  split <;> simp

theorem walkExtLength_sameMarks (s : State) : SameMarks s (walkExtLength s) := by
  simp only [walkExtLength]
  split <;> simp

theorem walkTail_sameMarks (s : State) : SameMarks s (walkTail s) := by
  simp only [walkTail]
  split <;> simp

/-- No host access but a reset changes a mark. -/
theorem hostAccess_sameMarks (op : HostOp) (s t : State) (hop : op ≠ .reset) (h : hostAccess op s = .next t) :
    SameMarks s t := by
  obtain ⟨n, v, r, -, -, -, -, rfl⟩ | ⟨b, off, bs, -, -, -, rfl⟩ | ⟨v, -, -, rfl⟩ | ⟨v, rfl⟩ | ⟨hreset, -⟩ :=
    hostAccess_next op s t h
  · simp
  · simp
  · simp
  · simp
  · exact absurd hreset hop

/-- A step that answers a next state and is no reset changes neither mark. -/
theorem step_sameMarks (s t : State) (hreset : ∀ rest, ¬Next s .reset rest) (h : step s = .next t) : SameMarks s t := by
  by_cases hidle : s.walk.phase = .idle
  · obtain ⟨-, rfl⟩ | ⟨v, rest, -, -, hexec⟩ | ⟨op, rest, hpending, -, haccess⟩ := step_idle_next s t hidle h
    · simp
    · exact exec_sameMarks _ { s with pending := rest } t hexec
    · refine hostAccess_sameMarks op { s with pending := rest } t ?_ haccess
      rintro rfl
      exact hreset rest ⟨hidle, hpending⟩
  · obtain ⟨i, -, hexec⟩ | ⟨e, rfl⟩ | ⟨-, rfl⟩ | ⟨-, rfl⟩ | ⟨-, -, rfl⟩ | ⟨-, rfl⟩ := step_walk_next s t hidle h
    · exact exec_sameMarks i s t hexec
    · simp
    · exact walkWords_sameMarks s
    · exact walkExtLength_sameMarks s
    · simp
    · exact walkTail_sameMarks s

/-- A refusal mark stays set over every step but a reset, stops included (R96). -/
theorem stepMarked_keeps_refusalMark (s : State) (hmark : s.refusalMark = true) (hreset : ∀ rest, ¬Next s .reset rest) :
    (stepMarked s).refusalMark = true := by
  unfold stepMarked
  split
  · next t h => exact (step_sameMarks s t hreset h).2.trans hmark
  · exact hmark
  · rfl

/-- Settles O6: the fields of the word decide what it spells, and a CMD write runs that. -/
theorem commandWordTable : Obligations.CommandWordTable := by
  unfold Obligations.CommandWordTable
  exact ⟨decodeCmd_eq_table, step_write_cmd⟩

/-- Settles O14: a reserved word reaches `execReservedCmd`, which refuses it, and no later step but a reset clears the mark. -/
theorem reservedCommandRefused : Obligations.ReservedCommandRefused := by
  unfold Obligations.ReservedCommandRefused
  refine ⟨fun _ _ => rfl, fun s w rest hnext h1 h2 h3 => ?_, stepMarked_keeps_refusalMark⟩
  have hstep : step s = .refused (.reservedCommand w) := by
    rw [step_write_cmd s w rest hnext, decodeCmd_of_reserved w h1 h2 h3]
    rfl
  obtain ⟨-, hpending⟩ := hnext
  exact ⟨hstep, by simp [stepMarked_of_refused s _ hstep, State.dropOp, hpending]⟩

end Sys2Proof.Machine
end

section
/-! The length of the frame ENCODE writes, and its largest value for a canonical packet (30_encoding.md R91, 42_encoder.md R166). -/

namespace Sys2Proof.Machine

/-! ### Lengths of the extension block and the frame -/

/-- The zero fill brings the body to a whole number of words (R203, R204). -/
theorem writeBlock_length (elems : List Element) : (writeBlock elems).length = 4 * extWords elems := by
  simp only [writeBlock, zeros, List.length_append, List.length_replicate, flatMap_wire_length, extWords]
  omega

theorem extBlock_length (elems : List Element) : (extBlock elems).length = extBlockSize elems := by
  unfold extBlock extBlockSize
  split
  · rfl
  · simp only [List.length_append, tobe16_length, writeBlock_length]

/-- ENCODE writes as many bytes as V5 counts (R166). -/
theorem frameBytes_length (p : Packet) : (frameBytes p).length = p.total := by
  simp only [frameBytes, Packet.total, List.length_append, List.length_cons, List.length_nil, tobe16_length, tobe32_length,
    flatMap_tobe32_length, extBlock_length, trailer_length]

/-- The extension block's size as R91 writes it, by `E > 0`. -/
theorem extBlockSize_eq_ite_pos (elems : List Element) :
    extBlockSize elems = if 0 < elems.length then 4 + 4 * extWords elems else 0 := by
  cases elems <;> simp [extBlockSize]

/-! ### The largest frame of a canonical packet -/

/-- An element of at most 16 data bytes is at most 17 bytes on the wire. -/
theorem elementBytes_le (elems : List Element) (h : ∀ e ∈ elems, e.data.length ≤ 16) :
    elementBytes elems ≤ elems.length * 17 := by
  have hsize : ∀ n ∈ elems.map Element.wireSize, n ≤ 17 := by
    simp only [List.forall_mem_map, Element.wireSize]
    intro e he
    have := h e he
    omega
  simpa [elementBytes] using List.sum_le_card_nsmul _ 17 hsize

/-- 14 elements of 17 bytes are 238 bytes, in 60 words and a header word. -/
theorem extBlockSize_le (elems : List Element) (h : elementsOk elems) : extBlockSize elems ≤ 244 := by
  obtain ⟨hcount, hvalid, -⟩ := h
  have hbytes := elementBytes_le elems fun e he => (hvalid e he).2.2
  unfold extBlockSize extWords
  split <;> omega

theorem total_le_of_canonical (p : Packet) (h : p.canonical) : p.total ≤ 571 + p.payload.length := by
  obtain ⟨-, ⟨-, hcsrcs⟩, helems, -⟩ := h
  have hext := extBlockSize_le p.extensionElements helems
  have hpad := p.paddingSize.isLt
  unfold Packet.total
  omega

/-- The 14 largest elements: ids 1 to 14, each with 16 data bytes. -/
def fullElements : List Element := (List.range' 1 14).map fun k => { id := BitVec.ofNat 4 k, data := zeros 16 }

/-- A canonical packet with 15 CSRC entries, the 14 largest elements and 255 padding bytes around a payload. -/
def fullPacket (payload : Bytes) : Packet :=
  { Packet.zero with
    version := 2, padding := 1, hasExtension := 1, csrcCount := 15, extensionProfile := 0xBEDE
    csrcList := List.replicate 15 0, extensionElements := fullElements, paddingSize := 255, payload := payload
    extBytes := elementBytes fullElements }

theorem fullPacket_canonical (payload : Bytes) : (fullPacket payload).canonical :=
  ⟨rfl, ⟨rfl, Nat.le_refl 15⟩, (by decide : elementsOk fullElements), rfl, rfl, rfl, rfl⟩

theorem fullPacket_total (payload : Bytes) : (fullPacket payload).total = 571 + payload.length := by
  have hext : extBlockSize fullElements = 244 := by decide
  simp only [Packet.total, fullPacket, hext, List.length_replicate, BitVec.reduceToNat]
  omega

/-- Settles O32: the frame's length is the sum of its parts, bounded part by part, and `fullPacket` reaches every bound. -/
theorem canonicalFrameLength : Obligations.CanonicalFrameLength := by
  unfold Obligations.CanonicalFrameLength
  refine ⟨fun p => ?_, fun p hp => ?_, fun payload => ⟨fullPacket payload, fullPacket_canonical payload, rfl, ?_⟩⟩
  · rw [frameBytes_length, Packet.total, extBlockSize_eq_ite_pos]
    rfl
  · rw [frameBytes_length]
    exact total_le_of_canonical p hp
  · rw [frameBytes_length]
    exact fullPacket_total payload

end Sys2Proof.Machine
end

section
/-! The packed fields: the packers concatenate their fields, the unpackers take the fields back out, and the class of a control byte
is read from its id field (40_packed_fields.md R110 to R121). -/

namespace Sys2Proof.Machine

/-! ### Words of several fields -/

/-- The fields of a four-field word, taken back out at their offsets. -/
theorem extractLsb'_append_four {k l m n : Nat} (a : BitVec k) (b : BitVec l) (c : BitVec m) (d : BitVec n) :
    (a ++ b ++ c ++ d).extractLsb' (l + m + n) k = a ∧ (a ++ b ++ c ++ d).extractLsb' (m + n) l = b ∧
      (a ++ b ++ c ++ d).extractLsb' n m = c ∧ (a ++ b ++ c ++ d).extractLsb' 0 n = d := by
  refine ⟨?_, ?_, ?_, BitVec.extractLsb'_append_eq_right⟩
  · rw [BitVec.extractLsb'_append_eq_of_le (Nat.le_add_left ..), Nat.add_sub_cancel,
      BitVec.extractLsb'_append_eq_of_le (Nat.le_add_left ..), Nat.add_sub_cancel, BitVec.extractLsb'_append_eq_left]
  · rw [BitVec.extractLsb'_append_eq_of_le (Nat.le_add_left ..), Nat.add_sub_cancel,
      BitVec.extractLsb'_append_eq_of_le (Nat.le_refl m), Nat.sub_self, BitVec.extractLsb'_append_eq_right]
  · rw [BitVec.extractLsb'_append_eq_of_le (Nat.le_refl n), Nat.sub_self, BitVec.extractLsb'_append_eq_right]

/-- A word is its four fields, taken out and concatenated again. -/
theorem append_extractLsb'_four {k l m n : Nat} (w : BitVec (k + l + m + n)) :
    w.extractLsb' (n + m + l) k ++ w.extractLsb' (n + m) l ++ w.extractLsb' n m ++ w.extractLsb' 0 n = w := by
  rw [BitVec.extractLsb'_append_extractLsb'_eq_extractLsb' rfl, BitVec.extractLsb'_append_extractLsb'_eq_extractLsb' rfl,
    BitVec.extractLsb'_append_extractLsb']

/-- Concatenation as arithmetic: the low field never carries into the high one. -/
theorem append_toNat {m n : Nat} (a : BitVec m) (b : BitVec n) : (a ++ b).toNat = a.toNat * 2 ^ n + b.toNat := by
  rw [BitVec.toNat_append, ← Nat.shiftLeft_add_eq_or_of_lt b.isLt, Nat.shiftLeft_eq]

/-! ### Header bytes 0 and 1 -/

/-- R112: byte 0 is its fields from the top bit down. -/
theorem pack0_eq_append (v : BitVec 2) (p x : Bit) (cc : BitVec 4) : pack0 v p x cc = v ++ p ++ x ++ cc := by
  rw [← BitVec.setWidth_eq (v ++ p ++ x ++ cc), BitVec.setWidth_append_append_append_eq_shiftLeft_setWidth_or]
  rfl

/-- R113: byte 1 is its fields from the top bit down. -/
theorem pack1_eq_append (m : Bit) (pt : BitVec 7) : pack1 m pt = m ++ pt := by
  rw [← BitVec.setWidth_eq (m ++ pt), BitVec.setWidth_append_eq_shiftLeft_setWidth_or]
  rfl

@[simp] theorem unpack0_pack0 (v : BitVec 2) (p x : Bit) (cc : BitVec 4) : unpack0 (pack0 v p x cc) = (v, p, x, cc) := by
  rw [pack0_eq_append]
  obtain ⟨hv, hp, hx, hcc⟩ := extractLsb'_append_four v p x cc
  exact Prod.ext hv (Prod.ext hp (Prod.ext hx hcc))

@[simp] theorem pack0_unpack0 (b : Byte) :
    pack0 (unpack0 b).1 (unpack0 b).2.1 (unpack0 b).2.2.1 (unpack0 b).2.2.2 = b := by
  rw [pack0_eq_append]
  exact append_extractLsb'_four (k := 2) (l := 1) (m := 1) (n := 4) b

@[simp] theorem unpack1_pack1 (m : Bit) (pt : BitVec 7) : unpack1 (pack1 m pt) = (m, pt) := by
  rw [pack1_eq_append, unpack1, BitVec.extractLsb'_append_eq_left, BitVec.extractLsb'_append_eq_right]

@[simp] theorem pack1_unpack1 (b : Byte) : pack1 (unpack1 b).1 (unpack1 b).2 = b := by
  rw [pack1_eq_append]
  exact BitVec.extractLsb'_append_extractLsb'

/-! ### Big-endian fields -/

/-- R114: two bytes never overflow the 16 bits. -/
theorem be16_pair_toNat (a b : Byte) : (be16 [a, b]).toNat = a.toNat * 256 + b.toNat := by
  simp only [be16, byteAt, List.getD_cons_zero, List.getD_cons_succ, BitVec.toNat_ofNat]
  omega

/-- R115: four bytes never overflow the 32 bits. -/
theorem be32_quad_toNat (a b c d : Byte) :
    (be32 [a, b, c, d]).toNat = a.toNat * 2 ^ 24 + b.toNat * 2 ^ 16 + c.toNat * 2 ^ 8 + d.toNat := by
  simp only [be32, byteAt, List.getD_cons_zero, List.getD_cons_succ, BitVec.toNat_ofNat]
  omega

theorem be16_pair_eq_append (a b : Byte) : be16 [a, b] = a ++ b := by
  apply BitVec.eq_of_toNat_eq
  rw [be16_pair_toNat, append_toNat]
  omega

theorem be32_quad_eq_append (a b c d : Byte) : be32 [a, b, c, d] = a ++ b ++ c ++ d := by
  apply BitVec.eq_of_toNat_eq
  rw [be32_quad_toNat, append_toNat, append_toNat, append_toNat]
  omega

/-- R116 after R114. -/
@[simp] theorem be16_tobe16 (v : BitVec 16) : be16 (tobe16 v) = v := by
  rw [tobe16, be16_pair_eq_append]
  exact BitVec.extractLsb'_append_extractLsb'

/-- R117 after R115. -/
@[simp] theorem be32_tobe32 (v : Word32) : be32 (tobe32 v) = v := by
  rw [tobe32, be32_quad_eq_append]
  exact append_extractLsb'_four (k := 8) (l := 8) (m := 8) (n := 8) v

theorem tobe16_be16 (s : Bytes) (h : s.length = 2) : tobe16 (be16 s) = s := by
  obtain ⟨a, b, rfl⟩ := List.length_eq_two.1 h
  rw [be16_pair_eq_append, tobe16, BitVec.extractLsb'_append_eq_left, BitVec.extractLsb'_append_eq_right]

theorem tobe32_be32 (s : Bytes) (h : s.length = 4) : tobe32 (be32 s) = s := by
  obtain ⟨a, b, c, d, rfl⟩ := List.length_eq_four.1 h
  obtain ⟨ha, hb, hc, hd⟩ := extractLsb'_append_four a b c d
  simp only [be32_quad_eq_append, tobe32, List.cons.injEq, and_true]
  exact ⟨ha, hb, hc, hd⟩

/-! ### Control bytes -/

/-- R119: the length field of a legal length, `length - 1`, does not reach the id's bits. -/
theorem ctrlPack_eq_append (id : Nibble) (n : Nat) (h : n ≤ 16) : ctrlPack id n = id ++ BitVec.ofNat 4 (n - 1) := by
  have hlow : (BitVec.ofNat 4 (n - 1)).setWidth 8 = BitVec.ofNat 8 (n - 1) := by
    apply BitVec.eq_of_toNat_eq
    simp only [BitVec.toNat_setWidth, BitVec.toNat_ofNat]
    omega
  rw [← BitVec.setWidth_eq (id ++ BitVec.ofNat 4 (n - 1)), BitVec.setWidth_append_eq_shiftLeft_setWidth_or, ctrlPack, ← hlow]

theorem ctrlUnpack_ctrlPack (id : Nibble) (n : Nat) (h : n ≤ 16) :
    ctrlUnpack (ctrlPack id n) = (id, BitVec.ofNat 4 (n - 1)) := by
  rw [ctrlPack_eq_append id n h, ctrlUnpack, BitVec.extractLsb'_append_eq_left, BitVec.extractLsb'_append_eq_right]

theorem ctrlUnpack_id_toNat (c : Byte) : (ctrlUnpack c).1.toNat = c.toNat / 16 := by
  simp only [ctrlUnpack, BitVec.extractLsb'_toNat, Nat.shiftRight_eq_div_pow]
  omega

theorem ctrlClass_eq_pad_iff (c : Byte) : ctrlClass c = .pad ↔ (ctrlUnpack c).1 = 0 := by
  unfold ctrlClass
  split_ifs with h0
  · exact iff_of_true rfl h0
  · exact iff_of_false nofun h0
  · exact iff_of_false nofun h0

theorem ctrlClass_eq_term_iff (c : Byte) : ctrlClass c = .term ↔ (ctrlUnpack c).1 = 15 := by
  unfold ctrlClass
  split_ifs with h0 h15
  · exact iff_of_false nofun (by rw [h0]; decide)
  · exact iff_of_true rfl h15
  · exact iff_of_false nofun h15

theorem ctrlClass_eq_elem_iff (c : Byte) :
    ctrlClass c = .elem ↔ 1 ≤ (ctrlUnpack c).1.toNat ∧ (ctrlUnpack c).1.toNat ≤ 14 := by
  have hne : ctrlClass c = .elem ↔ ctrlClass c ≠ .pad ∧ ctrlClass c ≠ .term := by cases ctrlClass c <;> simp
  rw [hne, ne_eq, ne_eq, ctrlClass_eq_pad_iff, ctrlClass_eq_term_iff]
  bv_omega

/-! ### The statements -/

/-- Settles O1: packing is concatenation, so each pair is inverse field by field. -/
theorem packersInvertUnpackers : Obligations.PackersInvertUnpackers := by
  refine ⟨unpack0_pack0, pack0_unpack0, unpack1_pack1, pack1_unpack1, be16_tobe16, tobe16_be16, be32_tobe32, tobe32_be32,
    fun id n hn hn' => ?_⟩
  have hlen : (BitVec.ofNat 4 (n - 1)).toNat = n - 1 := Nat.mod_eq_of_lt (by omega)
  simp only [ctrlClass_eq_elem_iff, ctrlUnpack_ctrlPack id n hn', hlen, true_and]

/-- Settles O2: the class is a function of the id field, which is the byte's value divided by 16. -/
theorem controlByteClassRanges : Obligations.ControlByteClassRanges := by
  intro c
  have hid := ctrlUnpack_id_toNat c
  have hlt := c.isLt
  refine ⟨ctrlClass_eq_pad_iff c, ctrlClass_eq_term_iff c, ?_, ?_, ?_⟩
  · rw [ctrlClass_eq_pad_iff]
    bv_omega
  · rw [ctrlClass_eq_term_iff]
    bv_omega
  · rw [ctrlClass_eq_elem_iff]
    omega

/-- Settles O3: reading never overflows, and the bytes written concatenate to the value. -/
theorem bigEndianPrimitives : Obligations.BigEndianPrimitives :=
  ⟨be16_pair_toNat, be32_quad_toNat, fun v => ⟨rfl, be16_tobe16 v⟩, fun v => ⟨rfl, be32_tobe32 v⟩⟩

end Sys2Proof.Machine
end

section
/-! DECODE on the frame the host gave it: what a run of it leaves, and the first error of a frame in step order (41_decoder.md R130 to
R149, R153). -/

namespace Sys2Proof.Machine

open Sys2Proof.Obl

/-! ### A run of DECODE -/

/-- With the frame given, DECODE's inputs are written and its operand is that frame (R48, R131). -/
theorem inFrame_of_holdsFrame {s : State} {B : Bytes} (h : HoldsFrame s B) :
    (∀ e ∈ Command.decode.inputs, s.isWritten e = true) ∧ s.inFrame = B := by
  obtain ⟨hwritten, hlen, hbytes⟩ := h
  have hrange : s.ibuf.readRange 0 s.ilen = some B :=
    (Memory.readRange_eq_some ..).2 ⟨hlen.symm, fun k hk => by simpa using hbytes k hk⟩
  have hframe : s.inFrame = B := by simp [State.inFrame, State.bytes, State.buffer, hrange]
  exact ⟨(decodeInputs_written s).2 ⟨hwritten, hframe ▸ hrange⟩, hframe⟩

/-- A frame that decodes is committed (R148). -/
theorem exec_decode_of_ok {s : State} {B : Bytes} {p : Packet} (h : HoldsFrame s B) (hp : decodeFrame B = .ok p) :
    exec .decode s = .next (s.commitPacket p) := by
  obtain ⟨hinputs, rfl⟩ := inFrame_of_holdsFrame h
  exact (execDecode_next ..).2 ⟨hinputs, .inl ⟨p, hp, rfl⟩⟩

/-- A frame with an error leaves the error's code and DECODE's opcode in STATUS, and nothing else (R222, R224). -/
theorem exec_decode_of_error {s : State} {B : Bytes} {e : Err} (h : HoldsFrame s B) (he : decodeFrame B = .error e) :
    exec .decode s = .next (failed s (statusWord e.code Command.decode.opcode)) := by
  obtain ⟨hinputs, rfl⟩ := inFrame_of_holdsFrame h
  exact (execDecode_next ..).2 ⟨hinputs, .inr ⟨e, he, rfl⟩⟩

/-! ### The extension block (S6) -/

/-- No room for the profile (R137). -/
theorem readExtension_of_short {B : Bytes} {cur : Nat} (h : B.length < cur + 2) :
    readExtension B cur = .error .truncated := by
  rw [readExtension, if_pos h]

/-- A profile other than 0xBEDE (R139). -/
theorem readExtension_of_profile_ne {B : Bytes} {cur : Nat} (h : cur + 2 ≤ B.length)
    (hprofile : be16 (slice B cur 2) ≠ 0xBEDE) : readExtension B cur = .error .unsupportedExtensionProfile := by
  rw [readExtension, if_neg (Nat.not_lt.2 h), if_pos hprofile]

/-- After the profile, no room for the length field or for the body it announces (R140, R141). -/
theorem readExtension_of_body_short {B : Bytes} {cur : Nat} (h : cur + 2 ≤ B.length)
    (hprofile : be16 (slice B cur 2) = 0xBEDE)
    (hshort : B.length < cur + 4 ∨ B.length < cur + 4 + 4 * (be16 (slice B (cur + 2) 2)).toNat) :
    readExtension B cur = .error .truncated := by
  rw [readExtension, if_neg (Nat.not_lt.2 h), if_neg (not_not.2 hprofile), readExtLength_truncated B (cur + 2) hshort]

/-- The whole body is there, and it does not parse (R142). -/
theorem readExtension_of_malformed {B : Bytes} {cur : Nat} (hprofile : be16 (slice B cur 2) = 0xBEDE)
    (hbody : cur + 4 + 4 * (be16 (slice B (cur + 2) 2)).toNat ≤ B.length)
    (hparse : parseBlock (slice B (cur + 4) (4 * (be16 (slice B (cur + 2) 2)).toNat)) = none) :
    readExtension B cur = .error .malformed := by
  rw [readExtension, if_neg (by omega), if_neg (not_not.2 hprofile), readExtLength_ok B (cur + 2) hbody]
  simp only [hparse]

/-- The whole body is there, and it parses: the payload starts after it (R142, R143). -/
theorem readExtension_of_parsed {B : Bytes} {cur : Nat} {elems : List Element}
    (hprofile : be16 (slice B cur 2) = 0xBEDE) (hbody : cur + 4 + 4 * (be16 (slice B (cur + 2) 2)).toNat ≤ B.length)
    (hparse : parseBlock (slice B (cur + 4) (4 * (be16 (slice B (cur + 2) 2)).toNat)) = some elems) :
    readExtension B cur = .ok (elems, cur + 4 + 4 * (be16 (slice B (cur + 2) 2)).toNat) := by
  rw [readExtension, if_neg (by omega), if_neg (not_not.2 hprofile), readExtLength_ok B (cur + 2) hbody]
  simp only [hparse]

/-! ### The padding (S8) -/

/-- A padding size of 0, or one that reaches back past the payload's start (R144). -/
theorem readTail_of_bad_padding {B : Bytes} {ps : Nat} {pflag : Bit} (hflag : pflag = 1)
    (hbad : byteAt B (B.length - 1) = 0 ∨ B.length - ps < (byteAt B (B.length - 1)).toNat) :
    readTail B ps pflag = .error .malformed := by
  rw [readTail, if_pos hflag]
  exact if_pos hbad

/-! ### The frame, step by step -/

/-- S1 (R132). -/
theorem decodeFrame_of_short {B : Bytes} (h : B.length < 12) : decodeFrame B = .error .truncated := by
  rw [decodeFrame, if_pos h]

/-- S2 (R133). -/
theorem decodeFrame_of_version_ne {B : Bytes} (h : 12 ≤ B.length) (hversion : ver B ≠ 2) :
    decodeFrame B = .error .unsupportedVersion := by
  rw [decodeFrame, if_neg (Nat.not_lt.2 h)]
  exact if_pos hversion

/-- The CSRC list fits exactly when S5 reads it (R136). -/
theorem readCsrcs_frame_eq_none {B : Bytes} (h : 12 ≤ B.length) :
    readCsrcs B 12 (csrcs B) = none ↔ B.length < extStart B := by
  rw [readCsrcs_eq_none, extStart]
  omega

/-- S5 (R136). -/
theorem decodeFrame_of_csrcs_short {B : Bytes} (h : PastVersion B) (hshort : B.length < extStart B) :
    decodeFrame B = .error .truncated := by
  obtain ⟨hlen, hversion⟩ := h
  have hcsrcs := (readCsrcs_frame_eq_none hlen).2 hshort
  rw [decodeFrame, if_neg (Nat.not_lt.2 hlen)]
  simp only [hversion, ne_eq, not_true_eq_false, if_false, hcsrcs]

/-- What S6 answers for a frame past S5: its elements and where its payload starts, or an error (R137 to R143). -/
def frameExtension (B : Bytes) : Except Err (List Element × Nat) :=
  if extFlag B = 1 then readExtension B (extStart B) else .ok ([], extStart B)

theorem frameExtension_of_flag {B : Bytes} (h : extFlag B = 1) :
    frameExtension B = readExtension B (extStart B) := if_pos h

theorem pastCsrcs_of_pastExtension {B : Bytes} {ps : Nat} (h : PastExtension B ps) : PastCsrcs B := by
  obtain ⟨hpast, -⟩ | ⟨⟨⟨hpast, -⟩, -⟩, -⟩ := h
  · exact hpast
  · exact hpast

/-- A frame past S6 has elements, and its payload starts at `ps` (R142, R143). -/
theorem frameExtension_of_past {B : Bytes} {ps : Nat} (h : PastExtension B ps) :
    ∃ elems, frameExtension B = .ok (elems, ps) := by
  obtain ⟨-, hflag, rfl⟩ | ⟨⟨⟨-, hflag, -, hprofile⟩, -, hbody⟩, hparse, rfl⟩ := h
  · exact ⟨[], if_neg (by simp [hflag])⟩
  · obtain ⟨elems, helems⟩ := Option.ne_none_iff_exists'.1 hparse
    exact ⟨elems, (frameExtension_of_flag hflag).trans (readExtension_of_parsed hprofile hbody helems)⟩

/-- Past S5, the first error is S6's, or with S6 passed the padding's (R137 to R146). -/
theorem decodeFrame_of_pastCsrcs_error {B : Bytes} {e : Err} (h : PastCsrcs B)
    (he : frameExtension B = .error e ∨
      ∃ elems ps, frameExtension B = .ok (elems, ps) ∧ readTail B ps (padFlag B) = .error e) :
    decodeFrame B = .error e := by
  obtain ⟨⟨hlen, hversion⟩, hfits⟩ := h
  have hcsrcs := mt (readCsrcs_frame_eq_none hlen).1 (Nat.not_lt.2 hfits)
  obtain ⟨cs, hcs⟩ := Option.ne_none_iff_exists'.1 hcsrcs
  rw [decodeFrame, if_neg (Nat.not_lt.2 hlen)]
  unfold frameExtension at he
  obtain he | ⟨elems, ps, hext, htail⟩ := he
  · simp only [hversion, ne_eq, not_true_eq_false, if_false, hcs, he]
  · simp only [hversion, ne_eq, not_true_eq_false, if_false, hcs, hext, htail]

/-! ### The statements -/

/-- Settles O21: each fault is the error of its own step, and `exec_decode_of_error` says what state an error leaves. -/
theorem decodeErrorPrecedence : Obligations.DecodeErrorPrecedence := by
  unfold Obligations.DecodeErrorPrecedence
  intro s B hframe
  have hrun {e : Err} (he : decodeFrame B = .error e) := exec_decode_of_error hframe he
  have hext {e : Err} (hpast : PastCsrcs B) (hflag : extFlag B = 1) (he : readExtension B (extStart B) = .error e) :=
    hrun (decodeFrame_of_pastCsrcs_error hpast (.inl ((frameExtension_of_flag hflag).trans he)))
  refine ⟨?_, ?_, ?_, ?_, ?_, ?_, ?_, ?_, ?_⟩
  · exact fun hshort => hrun (decodeFrame_of_short hshort)
  · exact fun hlen hversion => hrun (decodeFrame_of_version_ne hlen hversion)
  · exact fun hpast hshort => hrun (decodeFrame_of_csrcs_short hpast hshort)
  · exact fun hpast hflag hshort => hext hpast hflag (readExtension_of_short hshort)
  · exact fun hpast hflag hlen hprofile => hext hpast hflag (readExtension_of_profile_ne hlen hprofile)
  · exact fun ⟨hpast, hflag, hlen, hprofile⟩ hshort =>
      hext hpast hflag (readExtension_of_body_short hlen hprofile (.inl hshort))
  · exact fun ⟨hpast, hflag, hlen, hprofile⟩ _ hshort =>
      hext hpast hflag (readExtension_of_body_short hlen hprofile (.inr hshort))
  · exact fun ⟨⟨hpast, hflag, _, hprofile⟩, _, hbody⟩ hparse =>
      hext hpast hflag (readExtension_of_malformed hprofile hbody hparse)
  · intro ps hpast hflag hbad
    obtain ⟨elems, helems⟩ := frameExtension_of_past hpast
    have htail := readTail_of_bad_padding hflag hbad
    exact hrun (decodeFrame_of_pastCsrcs_error (pastCsrcs_of_pastExtension hpast) (.inr ⟨elems, ps, helems, htail⟩))

/-- Settles O27: the frame decodes to the record by computation, and every state given the frame commits it. -/
theorem decodeSourceExample : Obligations.DecodeSourceExample := by
  unfold Obligations.DecodeSourceExample
  refine ⟨by decide, fun s hframe => ⟨_, exec_decode_of_ok hframe rfl, ?_⟩⟩
  exact ⟨rfl, rfl, rfl, rfl, rfl, rfl, rfl, rfl, rfl, rfl, rfl, rfl, rfl, rfl, rfl, rfl⟩

end Sys2Proof.Machine
end

section
/-! ENCODE: what a run of it leaves, the first of its checks that fails, and the fields it does not read (42_encoder.md R160 to R178). -/

namespace Sys2Proof.Machine

open Sys2Proof.Obl

/-! ### A run of ENCODE -/

/-- ENCODE's inputs are written exactly when the host has written CAP and the PKT elements R160 lists (R48, R254). -/
theorem encodeInputs_written (s : State) : (∀ e ∈ Command.encode.inputs, s.isWritten e = true) ↔ EncodeReady s := by
  simp [Command.inputs, encodeInputs, State.isWritten, Written.reg, Written.seq]

/-- A packet that fails a check leaves the error's code and ENCODE's opcode in STATUS, OLEN 0, and nothing else (R222, R224). -/
theorem exec_encode_of_error {s : State} {e : Err} (h : EncodeReady s) (he : encodeError s.pkt s.cap = some e) :
    exec .encode s = .next (failedEncode s (statusWord e.code Command.encode.opcode)) :=
  (execEncode_next ..).2 ⟨(encodeInputs_written s).2 h, .inr ⟨e, he, rfl⟩⟩

/-- A packet that passes every check is committed (R175, R177). -/
theorem exec_encode_of_ok {s : State} (h : EncodeReady s) (hp : encodeError s.pkt s.cap = none) :
    exec .encode s = .next (s.commitFrame s.pkt) :=
  (execEncode_next ..).2 ⟨(encodeInputs_written s).2 h, .inl ⟨hp, rfl⟩⟩

/-! ### The five checks -/

/-- R23, R165: a flag derived from "the byte is not 0" is set exactly when the byte is positive. -/
theorem flag_eq_ite_iff (b : Bit) (n : Byte) : (b = if n = 0 then 0 else 1) ↔ (b = 1 ↔ 0 < n.toNat) := by
  have hpos : 0 < n.toNat ↔ n ≠ 0 := by bv_omega
  rw [hpos]
  by_cases hn : n = 0
  · simp only [hn, if_true]
    bv_omega
  · simp only [hn, if_false, ne_eq, not_false_eq_true, iff_true]

theorem consistent_iff (p : Packet) : p.consistent ↔ Consistent p := by
  rw [Packet.consistent, flag_eq_ite_iff]

/-- V3 passes when no element has a length outside 1 to 16 (R164). -/
theorem lengthsOk_iff (p : Packet) :
    LengthsOk p ↔ ¬∃ e ∈ p.extensionElements, e.data.length < 1 ∨ e.data.length > 16 := by
  simp only [LengthsOk, not_exists, not_and, not_or, Nat.not_lt]

section
variable {p : Packet} {cap : Nat}

/-- V1 (R162). -/
theorem encodeError_of_csrcs (h : 15 < p.csrcList.length) : encodeError p cap = some .tooManyCsrc := if_pos h

/-- V2 (R163). -/
theorem encodeError_of_elements (h1 : p.csrcList.length ≤ 15) (h2 : 14 < p.extensionElements.length) :
    encodeError p cap = some .tooManyExtensionElements := by
  rw [encodeError, if_neg (Nat.not_lt.2 h1), if_pos h2]

/-- V3 (R164). -/
theorem encodeError_of_lengths (h1 : p.csrcList.length ≤ 15) (h2 : p.extensionElements.length ≤ 14) (h3 : ¬LengthsOk p) :
    encodeError p cap = some .invalidElementLength := by
  rw [lengthsOk_iff, not_not] at h3
  rw [encodeError, if_neg (Nat.not_lt.2 h1), if_neg (Nat.not_lt.2 h2), if_pos h3]

/-- V4 (R165). -/
theorem encodeError_of_inconsistent (h1 : p.csrcList.length ≤ 15) (h2 : p.extensionElements.length ≤ 14)
    (h3 : LengthsOk p) (h4 : ¬Consistent p) : encodeError p cap = some .invalidArgument := by
  rw [lengthsOk_iff] at h3
  rw [← consistent_iff] at h4
  rw [encodeError, if_neg (Nat.not_lt.2 h1), if_neg (Nat.not_lt.2 h2), if_neg h3, if_pos h4]

/-- V5 is all that is left of a packet that passes V1 to V4 (R167). -/
theorem encodeError_of_passesV4 (h : PassesV4 p) :
    encodeError p cap = if p.total > cap then some .bufferTooSmall else none := by
  obtain ⟨h1, h2, h3, h4⟩ := h
  rw [lengthsOk_iff] at h3
  rw [← consistent_iff] at h4
  rw [encodeError, if_neg (Nat.not_lt.2 h1), if_neg (Nat.not_lt.2 h2), if_neg h3, if_neg (not_not.2 h4)]

end

/-- The length V5 counts is R166's. -/
theorem total_eq_frameLength (p : Packet) : p.total = frameLength p := rfl

/-- A packet that passes V1 to V4 and whose frame fits passes every check. -/
theorem encodeError_eq_none {p : Packet} {cap : Nat} (h : PassesV4 p) (hcap : frameLength p ≤ cap) :
    encodeError p cap = none := by
  rw [encodeError_of_passesV4 h, total_eq_frameLength, if_neg (Nat.not_lt.2 hcap)]

/-! ### The statements -/

/-- Settles O29: each clause is the error of its own check, and `exec_encode_of_error` says what state an error leaves. -/
theorem encodeErrorOrder : Obligations.EncodeErrorOrder := by
  unfold Obligations.EncodeErrorOrder
  intro s hready
  have hrun {e : Err} (he : encodeError s.pkt s.cap = some e) := exec_encode_of_error hready he
  refine ⟨?_, ?_, ?_, ?_, ?_⟩
  · exact fun h1 => hrun (encodeError_of_csrcs h1)
  · exact fun h1 h2 => hrun (encodeError_of_elements h1 h2)
  · exact fun h1 h2 h3 => hrun (encodeError_of_lengths h1 h2 h3)
  · exact fun h1 h2 h3 h4 => hrun (encodeError_of_inconsistent h1 h2 h3 h4)
  · exact fun hpasses hcap => hrun ((encodeError_of_passesV4 hpasses).trans (if_pos hcap))

/-- Settles O34: no input, no check and no byte of the frame depends on the three fields, so each of ENCODE's two ends is the
same with them replaced. -/
theorem encodeIgnoresDerivedFields : Obligations.EncodeIgnoresDerivedFields := by
  unfold Obligations.EncodeIgnoresDerivedFields
  intro s t x prof eb wx wp we h
  obtain ⟨hinputs, hend⟩ := (execEncode_next s t).1 h
  rw [encodeInputs_written] at hinputs
  obtain ⟨hcheck, rfl⟩ | ⟨e, hcheck, rfl⟩ := hend
  · exact exec_encode_of_ok hinputs hcheck
  · exact exec_encode_of_error hinputs hcheck

end Sys2Proof.Machine
end

section
/-! The iterator reads back the block the writer wrote (43_extension_block.md R190, R203, R205). -/

namespace Sys2Proof.Machine

/-! ### One unit -/

theorem byteAt_append_cons (pre : Bytes) (b : Byte) (rest : Bytes) : byteAt (pre ++ b :: rest) pre.length = b := by
  simp [byteAt]

/-- What the writer takes: an id from 1 to 14 and 1 to 16 data bytes (R34). -/
abbrev Element.valid (e : Element) : Prop := (1 ≤ e.id.toNat ∧ e.id.toNat ≤ 14) ∧ 1 ≤ e.data.length ∧ e.data.length ≤ 16

/-- The iterator, at an element the writer wrote, records it and moves past it (R196 to R199). -/
theorem iterStep_wire (pre rest : Bytes) (e : Element) (elems : List Element) (seen : List Nibble) (he : e.valid)
    (hnew : e.id ∉ seen) :
    iterStep (pre ++ (e.wire ++ rest)) (.run pre.length elems seen) =
      .run (pre.length + e.wireSize) (elems ++ [e]) (seen ++ [e.id]) := by
  obtain ⟨hid, hpos, hle⟩ := he
  have hbyte : byteAt (pre ++ (e.wire ++ rest)) pre.length = ctrlPack e.id e.data.length := byteAt_append_cons ..
  have hctrl := ctrlUnpack_ctrlPack e.id e.data.length hle
  have hclass : ctrlClass (ctrlPack e.id e.data.length) = .elem := by
    rw [ctrlClass_eq_elem_iff, hctrl]
    exact hid
  have hlen : (BitVec.ofNat 4 (e.data.length - 1)).toNat = e.data.length - 1 := Nat.mod_eq_of_lt (by omega)
  have hdata : slice (pre ++ (e.wire ++ rest)) (pre.length + 1) e.data.length = e.data :=
    slice_of_eq (a := pre ++ [ctrlPack e.id e.data.length]) (c := rest) (by simp [Element.wire]) (by simp) rfl
  have hrecord : recordElement (pre ++ (e.wire ++ rest)) pre.length e.id (BitVec.ofNat 4 (e.data.length - 1)) elems seen =
      some (pre.length + e.wireSize, elems ++ [e], seen ++ [e.id]) := by
    rw [recordElement_some, hlen, Nat.sub_add_cancel hpos, hdata, Element.wireSize]
    refine ⟨?_, hnew, ?_⟩
    · simp only [List.length_append, Element.wire_length, Element.wireSize]
      omega
    · rw [show pre.length + 2 + (e.data.length - 1) = pre.length + (1 + e.data.length) by omega]
  have hbound : ¬pre.length ≥ (pre ++ (e.wire ++ rest)).length := by simp [Element.wire]
  simp only [iterStep, hbound, if_false, hbyte, hclass, hctrl, hrecord]

/-- The iterator passes a zero byte of the fill (R194). -/
theorem iterStep_zero (pre rest : Bytes) (elems : List Element) (seen : List Nibble) :
    iterStep (pre ++ 0 :: rest) (.run pre.length elems seen) = .run (pre.length + 1) elems seen := by
  have hbound : ¬pre.length ≥ (pre ++ 0 :: rest).length := by simp
  have hclass : ctrlClass 0 = .pad := rfl
  simp only [iterStep, hbound, if_false, byteAt_append_cons, hclass]

/-! ### Runs of units -/

/-- The iterator records a list of elements one step each (R200). -/
theorem iterRun_wires (es : List Element) (pre rest : Bytes) (elems : List Element) (seen : List Nibble)
    (hvalid : ∀ e ∈ es, e.valid) (hids : (es.map Element.id).Nodup) (hnew : ∀ e ∈ es, e.id ∉ seen) :
    iterRun (pre ++ (es.flatMap Element.wire ++ rest)) es.length (.run pre.length elems seen) =
      .run (pre ++ es.flatMap Element.wire).length (elems ++ es) (seen ++ es.map Element.id) := by
  induction es generalizing pre elems seen with
  | nil => simp [iterRun]
  | cons e es ih =>
    obtain ⟨hfirst, hids⟩ := List.nodup_cons.1 hids
    obtain ⟨hhead, htail⟩ := List.forall_mem_cons.1 hvalid
    obtain ⟨hnewHead, hnewTail⟩ := List.forall_mem_cons.1 hnew
    have hfresh : ∀ e' ∈ es, e'.id ∉ seen ++ [e.id] := by
      intro e' he' hmem
      obtain hmem | hmem := List.mem_append.1 hmem
      · exact hnewTail e' he' hmem
      · exact hfirst (List.mem_singleton.1 hmem ▸ List.mem_map_of_mem he')
    have hrest := ih (pre ++ e.wire) (elems ++ [e]) (seen ++ [e.id]) htail hids hfresh
    rw [List.length_append, Element.wire_length] at hrest
    simpa [iterRun, iterStep_wire _ _ e elems seen hhead hnewHead, Element.wire_length, Nat.add_assoc] using hrest

/-- The iterator passes the zero fill one step a byte. -/
theorem iterRun_zeros (k : Nat) (pre : Bytes) (elems : List Element) (seen : List Nibble) :
    iterRun (pre ++ zeros k) k (.run pre.length elems seen) = .run (pre ++ zeros k).length elems seen := by
  induction k generalizing pre with
  | zero => simp [iterRun, zeros]
  | succ k ih =>
    have hzeros : zeros (k + 1) = 0 :: zeros k := rfl
    have hrest := ih (pre ++ [0])
    rw [hzeros, iterRun, iterStep_zero]
    simpa using hrest

/-- At the body's end the iterator is done (R192). -/
theorem iterStep_end (body : Bytes) (elems : List Element) (seen : List Nibble) :
    iterStep body (.run body.length elems seen) = .done elems := if_pos (Nat.le_refl _)

/-! ### The whole block -/

/-- What the iterator ends with within `|body| + 1` steps is the parser's answer (R201). -/
theorem parseBlock_of_iterRun_done {body : Bytes} {n : Nat} {es : List Element} (hn : n ≤ body.length + 1)
    (h : iterRun body n iterStart = .done es) : parseBlock body = some es := by
  have hend : iterRun body (body.length + 1) iterStart = .done es := by
    rw [← Nat.add_sub_cancel' hn, iterRun_add, h, iterRun_done]
  rw [parseBlock, hend]

/-- R205: the parser reads a written list back. -/
theorem parseBlock_writeBlock {es : List Element} (hvalid : ∀ e ∈ es, e.valid) (hids : (es.map Element.id).Nodup) :
    parseBlock (writeBlock es) = some es := by
  obtain ⟨k, hblock⟩ : ∃ k, writeBlock es = es.flatMap Element.wire ++ zeros k := ⟨_, rfl⟩
  have hwires := iterRun_wires es [] (zeros k) [] [] hvalid hids (by simp)
  have hzeros := iterRun_zeros k (es.flatMap Element.wire) es (es.map Element.id)
  have hdone : iterRun (writeBlock es) (es.length + k + 1) iterStart = .done es := by
    simp only [List.nil_append, List.length_nil] at hwires
    rw [hblock, iterRun_succ_last, iterRun_add, iterStart, hwires, hzeros, iterStep_end]
  have hcount : es.length ≤ (es.flatMap Element.wire).length := by
    simpa [List.length_flatMap] using
      List.length_le_sum_of_one_le (es.map fun e => e.wire.length) (by simp [Element.wire])
  refine parseBlock_of_iterRun_done ?_ hdone
  simp only [hblock, zeros, List.length_append, List.length_replicate]
  omega

end Sys2Proof.Machine
end

section
/-! DECODE of a frame laid out part by part (30_encoding.md R81, 41_decoder.md R132 to R148), and the round trip (42_encoder.md R180). -/

namespace Sys2Proof.Machine

open Sys2Proof.Obl

/-! ### The layout of a frame (R81) -/

/-- The first 12 bytes (R81 to R83), with a packet's fields. -/
def fixedHeader (p : Packet) : Bytes :=
  [pack0 p.version p.padding p.hasExtension p.csrcCount, pack1 p.marker p.payloadType] ++ tobe16 p.sequenceNumber ++
    tobe32 p.timestamp ++ tobe32 p.ssrc

/-- A frame with a packet's fields around the bytes of an extension block and of a padding (R81). -/
def layout (p : Packet) (ext pad : Bytes) : Bytes :=
  fixedHeader p ++ p.csrcList.flatMap tobe32 ++ ext ++ p.payload ++ pad

/-- The extension block goes with the extension flag, and its body parses to the elements (R85). -/
abbrev ExtensionPart (x : Bit) (ext : Bytes) (es : List Element) : Prop :=
  (x = 0 ∧ ext = [] ∧ es = []) ∨
    (x = 1 ∧ ∃ (L : BitVec 16) (body : Bytes), body.length = 4 * L.toNat ∧
      ext = [0xBE, 0xDE] ++ tobe16 L ++ body ∧ parseBlock body = some es)

/-- The padding goes with the padding flag, and its last byte counts it (R89). -/
abbrev PaddingPart (f : Bit) (pad : Bytes) (n : Byte) : Prop :=
  (f = 0 ∧ pad = [] ∧ n = 0) ∨
    (f = 1 ∧ n ≠ 0 ∧ ∃ filler : Bytes, filler.length = n.toNat - 1 ∧ pad = filler ++ [n])

/-! ### Reading each part at its offset -/

theorem fixedHeader_length (p : Packet) : (fixedHeader p).length = 12 := rfl

/-- The fixed words read back (R133 to R135). -/
theorem layout_fixedHeader (p : Packet) (ext pad : Bytes) :
    unpack0 (byteAt (layout p ext pad) 0) = (p.version, p.padding, p.hasExtension, p.csrcCount) ∧
      unpack1 (byteAt (layout p ext pad) 1) = (p.marker, p.payloadType) ∧
      be16 (slice (layout p ext pad) 2 2) = p.sequenceNumber ∧ be32 (slice (layout p ext pad) 4 4) = p.timestamp ∧
      be32 (slice (layout p ext pad) 8 4) = p.ssrc :=
  ⟨unpack0_pack0 .., unpack1_pack1 .., be16_tobe16 _, be32_tobe32 _, be32_tobe32 _⟩

/-- S5 reads back a CSRC list (R136). -/
theorem readCsrcs_flatMap (cs : List Word32) (pre rest : Bytes) :
    readCsrcs (pre ++ (cs.flatMap tobe32 ++ rest)) pre.length cs.length = some cs := by
  induction cs generalizing pre with
  | nil => rfl
  | cons c cs ih =>
    have hfits : ¬pre.length + 4 > (pre ++ ((c :: cs).flatMap tobe32 ++ rest)).length := by
      simp [tobe32_length]
    have hword : slice (pre ++ ((c :: cs).flatMap tobe32 ++ rest)) pre.length 4 = tobe32 c :=
      slice_of_eq (c := cs.flatMap tobe32 ++ rest) (by simp) rfl rfl
    have hrest := ih (pre ++ tobe32 c)
    rw [List.length_append, tobe32_length, List.append_assoc, ← List.append_assoc (tobe32 c), ← List.flatMap_cons] at hrest
    rw [List.length_cons, readCsrcs, if_neg hfits, hword, hrest, be32_tobe32]

/-- S6 reads back an extension block whose body parses (R137 to R142). -/
theorem readExtension_block (pre rest body : Bytes) (L : BitVec 16) (es : List Element) (hlen : body.length = 4 * L.toNat)
    (hparse : parseBlock body = some es) :
    readExtension (pre ++ ([0xBE, 0xDE] ++ tobe16 L ++ body ++ rest)) pre.length =
      .ok (es, pre.length + 4 + 4 * L.toNat) := by
  have hprofile : slice (pre ++ ([0xBE, 0xDE] ++ tobe16 L ++ body ++ rest)) pre.length 2 = tobe16 0xBEDE :=
    slice_of_eq (c := tobe16 L ++ body ++ rest) (by simp [tobe16]) rfl rfl
  have hL : slice (pre ++ ([0xBE, 0xDE] ++ tobe16 L ++ body ++ rest)) (pre.length + 2) 2 = tobe16 L :=
    slice_of_eq (a := pre ++ [0xBE, 0xDE]) (c := body ++ rest) (by simp) (by simp) rfl
  have hbody : slice (pre ++ ([0xBE, 0xDE] ++ tobe16 L ++ body ++ rest)) (pre.length + 4) (4 * L.toNat) = body :=
    slice_of_eq (a := pre ++ [0xBE, 0xDE] ++ tobe16 L) (c := rest) (by simp) (by simp [tobe16_length]) hlen.symm
  have hread := readExtension_of_parsed (B := pre ++ ([0xBE, 0xDE] ++ tobe16 L ++ body ++ rest)) (cur := pre.length)
    (elems := es)
  rw [hL, be16_tobe16, hbody] at hread
  refine hread ?_ ?_ hparse
  · rw [hprofile, be16_tobe16]
  · simp only [List.length_append, List.length_cons, List.length_nil, tobe16_length, hlen]
    omega

/-- S6 on a laid-out frame: the elements, and the payload right after the block (R137 to R143). -/
theorem extensionPart_read {x : Bit} {ext : Bytes} {es : List Element} (h : ExtensionPart x ext es) (pre rest : Bytes) :
    (if x = 1 then readExtension (pre ++ (ext ++ rest)) pre.length else .ok ([], pre.length)) =
      .ok (es, (pre ++ ext).length) := by
  obtain ⟨rfl, rfl, rfl⟩ | ⟨rfl, L, body, hlen, rfl, hparse⟩ := h
  · simp
  · rw [if_pos rfl, readExtension_block pre rest body L es hlen hparse]
    simp only [List.length_append, List.length_cons, List.length_nil, tobe16_length, hlen, Except.ok.injEq,
      Prod.mk.injEq, true_and]
    omega

/-- S7 to S9 on a laid-out frame: the payload and the padding's size (R143 to R146). -/
theorem readTail_part {f : Bit} {pad : Bytes} {n : Byte} (h : PaddingPart f pad n) (pre payload : Bytes) :
    readTail (pre ++ (payload ++ pad)) pre.length f = .ok (payload, n) := by
  have hpayload : slice (pre ++ (payload ++ pad)) pre.length payload.length = payload := slice_of_eq rfl rfl rfl
  obtain ⟨rfl, rfl, rfl⟩ | ⟨rfl, hn, filler, hfiller, rfl⟩ := h
  · have hsize : (pre ++ (payload ++ [])).length - pre.length = payload.length := by simp
    rw [readTail, if_neg (by decide), hsize, hpayload]
  · have hpos : 0 < n.toNat := by bv_omega
    have hlast : byteAt (pre ++ (payload ++ (filler ++ [n]))) ((pre ++ (payload ++ (filler ++ [n]))).length - 1) = n := by
      simpa [← List.append_assoc] using byteAt_append_cons (pre ++ payload ++ filler) n []
    have hsize : (pre ++ (payload ++ (filler ++ [n]))).length - pre.length = payload.length + n.toNat := by
      simp only [List.length_append, List.length_singleton, hfiller]
      omega
    have hgood : ¬(n = 0 ∨ n.toNat > payload.length + n.toNat) := by
      rintro (hzero | hlong)
      · exact hn hzero
      · omega
    rw [readTail, if_pos rfl]
    simp only [hlast, hsize, hgood, if_false, Nat.add_sub_cancel, hpayload]

/-! ### The whole frame -/

/-- DECODE gives back the packet a frame was laid out from (R132 to R148). -/
theorem decodeFrame_layout {p : Packet} {ext pad : Bytes} (hversion : p.version = 2)
    (hcount : p.csrcCount.toNat = p.csrcList.length) (hext : ExtensionPart p.hasExtension ext p.extensionElements)
    (hprofile : p.extensionProfile = if p.hasExtension = 1 then 0xBEDE else 0x0000)
    (hpad : PaddingPart p.padding pad p.paddingSize) (hbytes : p.extBytes = elementBytes p.extensionElements) :
    decodeFrame (layout p ext pad) = .ok p := by
  have hfits : ¬(layout p ext pad).length < 12 := by
    simp only [layout, List.length_append, fixedHeader_length]
    omega
  obtain ⟨h0, h1, hseq, hts, hssrc⟩ := layout_fixedHeader p ext pad
  have hsupported : ¬p.version ≠ 2 := not_not.2 hversion
  have hcsrcs : readCsrcs (layout p ext pad) 12 p.csrcCount.toNat = some p.csrcList := by
    simpa [layout, hcount, fixedHeader_length] using
      readCsrcs_flatMap p.csrcList (fixedHeader p) (ext ++ (p.payload ++ pad))
  have hS6 := extensionPart_read hext (fixedHeader p ++ p.csrcList.flatMap tobe32) (p.payload ++ pad)
  have htail := readTail_part hpad (fixedHeader p ++ p.csrcList.flatMap tobe32 ++ ext) p.payload
  have hcur : (fixedHeader p ++ p.csrcList.flatMap tobe32).length = 12 + 4 * p.csrcCount.toNat := by
    rw [List.length_append, fixedHeader_length, flatMap_tobe32_length, hcount]
  rw [hcur] at hS6
  simp only [← List.append_assoc] at hS6 htail
  rw [← layout] at hS6 htail
  rw [decodeFrame, if_neg hfits]
  simp only [h0, h1, hsupported, if_false, hcsrcs, hS6, htail, hseq, hts, hssrc, ← hprofile, ← hbytes]

/-! ### Canonical packets -/

/-- A canonical packet passes V1 to V4 (R45, R162 to R165). -/
theorem passesV4_of_canonical {p : Packet} (h : p.canonical) : PassesV4 p := by
  obtain ⟨hversion, ⟨hcount, hcsrcs⟩, ⟨hlen, hvalid, hids⟩, -, -, hpadding, -⟩ := h
  have hflag : p.padding = 1 ↔ 0 < p.paddingSize.toNat := by rw [hpadding]; split <;> simp [*]
  exact ⟨hcsrcs, hlen, fun e he => (hvalid e he).2, hversion, hcount, hflag, fun e he => (hvalid e he).1, hids⟩

/-- W5 writes a checked list as an extension part that parses back to it (R172, R205). -/
theorem extensionPart_extBlock {es : List Element} (h : elementsOk es) :
    ExtensionPart (if es = [] then 0 else 1) (extBlock es) es := by
  by_cases hes : es = []
  · exact .inl ⟨if_pos hes, if_pos hes, hes⟩
  · have hsize := extBlockSize_le es h
    rw [extBlockSize, if_neg hes] at hsize
    have hL : (BitVec.ofNat 16 (extWords es)).toNat = extWords es := Nat.mod_eq_of_lt (by omega)
    obtain ⟨-, hvalid, hids⟩ := h
    exact .inr ⟨if_neg hes, _, writeBlock es, by rw [writeBlock_length, hL], if_neg hes, parseBlock_writeBlock hvalid hids⟩

/-- W7 writes a padding part (R174). -/
theorem paddingPart_trailer (n : Byte) : PaddingPart (if n.toNat > 0 then 1 else 0) (trailer n) n := by
  by_cases hn : n = 0
  · exact .inl ⟨by simp [hn], if_pos hn, hn⟩
  · have hpos : n.toNat > 0 := by bv_omega
    exact .inr ⟨if_pos hpos, hn, zeros (n.toNat - 1), List.length_replicate, if_neg hn⟩

/-- ENCODE's frame is the layout of the packet when the extension flag says whether there are elements (R168). -/
theorem frameBytes_eq_layout {p : Packet} (h : p.hasExtension = if p.extensionElements = [] then 0 else 1) :
    frameBytes p = layout p (extBlock p.extensionElements) (trailer p.paddingSize) := by
  rw [frameBytes, ← h]
  rfl

/-- R180 for the frame itself: it decodes to the canonical packet it was written from. -/
theorem decodeFrame_frameBytes {p : Packet} (h : p.canonical) : decodeFrame (frameBytes p) = .ok p := by
  obtain ⟨hversion, ⟨hcount, -⟩, helems, hflag, hprofile, hpadding, hbytes⟩ := h
  have hderived : p.hasExtension = if p.extensionElements = [] then 0 else 1 := by
    rw [hflag]
    cases p.extensionElements <;> simp
  rw [frameBytes_eq_layout hderived]
  exact decodeFrame_layout hversion hcount (hderived ▸ extensionPart_extBlock helems) hprofile
    (hpadding ▸ paddingPart_trailer p.paddingSize) hbytes

/-! ### The statement -/

/-- A frame with the extension flag set and an empty extension body. -/
def emptyExtensionFrame : Bytes := [0x90, 0, 0, 0, 0, 0, 0, 0, 0, 0, 0, 0, 0xBE, 0xDE, 0, 0]

/-- What DECODE makes of it: a packet with the extension flag set and no element. -/
def emptyExtensionPacket : Packet := { Packet.zero with version := 2, hasExtension := 1, extensionProfile := 0xBEDE }

/-- Settles O35: ENCODE writes `frameBytes`, which decodes to the packet; `emptyExtensionFrame` is no frame ENCODE writes, for
without elements ENCODE leaves the extension out (R172). -/
theorem encodeThenDecode : Obligations.EncodeThenDecode := by
  unfold Obligations.EncodeThenDecode
  refine ⟨fun s hready hcanonical hcap => ?_, emptyExtensionFrame, emptyExtensionPacket, rfl, by decide⟩
  have hcheck := encodeError_eq_none (passesV4_of_canonical hcanonical) hcap
  refine ⟨_, exec_encode_of_ok hready hcheck, rfl, rfl, frameBytes s.pkt, frameBytes_length s.pkt, fun k hk => ?_,
    fun u hframe => ⟨_, exec_decode_of_ok hframe (decodeFrame_frameBytes hcanonical), rfl, rfl⟩⟩
  simpa using Memory.read_writeRange_in s.obuf 0 (frameBytes s.pkt) k hk

end Sys2Proof.Machine
end

section
/-! The extension block: the iterator step by step and the end it reaches, the shape of the block the writer writes, and the
writer read back by the parser (43_extension_block.md R202 to R205). -/

namespace Sys2Proof.Machine

/-! ### One step of the iterator, by what stands at the cursor -/

/-- Data past the body, or an id already recorded, is Malformed (R196, R198). -/
theorem recordElement_eq_none {body : Bytes} {i : Nat} {id lf : Nibble} (es : List Element) {seen : List Nibble}
    (hbad : body.length < i + 2 + lf.toNat ∨ id ∈ seen) : recordElement body i id lf es seen = none := by
  refine Option.eq_none_iff_forall_ne_some.2 fun r hr => ?_
  obtain ⟨hfits, hnew, -⟩ := (recordElement_some ..).1 hr
  exact hbad.elim (by omega) hnew

theorem ctrlClass_eq_elem_of_id_ne {c : Byte} (h0 : (ctrlUnpack c).1 ≠ 0) (h15 : (ctrlUnpack c).1 ≠ 15) :
    ctrlClass c = .elem := by
  rw [ctrlClass, if_neg h0, if_neg h15]

section
variable {body : Bytes} {i : Nat} {es : List Element} {seen : List Nibble} {id lf : Nibble}

theorem iterStep_of_end (h : body.length ≤ i) : iterStep body (.run i es seen) = .done es := if_pos h

theorem iterStep_of_filler (h : i < body.length) (hid : (ctrlUnpack (byteAt body i)).1 = 0) :
    iterStep body (.run i es seen) = .run (i + 1) es seen := by
  simp only [iterStep, ge_iff_le, h.not_ge, if_false, (ctrlClass_eq_pad_iff _).2 hid]

theorem iterStep_of_terminator (h : i < body.length) (hid : (ctrlUnpack (byteAt body i)).1 = 15) :
    iterStep body (.run i es seen) = .done es := by
  simp only [iterStep, ge_iff_le, h.not_ge, if_false, (ctrlClass_eq_term_iff _).2 hid]

theorem iterStep_of_malformed (h : i < body.length) (hc : ctrlUnpack (byteAt body i) = (id, lf)) (h0 : id ≠ 0) (h15 : id ≠ 15)
    (hbad : body.length < i + 2 + lf.toNat ∨ id ∈ seen) : iterStep body (.run i es seen) = .fail := by
  have hclass : ctrlClass (byteAt body i) = .elem := ctrlClass_eq_elem_of_id_ne (by rwa [hc]) (by rwa [hc])
  have hrecord := recordElement_eq_none es hbad
  simp only [iterStep, ge_iff_le, h.not_ge, if_false, hclass, hc, hrecord]

theorem iterStep_of_element (h : i < body.length) (hc : ctrlUnpack (byteAt body i) = (id, lf)) (h0 : id ≠ 0) (h15 : id ≠ 15)
    (hfits : i + 2 + lf.toNat ≤ body.length) (hnew : id ∉ seen) :
    iterStep body (.run i es seen) =
      .run (i + 2 + lf.toNat) (es ++ [{ id := id, data := slice body (i + 1) (lf.toNat + 1) }]) (seen ++ [id]) := by
  have hclass : ctrlClass (byteAt body i) = .elem := ctrlClass_eq_elem_of_id_ne (by rwa [hc]) (by rwa [hc])
  have hrecord := (recordElement_some body i id lf es seen _).2 ⟨hfits, hnew, rfl⟩
  simp only [iterStep, ge_iff_le, h.not_ge, if_false, hclass, hc, hrecord]

end

/-! ### The end the iterator reaches (R201) -/

/-- A running iterator has a cursor of at least its step count and at most `|body|`, so it does not run for `|body| + 1` steps. -/
theorem iterRun_ends (body : Bytes) :
    (∃ es, iterRun body (body.length + 1) iterStart = .done es) ∨ iterRun body (body.length + 1) iterStart = .fail := by
  cases hrun : iterRun body (body.length + 1) iterStart with
  | run i es seen =>
    have hrunning := iterRun_running _ _ _ _ _ hrun
    have hsteps := hrunning.steps_le
    have hcursor := hrunning.cursor_le
    omega
  | done es => exact .inl ⟨es, rfl⟩
  | fail => exact .inr rfl

/-- An absorbing state is reached when it is the state after `|body| + 1` steps: that state absorbs too. -/
theorem iterRun_reaches_iff {body : Bytes} {st : IterState} (hst : ∀ n, iterRun body n st = st) :
    (∃ k, iterRun body k iterStart = st) ↔ iterRun body (body.length + 1) iterStart = st := by
  refine ⟨fun ⟨k, hk⟩ => ?_, fun h => ⟨_, h⟩⟩
  have hend : iterRun body k (iterRun body (body.length + 1) iterStart) = iterRun body (body.length + 1) iterStart := by
    obtain ⟨es, h⟩ | h := iterRun_ends body <;> simp [h]
  rw [← hend, ← iterRun_add, Nat.add_comm, iterRun_add, hk, hst]

theorem parseBlock_eq_some_iff (body : Bytes) (es : List Element) :
    parseBlock body = some es ↔ iterRun body (body.length + 1) iterStart = .done es := by
  obtain ⟨es', h⟩ | h := iterRun_ends body <;> simp [parseBlock, h]

theorem parseBlock_eq_none_iff (body : Bytes) :
    parseBlock body = none ↔ iterRun body (body.length + 1) iterStart = .fail := by
  obtain ⟨es', h⟩ | h := iterRun_ends body <;> simp [parseBlock, h]

/-! ### The elements the writer takes -/

/-- An element of at least 1 data byte is at least 2 bytes on the wire. -/
theorem le_elementBytes (es : List Element) (h : ∀ e ∈ es, 1 ≤ e.data.length) : es.length * 2 ≤ elementBytes es := by
  have hsize : ∀ n ∈ es.map Element.wireSize, 2 ≤ n := by
    simp only [List.forall_mem_map, Element.wireSize]
    intro e he
    have := h e he
    omega
  simpa [elementBytes] using List.card_nsmul_le_sum _ 2 hsize

theorem ctrlClass_wire (e : Element) (he : e.valid) : ctrlClass (ctrlPack e.id e.data.length) = .elem := by
  obtain ⟨hid, -, hle⟩ := he
  rw [ctrlClass_eq_elem_iff, ctrlUnpack_ctrlPack _ _ hle]
  exact hid

/-! ### The statements -/

/-- Settles O16: one lemma per clause of the step; both ends absorb, so what is ever reached is the state after `|body| + 1`
steps, which the parser reads. -/
theorem iteratorStepCases : Obligations.IteratorStepCases := by
  intro body i es seen id lf
  have hmove : i + 1 + (lf.toNat + 1) = i + 2 + lf.toNat := by omega
  rw [hmove]
  refine ⟨iterStep_of_end, fun h hc => ⟨?_, ?_, ?_, ?_, iterStep_of_element h hc⟩, rfl, rfl, rfl, ?_, ?_, iterRun_ends body⟩
  · exact fun h0 => iterStep_of_filler h (by rw [hc, h0])
  · exact fun h15 => iterStep_of_terminator h (by rw [hc, h15])
  · exact fun h0 h15 hlong => iterStep_of_malformed h hc h0 h15 (.inl hlong)
  · exact fun h0 h15 hseen => iterStep_of_malformed h hc h0 h15 (.inr hseen)
  · rw [parseBlock_eq_some_iff, iterRun_reaches_iff fun n => iterRun_done body n es]
  · rw [parseBlock_eq_none_iff, iterRun_reaches_iff (iterRun_fail body)]

/-- Settles O19: `eb` is `elementBytes` and `L` is `extWords`; an element is 2 to 17 bytes, which bounds `eb` on both sides. -/
theorem writtenBlockShape : Obligations.WrittenBlockShape := by
  intro es eb L
  have hL : L = (eb + 3) / 4 := rfl
  refine ⟨rfl, writeBlock_length es, by omega, by omega, fun hpos hcount hdata => ?_⟩
  have hlow : es.length * 2 ≤ eb := le_elementBytes es fun e he => (hdata e he).1
  have hhigh : eb ≤ es.length * 17 := elementBytes_le es fun e he => (hdata e he).2
  exact ⟨by omega, by omega, by omega, by omega, fun e he h1 h14 => ctrlClass_wire e ⟨⟨h1, h14⟩, hdata e he⟩⟩

/-- A body with a filler byte before its one element. -/
def leadingFillerBody : Bytes := [0x00, 0x10, 0xAA, 0x00]

/-- Settles O20: the parser reads a written list back; `leadingFillerBody` parses, but the writer fills only after the elements. -/
theorem parseOfWrittenBlock : Obligations.ParseOfWrittenBlock := by
  refine ⟨fun es _ _ hids hnodup hdata => ?_, leadingFillerBody, [⟨1, [0xAA]⟩], by decide, by decide⟩
  exact parseBlock_writeBlock (fun e he => ⟨hids e he, hdata e he⟩) hnodup

end Sys2Proof.Machine
end

section
/-! ADD_EXT: what a run of it leaves when its argument is rejected, is already on the packet, or is new
(44_extension_registry.md R210 to R213). -/

namespace Sys2Proof.Machine

open Sys2Proof.Obl

/-! ### A run of ADD_EXT -/

/-- With its arguments given, ADD_EXT's inputs are written and its operand is that data (R48, R210). -/
theorem argData_of_holdsArgs {s : State} {d : Bytes} (h : HoldsArgs s d) :
    (∀ e ∈ Command.addExt.inputs, s.isWritten e = true) ∧ s.argData = d := by
  obtain ⟨hid, hargLen, hlen, hbytes, helems, htotal⟩ := h
  have hrange : s.argbuf.readRange 0 s.argLen = some d :=
    (Memory.readRange_eq_some ..).2 ⟨hlen.symm, fun k hk => by simpa using hbytes k hk⟩
  have hdata : s.argData = d := by simp [State.argData, State.bytes, State.buffer, hrange]
  refine ⟨?_, hdata⟩
  simp [Command.inputs, addExtInputs, State.isWritten, Written.reg, Written.seq, hid, hargLen, hrange, helems, htotal]

/-- A rejected argument leaves InvalidArgument's code and ADD_EXT's opcode in STATUS, and nothing else (R211, R222). -/
theorem exec_addExt_of_badArgument {s : State} {d : Bytes} (h : HoldsArgs s d) (hbad : badArgument s) :
    exec .addExt s = .next (failed s 0x38) :=
  (execAddExt_next ..).2 ⟨(argData_of_holdsArgs h).1, .inl ⟨hbad, rfl⟩⟩

/-- An accepted argument whose id is on the packet completes ADD_EXT (R212). -/
theorem exec_addExt_of_idPresent {s : State} {d : Bytes} (h : HoldsArgs s d) (hgood : ¬badArgument s) (hid : idPresent s) :
    exec .addExt s = .next (s.complete .addExt) :=
  (execAddExt_next ..).2 ⟨(argData_of_holdsArgs h).1, .inr (.inl ⟨hgood, hid, rfl⟩)⟩

/-- An accepted argument with a new id is appended (R213). -/
theorem exec_addExt_of_new {s : State} {d : Bytes} (h : HoldsArgs s d) (hgood : ¬badArgument s) (hnew : ¬idPresent s) :
    exec .addExt s = .next s.appended :=
  (execAddExt_next ..).2 ⟨(argData_of_holdsArgs h).1, .inr (.inr ⟨hgood, hnew, rfl⟩)⟩

/-! ### The argument -/

/-- R211's test, on the data the host gave. -/
theorem badArgument_iff {s : State} {d : Bytes} (h : HoldsArgs s d) :
    badArgument s ↔ s.argId = 0 ∨ 14 < s.argId.toNat ∨ d = [] ∨ 16 < d.length := by
  obtain ⟨-, rfl⟩ := argData_of_holdsArgs h
  have hzero : s.argId = 0 ↔ s.argId.toNat < 1 := by bv_omega
  simp only [badArgument, hzero, Nat.lt_one_iff, List.length_eq_zero_iff, gt_iff_lt]

theorem not_badArgument_of_holdsArgs {s : State} {d : Bytes} (h : HoldsArgs s d) (hlow : 1 ≤ s.argId.toNat)
    (hhigh : s.argId.toNat ≤ 14) (hpos : 1 ≤ d.length) (hlen : d.length ≤ 16) : ¬badArgument s := by
  obtain ⟨-, rfl⟩ := argData_of_holdsArgs h
  omega

/-- ARG_ID's low nibble is the id it holds (R213). -/
theorem extractLsb'_nibble_of_toNat_eq {b : Byte} {id : Nibble} (h : b.toNat = id.toNat) : b.extractLsb' 0 4 = id := by
  apply BitVec.eq_of_toNat_eq
  rw [BitVec.extractLsb'_toNat, Nat.shiftRight_zero, h, Nat.mod_eq_of_lt id.isLt]

/-- The state an append leaves, field by field: the list and its total were written before, so W stays (R47, R213). -/
theorem appended_of_holdsArgs {s : State} {d : Bytes} {id : Nibble} (h : HoldsArgs s d) (hid : s.argId.toNat = id.toNat) :
    s.appended =
      { s with
        pkt := { s.pkt with
          extensionElements := s.pkt.extensionElements ++ [{ id := id, data := d }]
          extBytes := s.pkt.extBytes + (1 + d.length) }
        status := 0x30
        walk := Walk.idle } := by
  obtain ⟨-, rfl⟩ := argData_of_holdsArgs h
  obtain ⟨-, -, -, -, helems, htotal⟩ := h
  have hwritten : (s.written.markSeq .extensionElements).markReg .extBytes = s.written := by
    rw [Written.markSeq_of_written _ .extensionElements helems, Written.markReg_of_written _ .extBytes htotal]
  rw [State.appended, hwritten, extractLsb'_nibble_of_toNat_eq hid]
  rfl

/-! ### The statements -/

/-- Settles O36: the argument is accepted and no element has its id, so it is appended. -/
theorem addExtAppends : Obligations.AddExtAppends := by
  intro s d id hargs hid hlow hhigh hpos hlen hnew
  have hgood := not_badArgument_of_holdsArgs hargs (hid ▸ hlow) (hid ▸ hhigh) hpos hlen
  have habsent : ¬idPresent s := fun ⟨e, he, heq⟩ => hnew e he (BitVec.eq_of_toNat_eq (heq.trans hid))
  rw [exec_addExt_of_new hargs hgood habsent, appended_of_holdsArgs hargs hid]

/-- Settles O37: the length is checked before the id is looked for, so the two cases part on `badArgument`. -/
theorem addExtDuplicateIsNoOp : Obligations.AddExtDuplicateIsNoOp := by
  intro s d e hargs he hid hlow hhigh
  refine ⟨fun hpos hlen => ?_, fun hbad => ?_⟩
  · have hgood := not_badArgument_of_holdsArgs hargs hlow hhigh hpos hlen
    exact exec_addExt_of_idPresent hargs hgood ⟨e, he, hid.symm⟩
  · exact exec_addExt_of_badArgument hargs ((badArgument_iff hargs).2 (.inr (.inr hbad)))

/-- Settles O38: the listed arguments are those ADD_EXT rejects, before it looks at the packet. -/
theorem addExtInvalidArgument : Obligations.AddExtInvalidArgument := by
  intro s d hargs hbad
  exact exec_addExt_of_badArgument hargs ((badArgument_iff hargs).2 hbad)

end Sys2Proof.Machine
end

section
/-! The decoder and the encoder of the instruction rows, what a step fetches, and the placed word (30_encoding.md R82 to R96,
43_extension_block.md R194 to R196). -/

namespace Sys2Proof.Machine

open Sys2Proof.Obl

/-! ### What each row decodes to -/

theorem decodeByte0_of_version {b : Byte} (h : (unpack0 b).1 = 2) :
    decodeByte0 b = .ok (.rtpByte0 (unpack0 b).1 (unpack0 b).2.1 (unpack0 b).2.2.1 (unpack0 b).2.2.2) := if_pos h

theorem decodeByte0_of_version_ne {b : Byte} (h : (unpack0 b).1 ≠ 2) :
    decodeByte0 b = .error (.unsupportedVersion (unpack0 b).1) := if_neg h

/-- R120: the row of a control byte, by its id. -/
theorem decodeCtrl_of_pad {c : Byte} (h : (ctrlUnpack c).1 = 0) : decodeCtrl c = .extPad (ctrlUnpack c).2 := by
  rw [decodeCtrl, (ctrlClass_eq_pad_iff c).2 h]

theorem decodeCtrl_of_term {c : Byte} (h : (ctrlUnpack c).1 = 15) : decodeCtrl c = .extTerm (ctrlUnpack c).2 := by
  rw [decodeCtrl, (ctrlClass_eq_term_iff c).2 h]

theorem decodeCtrl_of_elem {c : Byte} (h0 : (ctrlUnpack c).1 ≠ 0) (h15 : (ctrlUnpack c).1 ≠ 15) :
    decodeCtrl c = .extElem (ctrlUnpack c).1 (ctrlUnpack c).2 := by
  rw [decodeCtrl, ctrlClass_eq_elem_of_id_ne h0 h15]

/-- R119 and R118: a control byte packed from an id and a length field unpacks to them. -/
theorem ctrlUnpack_ctrlPack_succ (id l : Nibble) : ctrlUnpack (ctrlPack id (l.toNat + 1)) = (id, l) := by
  rw [ctrlUnpack_ctrlPack id (l.toNat + 1) l.isLt, Nat.add_sub_cancel, BitVec.ofNat_toNat, BitVec.setWidth_eq]

/-- Packing the unpacked id and length field gives the control byte back. -/
theorem ctrlPack_ctrlUnpack (c : Byte) : ctrlPack (ctrlUnpack c).1 ((ctrlUnpack c).2.toNat + 1) = c := by
  rw [ctrlPack_eq_append _ ((ctrlUnpack c).2.toNat + 1) (ctrlUnpack c).2.isLt, Nat.add_sub_cancel, BitVec.ofNat_toNat,
    BitVec.setWidth_eq]
  exact BitVec.extractLsb'_append_extractLsb'

/-! ### Well-formed operands -/

/-- R96: a reserved word is none of the three commands. -/
theorem wellFormed_reservedCmd (w : Byte) :
    (Instr.reservedCmd w).wellFormed = true ↔ w ≠ 0x01 ∧ w ≠ 0x02 ∧ w ≠ 0x03 := by
  simp only [Instr.wellFormed, Bool.and_eq_true, bne_iff_ne, and_assoc]

/-- R133: an accepted frame byte 0 has version 2. -/
theorem wellFormed_rtpByte0 (v : BitVec 2) (p x : Bit) (cc : BitVec 4) :
    (Instr.rtpByte0 v p x cc).wellFormed = true ↔ v = 2 := beq_iff_eq

/-- R196: an element's id is neither the filler's nor the terminator's. -/
theorem wellFormed_extElem (id l : Nibble) : (Instr.extElem id l).wellFormed = true ↔ id ≠ 0 ∧ id ≠ 15 := by
  simp only [Instr.wellFormed, Bool.and_eq_true, bne_iff_ne]

/-! ### Decoding an encoded instruction -/

/-- A control row stands in one byte, which decodes to it. -/
theorem decode_encode_ctrl {i : Instr} (rest : Bytes) (hport : i.port = .ctrl) (hwf : i.wellFormed = true) :
    decode .ctrl (encode i ++ rest) = .ok (i, rest) := by
  have hrow {c : Byte} (h : decodeCtrl c = i) : decode .ctrl ([c] ++ rest) = .ok (i, rest) := by simp [decode, h]
  cases i with
  | extPad l => exact hrow (by rw [decodeCtrl_of_pad, ctrlUnpack_ctrlPack_succ]; rw [ctrlUnpack_ctrlPack_succ])
  | extTerm x => exact hrow (by rw [decodeCtrl_of_term, ctrlUnpack_ctrlPack_succ]; rw [ctrlUnpack_ctrlPack_succ])
  | extElem id l =>
    obtain ⟨h0, h15⟩ := (wellFormed_extElem id l).1 hwf
    have hunpack := ctrlUnpack_ctrlPack_succ id l
    exact hrow (by rw [decodeCtrl_of_elem (by rwa [hunpack]) (by rwa [hunpack]), hunpack])
  | _ => cases hport

/-- Settles O4: at each place the unpacker takes the packed operands back out, and well-formedness keeps the row's check. -/
theorem instrDecodeOfEncode : Obligations.InstrDecodeOfEncode := by
  intro i rest hwf
  cases i with
  | decode => rfl
  | encode => rfl
  | addExt => rfl
  | reservedCmd w =>
    obtain ⟨h1, h2, h3⟩ := (wellFormed_reservedCmd w).1 hwf
    simp [Instr.port, encode, decode, decodeCmd_of_reserved w h1 h2 h3]
  | rtpByte0 v p x cc =>
    have hversion := (wellFormed_rtpByte0 v p x cc).1 hwf
    simp [Instr.port, encode, decode, decodeByte0, hversion]
  | rtpByte1 m pt => simp [Instr.port, encode, decode, decodeByte1]
  | extProfileBede => rfl
  | extPad l => exact decode_encode_ctrl rest rfl hwf
  | extElem id l => exact decode_encode_ctrl rest rfl hwf
  | extTerm x => exact decode_encode_ctrl rest rfl hwf

/-! ### Encoding a decoded instruction -/

/-- An instruction that is well-formed and whose bytes are these. -/
abbrev Encodes (i : Instr) (bs : Bytes) : Prop := i.wellFormed = true ∧ encode i = bs

theorem encodes_decodeCmd (w : Byte) : Encodes (decodeCmd w) [w] := by
  unfold decodeCmd
  split_ifs with h1 h2 h3
  · exact ⟨rfl, by rw [h1]; rfl⟩
  · exact ⟨rfl, by rw [h2]; rfl⟩
  · exact ⟨rfl, by rw [h3]; rfl⟩
  · exact ⟨(wellFormed_reservedCmd w).2 ⟨h1, h2, h3⟩, rfl⟩

theorem encodes_decodeByte0 {b : Byte} {i : Instr} (h : decodeByte0 b = .ok i) : Encodes i [b] := by
  by_cases hversion : (unpack0 b).1 = 2
  · cases (decodeByte0_of_version hversion).symm.trans h
    exact ⟨(wellFormed_rtpByte0 ..).2 hversion, by rw [encode, pack0_unpack0]⟩
  · cases (decodeByte0_of_version_ne hversion).symm.trans h

theorem encodes_decodeByte1 (b : Byte) : Encodes (decodeByte1 b) [b] := ⟨rfl, by rw [decodeByte1, encode, pack1_unpack1]⟩

theorem encodes_decodeProfile {b c : Byte} {i : Instr} (h : decodeProfile (be16 [b, c]) = .ok i) : Encodes i [b, c] := by
  unfold decodeProfile at h
  split_ifs at h with hprofile
  cases h
  exact ⟨rfl, by rw [encode, ← hprofile, tobe16_be16 [b, c] rfl]⟩

theorem encodes_decodeCtrl (c : Byte) : Encodes (decodeCtrl c) [c] := by
  have hbyte := ctrlPack_ctrlUnpack c
  by_cases h0 : (ctrlUnpack c).1 = 0
  · rw [h0] at hbyte
    exact decodeCtrl_of_pad h0 ▸ ⟨rfl, by rw [encode, hbyte]⟩
  · by_cases h15 : (ctrlUnpack c).1 = 15
    · rw [h15] at hbyte
      exact decodeCtrl_of_term h15 ▸ ⟨rfl, by rw [encode, hbyte]⟩
    · exact decodeCtrl_of_elem h0 h15 ▸ ⟨(wellFormed_extElem ..).2 ⟨h0, h15⟩, by rw [encode, hbyte]⟩

/-- What decodes is well-formed and its bytes stand before the rest. -/
theorem encodes_of_decode {p : Port} {bs rest : Bytes} {i : Instr} (h : decode p bs = .ok (i, rest)) :
    i.wellFormed = true ∧ bs = encode i ++ rest := by
  have hrow {front : Bytes} (h : Encodes i front) : i.wellFormed = true ∧ front ++ rest = encode i ++ rest :=
    ⟨h.1, by rw [h.2]⟩
  unfold decode at h
  split at h
  · cases h
    exact hrow (encodes_decodeCmd _)
  · split at h
    · next hi => cases h; exact hrow (encodes_decodeByte0 hi)
    · cases h
  · cases h
    exact hrow (encodes_decodeByte1 _)
  · split at h
    · next hi => cases h; exact hrow (encodes_decodeProfile hi)
    · cases h
  · cases h
    exact hrow (encodes_decodeCtrl _)
  · cases h

/-- Settles O5: each place's decoder packs back to the byte or bytes it read. -/
theorem instrEncodeOfDecode : Obligations.InstrEncodeOfDecode := by
  intro p bs i rest h
  obtain ⟨hwf, hbytes⟩ := encodes_of_decode h
  exact ⟨hwf, decode_port p bs rest i h, hbytes⟩

/-- Settles O7: each word is computed at its place. -/
theorem tableWordsDecode : Obligations.TableWordsDecode := by
  unfold Obligations.TableWordsDecode
  decide

/-! ### What a step fetches -/

theorem fetchUnit_of_decode {p : Port} {bs rest : Bytes} {i : Instr} (s : State) (h : decode p bs = .ok (i, rest)) :
    fetchUnit p bs s = .instr i s := by
  rw [fetchUnit, h]

/-- With a DECODE in progress, the step runs the wire unit it stands at (R202). -/
theorem step_of_unitAt {s : State} {i : Instr} (h : unitAt s i) : step s = exec i s := by
  obtain ⟨rest, ⟨hphase, hlen, hdecode⟩ | ⟨hphase, hdecode⟩ | ⟨hphase, hdecode⟩ | ⟨hphase, hlt, hdecode⟩⟩ := h
  · simp only [step, fetch, fetchWalk, hphase, Nat.not_lt.2 hlen, if_false, fetchUnit_of_decode s hdecode]
  · simp only [step, fetch, fetchWalk, hphase, fetchUnit_of_decode s hdecode]
  · simp only [step, fetch, fetchWalk, hphase, fetchUnit_of_decode s hdecode]
  · simp only [step, fetch, fetchWalk, hphase, ge_iff_le, Nat.not_le.2 hlt, if_false, fetchUnit_of_decode s hdecode]

/-- Settles O8: a CMD write is read by `decodeCmd`, and the four places of a frame are those of `unitAt`. -/
theorem stepRunsDecodedInstruction : Obligations.StepRunsDecodedInstruction := by
  refine ⟨fun s w rest i hnext hdecode => ?_, fun s i rest => ⟨?_, ?_, ?_, ?_⟩⟩
  · cases hdecode
    exact step_write_cmd s w rest hnext
  · exact fun hphase hlen hdecode => step_of_unitAt ⟨rest, .inl ⟨hphase, hlen, hdecode⟩⟩
  · exact fun hphase hdecode => step_of_unitAt ⟨rest, .inr (.inl ⟨hphase, hdecode⟩)⟩
  · exact fun hphase hdecode => step_of_unitAt ⟨rest, .inr (.inr (.inl ⟨hphase, hdecode⟩))⟩
  · exact fun hphase hlt hdecode => step_of_unitAt ⟨rest, .inr (.inr (.inr ⟨hphase, hlt, hdecode⟩))⟩

/-! ### The placed word (log 9) -/

/-- A word of the table is below its width's bound, and decodes at its place. -/
theorem decodeTableWord_some {nbits w : Nat} {i : Instr} (h : decodeTableWord nbits w = some i) :
    ∃ p rest, tablePort nbits w = some p ∧ decode p (tableBytes nbits w ++ zeros 16) = .ok (i, rest) := by
  unfold decodeTableWord at h
  split at h
  · cases h
  · split at h
    · cases h
    · next p hp =>
      split at h
      · next rest hd => cases h; exact ⟨p, rest, hp, hd⟩
      · cases h

/-- The width and value of a word read at a place. -/
theorem tablePort_cases {nbits w : Nat} {p : Port} (h : tablePort nbits w = some p) :
    (p = .profile ∧ nbits = 16) ∨ (nbits = 8 ∧ (p = .cmd ∧ w < 256 ∨ p = .byte0 ∨ p = .ctrl)) := by
  unfold tablePort at h
  split_ifs at h with h16 h8 hcmd hver
  · cases h; exact .inl ⟨rfl, h16⟩
  · cases h; exact .inr ⟨h8, .inl ⟨rfl, by omega⟩⟩
  · cases h; exact .inr ⟨h8, .inr (.inl rfl)⟩
  · cases h; exact .inr ⟨h8, .inr (.inr rfl)⟩

/-- Settles O9: the placed state stands at the word: a CMD write is pending, or `unitAt` holds. -/
theorem placedWordIsRun : Obligations.PlacedWordIsRun := by
  intro s nbits w i h
  obtain ⟨p, rest, hport, hdecode⟩ := decodeTableWord_some h
  have hp := decode_port _ _ _ _ hdecode
  obtain ⟨rfl, rfl⟩ | ⟨rfl, ⟨rfl, hw⟩ | rfl | rfl⟩ := tablePort_cases hport
  · rw [if_neg (by rw [hp]; decide)]
    refine step_of_unitAt ⟨rest, .inr (.inr (.inl ?_))⟩
    simpa [State.withFetchWord, State.placeWord, hport, Walk.idle] using hdecode
  · cases hdecode
    rw [if_pos hp, State.withFetchWord, State.placeWord, hport]
    exact step_cmd _ w s.pending rfl rfl hw
  · rw [if_neg (by rw [hp]; decide)]
    refine step_of_unitAt ⟨rest, .inl ?_⟩
    simpa [State.withFetchWord, State.placeWord, hport, zeros] using hdecode
  · rw [if_neg (by rw [hp]; decide)]
    cases hdecode
    refine step_of_unitAt ⟨zeros 19, .inr (.inr (.inr ?_))⟩
    simp [State.withFetchWord, State.placeWord, hport, Walk.idle, tableBytes, decode]

end Sys2Proof.Machine
end

section
/-! What the engine can leave, a step with nothing from the host, reset, the marks, and the inputs of a command
(10_state.md R46 to R49, 60_exceptions.md R228, 70_reset_and_hazards.md R250 to R252). -/

namespace Sys2Proof.Machine

open Sys2Proof.Obl

/-! ### What the engine can leave -/

/-- The states an instruction, or another part of a DECODE, can leave: the ends of the three commands and DECODE's local state
replaced. -/
inductive EngineMove (s : State) : State → Prop where
  | complete (op : Command) : EngineMove s (s.complete op)
  | raise (op : Command) (e : Err) : EngineMove s (s.raise op e)
  | commitPacket (p : Packet) : EngineMove s (s.commitPacket p)
  | commitFrame : EngineMove s (s.commitFrame s.pkt)
  | appended : EngineMove s s.appended
  | setWalk (w : Walk) : EngineMove s (s.setWalk w)

theorem execWire_engineMove {i : Instr} {s t : State} (hi : i.port ≠ .cmd) (h : exec i s = .next t) : EngineMove s t := by
  obtain ⟨t', ht', hwire⟩ := execWire_next i s hi
  cases ht'.symm.trans h
  obtain ⟨w, rfl⟩ | ⟨e, rfl⟩ := hwire
  · exact .setWalk w
  · exact .raise .decode e

theorem exec_engineMove {i : Instr} {s t : State} (h : exec i s = .next t) : EngineMove s t := by
  cases i with
  | decode =>
    obtain ⟨-, ⟨p, -, rfl⟩ | ⟨e, -, rfl⟩⟩ := (execDecode_next s t).1 h
    · exact .commitPacket p
    · exact .raise .decode e
  | encode =>
    obtain ⟨-, ⟨-, rfl⟩ | ⟨e, -, rfl⟩⟩ := (execEncode_next s t).1 h
    · exact .commitFrame
    · exact .raise .encode e
  | addExt =>
    obtain ⟨-, ⟨-, rfl⟩ | ⟨-, -, rfl⟩ | ⟨-, -, rfl⟩⟩ := (execAddExt_next s t).1 h
    · exact .raise .addExt .invalidArgument
    · exact .complete .addExt
    · exact .appended
  | reservedCmd w => cases h
  | _ => exact execWire_engineMove (by simp [Instr.port]) h

theorem walkWords_engineMove (s : State) : EngineMove s (walkWords s) := by
  simp only [walkWords]
  split
  · exact .raise ..
  · exact .setWalk _

theorem walkExtLength_engineMove (s : State) : EngineMove s (walkExtLength s) := by
  simp only [walkExtLength]
  split
  · exact .raise ..
  · exact .setWalk _

theorem walkTail_engineMove (s : State) : EngineMove s (walkTail s) := by
  simp only [walkTail]
  split
  · exact .raise ..
  · exact .commitPacket _

/-- A step of a DECODE in progress. -/
theorem step_walk_engineMove {s t : State} (hwalk : s.walk.phase ≠ .idle) (h : step s = .next t) : EngineMove s t := by
  obtain ⟨i, -, hexec⟩ | ⟨e, rfl⟩ | ⟨-, rfl⟩ | ⟨-, rfl⟩ | ⟨-, -, rfl⟩ | ⟨-, rfl⟩ := step_walk_next s t hwalk h
  · exact exec_engineMove hexec
  · exact .raise ..
  · exact walkWords_engineMove s
  · exact walkExtLength_engineMove s
  · exact .setWalk _
  · exact walkTail_engineMove s

/-! ### What the engine leaves alone -/

/-- The parameters, the marks and the six elements that only the host writes (R46). -/
abbrev SameHostOwned (s t : State) : Prop :=
  t.params = s.params ∧ t.ibuf = s.ibuf ∧ t.ilen = s.ilen ∧ t.cap = s.cap ∧ t.argbuf = s.argbuf ∧ t.argId = s.argId ∧
    t.argLen = s.argLen

theorem EngineMove.sameHostOwned {s t : State} (h : EngineMove s t) : SameHostOwned s t := by
  cases h with
  | raise op e => cases op <;> exact ⟨rfl, rfl, rfl, rfl, rfl, rfl, rfl⟩
  | _ => exact ⟨rfl, rfl, rfl, rfl, rfl, rfl, rfl⟩

/-- Nor does the engine write what the host does next and has read. -/
theorem EngineMove.sameHostSide {s t : State} (h : EngineMove s t) : SameHostSide s t := by
  cases h with
  | raise op e => cases op <;> exact ⟨rfl, rfl, rfl, rfl, rfl, rfl, rfl, rfl, rfl, rfl⟩
  | _ => exact ⟨rfl, rfl, rfl, rfl, rfl, rfl, rfl, rfl, rfl, rfl⟩

/-- A command ends with its local state (R49). -/
theorem exec_command_walk {i : Instr} {s t : State} (hi : i.port = .cmd) (h : exec i s = .next t) : t.walk = Walk.idle := by
  cases i with
  | decode => obtain ⟨-, ⟨p, -, rfl⟩ | ⟨e, -, rfl⟩⟩ := (execDecode_next s t).1 h <;> rfl
  | encode => obtain ⟨-, ⟨-, rfl⟩ | ⟨e, -, rfl⟩⟩ := (execEncode_next s t).1 h <;> rfl
  | addExt => obtain ⟨-, ⟨-, rfl⟩ | ⟨-, -, rfl⟩ | ⟨-, -, rfl⟩⟩ := (execAddExt_next s t).1 h <;> rfl
  | reservedCmd w => cases h
  | _ => cases hi

/-- A CMD word stands at the command port. -/
theorem decodeCmd_port (w : Byte) : (decodeCmd w).port = .cmd := decode_port .cmd [w] [] _ rfl

/-- No host access changes the parameters. -/
theorem hostAccess_params {op : HostOp} {s t : State} (h : hostAccess op s = .next t) : t.params = s.params := by
  obtain ⟨n, v, r, -, -, -, -, rfl⟩ | ⟨b, off, bs, -, -, -, rfl⟩ | ⟨v, -, -, rfl⟩ | ⟨v, rfl⟩ | ⟨-, rfl⟩ :=
    hostAccess_next op s t h
  · exact State.setReg_params s r v
  · exact State.setBuffer_params s b _
  · exact State.setSeq_params s v
  · rfl
  · rfl

/-- No host access puts a DECODE in progress. -/
theorem hostAccess_walk {op : HostOp} {s t : State} (h : hostAccess op s = .next t) :
    t.walk = s.walk ∨ t.walk = Walk.idle := by
  obtain ⟨n, v, r, -, -, -, -, rfl⟩ | ⟨b, off, bs, -, -, -, rfl⟩ | ⟨v, -, -, rfl⟩ | ⟨v, rfl⟩ | ⟨-, rfl⟩ :=
    hostAccess_next op s t h
  · exact .inl (State.setReg_walk s r v)
  · exact .inl (State.setBuffer_walk s b _)
  · exact .inl (State.setSeq_walk s v)
  · exact .inl rfl
  · exact .inr rfl

/-- Settles O58: a command ends with its local state, and a host access keeps the idle one. -/
theorem noLocalStateBetweenCommands : Obligations.NoLocalStateBetweenCommands := by
  intro s t hidle h
  obtain ⟨-, rfl⟩ | ⟨v, rest, -, -, hexec⟩ | ⟨op, rest, -, -, haccess⟩ := step_idle_next s t (by rw [hidle]; rfl) h
  · exact hidle
  · exact exec_command_walk (decodeCmd_port _) hexec
  · exact (hostAccess_walk haccess).elim (·.trans hidle) id

/-- A step that is no host access leaves alone what only the host writes. -/
theorem step_sameHostOwned {s t : State} (h : step s = .next t)
    (hengine : s.walk.phase ≠ .idle ∨ s.pending = [] ∨
      ∃ (v : Nat) (rest : List HostOp), s.pending = .write 0x00 v :: rest) : SameHostOwned s t := by
  by_cases hidle : s.walk.phase = .idle
  · obtain ⟨-, rfl⟩ | ⟨v, rest, -, -, hexec⟩ | ⟨op, rest, hpending, hop, -⟩ := step_idle_next s t hidle h
    · exact ⟨rfl, rfl, rfl, rfl, rfl, rfl, rfl⟩
    · exact (exec_engineMove hexec).sameHostOwned
    · obtain hwalk | hnone | ⟨v, rest', hcmd⟩ := hengine
      · exact absurd hidle hwalk
      · cases hpending.symm.trans hnone
      · cases hpending.symm.trans hcmd
        exact absurd rfl (hop v)
  · exact (step_walk_engineMove hidle h).sameHostOwned

theorem step_params {s t : State} (h : step s = .next t) : t.params = s.params := by
  by_cases hidle : s.walk.phase = .idle
  · obtain ⟨-, rfl⟩ | ⟨v, rest, -, -, hexec⟩ | ⟨op, rest, -, -, haccess⟩ := step_idle_next s t hidle h
    · rfl
    · exact (exec_engineMove hexec).sameHostOwned.1
    · exact (hostAccess_params haccess :)
  · exact (step_walk_engineMove hidle h).sameHostOwned.1

/-- Settles O59: every move of the engine leaves the six elements alone, and no access writes the parameters. -/
theorem onlyTheHostWritesFrameCapAndArguments : Obligations.OnlyTheHostWritesFrameCapAndArguments := by
  intro s t h
  refine ⟨step_params h, fun hengine => ?_⟩
  obtain ⟨-, hibuf, hilen, hcap, hargbuf, hargId, hargLen⟩ := step_sameHostOwned h hengine
  exact ⟨fun a => by rw [hibuf], hilen, hcap, fun a => by rw [hargbuf], hargId, hargLen⟩

/-! ### Idle and reset -/

/-- Settles O10: with no DECODE in progress the step looks at the host, which has nothing. -/
theorem idleKeepsState : Obligations.IdleKeepsState := by
  intro s hidle hpending
  rw [step_idle s hidle, fetchHost, hpending]

/-- Settles O11: the reset state is written out; nothing is in W and the buffers list no byte. -/
theorem resetState : Obligations.ResetState :=
  ⟨rfl, Written.reg_none, Written.seq_none, fun b _ => by cases b <;> rfl, rfl, rfl, rfl⟩

/-- Settles O12: the operation is an access, which answers the reset state with the host's own fields kept. -/
theorem resetOperation : Obligations.ResetOperation := by
  intro s rest ⟨hidle, hpending⟩
  exact ⟨_, step_access s .reset rest hidle hpending nofun, rfl, Written.reg_none, Written.seq_none,
    fun b _ => by cases b <;> rfl, rfl, rfl, rfl, rfl, rfl⟩

/-! ### The marks -/

/-- A stop by a fault leaves the state without the operation taken, and with the fault mark set (R48). -/
theorem stepMarked_of_fault {s : State} {f : Fault} (h : step s = .fault f) :
    stepMarked s = { s.dropOp with faultMark := true } := by
  simp [stepMarked, h]

/-- A fault mark stays set over every step but a reset, stops included (R48). -/
theorem stepMarked_keeps_faultMark (s : State) (hmark : s.faultMark = true) (hreset : ∀ rest, ¬Next s .reset rest) :
    (stepMarked s).faultMark = true := by
  unfold stepMarked
  split
  · next t h => exact (step_sameMarks s t hreset h).1.trans hmark
  · rfl
  · exact hmark

/-- Settles O15: a stop sets its own mark, and a step that answers keeps both unless it is a reset. -/
theorem marksAreSticky : Obligations.MarksAreSticky := by
  intro s
  refine ⟨fun f h => stepMarked_of_fault h, fun r h => stepMarked_of_refused s r h, fun hreset => ⟨?_, ?_⟩⟩
  · exact fun hmark => stepMarked_keeps_faultMark s hmark hreset
  · exact fun hmark => stepMarked_keeps_refusalMark s hmark hreset

/-! ### The inputs of a command (R48) -/

/-- A command answers exactly when its inputs are written. -/
theorem written_iff_next (c : Command) (s : State) (run : State → State) :
    (∀ e ∈ c.inputs, s.isWritten e = true) ↔ ∃ t, withInputs c s run = .next t := by
  simp only [withInputs_next, exists_and_left, exists_eq, and_true]

/-- A command faults exactly when an input is unwritten, and names an unwritten one. -/
theorem not_written_iff_fault (c : Command) (s : State) (run : State → State) :
    (¬∀ e ∈ c.inputs, s.isWritten e = true) ↔
      ∃ e, e ∈ c.inputs ∧ s.isWritten e = false ∧ withInputs c s run = .fault (.unwritten e) := by
  constructor
  · intro h
    rw [← firstUnwritten_eq_none] at h
    obtain ⟨e, he⟩ := Option.ne_none_iff_exists'.1 h
    obtain ⟨hmem, hunwritten⟩ := firstUnwritten_some s _ e he
    exact ⟨e, hmem, hunwritten, by rw [withInputs, he]⟩
  · rintro ⟨e, hmem, hunwritten, -⟩ hwritten
    simp [hwritten e hmem] at hunwritten

/-- The first listed input is the one named, when it is unwritten (log 3). -/
theorem withInputs_fault_first {c : Command} {s : State} {run : State → State} {e : Elt} {es : List Elt}
    (hinputs : c.inputs = e :: es) (h : s.isWritten e = false) : withInputs c s run = .fault (.unwritten e) := by
  rw [withInputs, State.firstUnwritten, hinputs, List.find?_cons_of_pos (by simp [h])]

/-- DECODE's inputs are written exactly when the host has given it a frame. -/
theorem decodeInputs_iff_holdsFrame (s : State) :
    (∀ e ∈ Command.decode.inputs, s.isWritten e = true) ↔ ∃ B, HoldsFrame s B := by
  refine ⟨fun h => ?_, fun ⟨B, hframe⟩ => (inFrame_of_holdsFrame hframe).1⟩
  obtain ⟨hilen, hrange⟩ := (decodeInputs_written s).1 h
  obtain ⟨hlen, hbytes⟩ := (Memory.readRange_eq_some ..).1 hrange
  exact ⟨s.inFrame, hilen, hlen.symm, fun k hk => by simpa using hbytes k hk⟩

/-- ADD_EXT's inputs are written exactly when the host has given it its arguments. -/
theorem addExtInputs_iff_holdsArgs (s : State) :
    (∀ e ∈ Command.addExt.inputs, s.isWritten e = true) ↔ ∃ d, HoldsArgs s d := by
  refine ⟨fun h => ?_, fun ⟨d, hargs⟩ => (argData_of_holdsArgs hargs).1⟩
  obtain ⟨hid, hargLen, hargbuf, helems, htotal⟩ :
      s.written.argId = true ∧ s.written.argLen = true ∧ (s.argbuf.readRange 0 s.argLen).isSome = true ∧
        s.written.extensionElements = true ∧ s.written.extBytes = true := by
    simpa [Command.inputs, addExtInputs, State.isWritten, Written.reg, Written.seq] using h
  obtain ⟨d, hrange⟩ := Option.isSome_iff_exists.1 hargbuf
  obtain ⟨hlen, hbytes⟩ := (Memory.readRange_eq_some ..).1 hrange
  exact ⟨d, hid, hargLen, hlen.symm, fun k hk => by simpa using hbytes k hk, helems, htotal⟩

/-- Settles O13: each command is `withInputs` over its own list, and that list is written exactly when the host has given the
command its inputs. -/
theorem unwrittenInputFaults : Obligations.UnwrittenInputFaults := by
  intro s
  rw [← decodeInputs_iff_holdsFrame, ← encodeInputs_written, ← addExtInputs_iff_holdsArgs]
  exact ⟨written_iff_next .decode s _, not_written_iff_fault .decode s _, written_iff_next .encode s _,
    not_written_iff_fault .encode s _, written_iff_next .addExt s _, not_written_iff_fault .addExt s _,
    fun h => withInputs_fault_first rfl h, fun h => withInputs_fault_first rfl h, fun h => withInputs_fault_first rfl h⟩

end Sys2Proof.Machine
end

section
/-! DECODE: the bounds of the iterator, everything a frame can decode to, and what a run of DECODE reads and leaves
(41_decoder.md R132 to R152, 43_extension_block.md R201). -/

namespace Sys2Proof.Machine

open Sys2Proof.Obl

/-! ### The iterator's bounds and the elements it ends with -/

/-- Settles O17: `IterRunning` bounds the cursor, and its elements have distinct ids from 1 to 14. -/
theorem iteratorEndsInBounds : Obligations.IteratorEndsInBounds := by
  refine fun body => ⟨fun k i es seen h => ?_, iterRun_ends body⟩
  have hrunning := iterRun_running body k i es seen h
  exact ⟨hrunning.steps_le, hrunning.cursor_le,
    elements_length_le es (fun e he => (hrunning.valid e he).1) (hrunning.ids ▸ hrunning.nodup)⟩

/-- R34: what the parser returns satisfies the element invariants, for the iterator had it while it ran. -/
theorem parseBlock_elementsOk {body : Bytes} {es : List Element} (h : parseBlock body = some es) : elementsOk es := by
  obtain ⟨k, i, seen, hrunning⟩ := iterRun_done_running _ _ _ ((parseBlock_eq_some_iff body es).1 h)
  have hids : (es.map Element.id).Nodup := hrunning.ids ▸ hrunning.nodup
  exact ⟨elements_length_le es (fun e he => (hrunning.valid e he).1) hids, hrunning.valid, hids⟩

/-- R34 with its bounds side by side. -/
theorem elementsOk_iff (es : List Element) :
    elementsOk es ↔
      es.length ≤ 14 ∧ (∀ e ∈ es, 1 ≤ e.id.toNat ∧ e.id.toNat ≤ 14 ∧ 1 ≤ e.data.length ∧ e.data.length ≤ 16) ∧
        (es.map Element.id).Nodup := by
  simp only [elementsOk, and_assoc]

/-- Settles O18: the parser's answer is what the iterator ended with. -/
theorem parsedElementsAreValid : Obligations.ParsedElementsAreValid :=
  fun _ es h => (elementsOk_iff es).1 (parseBlock_elementsOk h)

/-! ### Everything the parts of DECODE can answer -/

theorem readExtLength_error {B : Bytes} {cur : Nat} {e : Err} (h : readExtLength B cur = .error e) : e = .truncated := by
  simp only [readExtLength] at h
  split_ifs at h <;> cases h <;> rfl

theorem readExtLength_eq_ok {B : Bytes} {cur n : Nat} (h : readExtLength B cur = .ok n) :
    n = 4 * (be16 (slice B cur 2)).toNat ∧ cur + 2 + n ≤ B.length := by
  simp only [readExtLength] at h
  split_ifs at h
  cases h
  exact ⟨rfl, by omega⟩

theorem readExtension_error {B : Bytes} {cur : Nat} {e : Err} (h : readExtension B cur = .error e) :
    e = .truncated ∨ e = .malformed ∨
      (e = .unsupportedExtensionProfile ∧ cur + 2 ≤ B.length ∧ be16 (slice B cur 2) ≠ 0xBEDE) := by
  unfold readExtension at h
  split at h
  · cases h; exact .inl rfl
  · next hroom =>
    split at h
    · next hprofile => cases h; exact .inr (.inr ⟨rfl, Nat.not_lt.1 hroom, hprofile⟩)
    · split at h
      · next hlen => cases h; exact .inl (readExtLength_error hlen)
      · split at h
        · cases h; exact .inr (.inl rfl)
        · cases h

theorem readExtension_ok {B : Bytes} {cur ps : Nat} {es : List Element} (h : readExtension B cur = .ok (es, ps)) :
    be16 (slice B cur 2) = 0xBEDE ∧ ∃ body, parseBlock body = some es := by
  unfold readExtension at h
  split at h
  · cases h
  · split at h
    · cases h
    · next hprofile =>
      split at h
      · cases h
      · split at h
        · cases h
        · next hparse => cases h; exact ⟨not_not.1 hprofile, _, hparse⟩

theorem readTail_error {B : Bytes} {ps : Nat} {f : Bit} {e : Err} (h : readTail B ps f = .error e) : e = .malformed := by
  simp only [readTail] at h
  split_ifs at h
  cases h
  rfl

/-- R145, R146: with the padding flag the size is at least 1, and without it is 0. -/
theorem readTail_ok {B : Bytes} {ps : Nat} {f : Bit} {pay : Bytes} {n : Byte} (h : readTail B ps f = .ok (pay, n)) :
    f = 1 ↔ 0 < n.toNat := by
  simp only [readTail] at h
  split_ifs at h with hflag hbad
  · cases h
    exact iff_of_true hflag (by bv_omega)
  · cases h
    exact iff_of_false hflag (by decide)

/-! ### Everything a frame can decode to -/

/-- The record built from a frame's fixed words and what S5 to S9 read (R148). -/
def frameRecord (B : Bytes) (cs : List Word32) (es : List Element) (pay : Bytes) (n : Byte) : Packet :=
  { version := ver B, padding := padFlag B, hasExtension := extFlag B, csrcCount := (unpack0 (byteAt B 0)).2.2.2
    marker := (unpack1 (byteAt B 1)).1, payloadType := (unpack1 (byteAt B 1)).2
    sequenceNumber := be16 (slice B 2 2), timestamp := be32 (slice B 4 4), ssrc := be32 (slice B 8 4)
    extensionProfile := if extFlag B = 1 then 0xBEDE else 0x0000
    csrcList := cs, extensionElements := es, paddingSize := n, payload := pay, extBytes := elementBytes es }

theorem decodeFrame_of_read {B : Bytes} {cs : List Word32} {es : List Element} {ps : Nat} {pay : Bytes} {n : Byte}
    (hpast : PastVersion B) (hcs : readCsrcs B 12 (csrcs B) = some cs) (hext : frameExtension B = .ok (es, ps))
    (htail : readTail B ps (padFlag B) = .ok (pay, n)) : decodeFrame B = .ok (frameRecord B cs es pay n) := by
  obtain ⟨hlen, hversion⟩ := hpast
  unfold frameExtension at hext
  rw [decodeFrame, if_neg (Nat.not_lt.2 hlen)]
  simp only [hversion, ne_eq, not_true_eq_false, if_false, hcs, hext, htail, frameRecord]

/-- The steps of DECODE, the first that fails ending it (R132 to R149). -/
theorem decodeFrame_cases (B : Bytes) :
    (B.length < 12 ∧ decodeFrame B = .error .truncated) ∨
    (12 ≤ B.length ∧ ver B ≠ 2 ∧ decodeFrame B = .error .unsupportedVersion) ∨
    (PastVersion B ∧ readCsrcs B 12 (csrcs B) = none ∧ decodeFrame B = .error .truncated) ∨
    (PastVersion B ∧ ∃ cs, readCsrcs B 12 (csrcs B) = some cs ∧
      ((∃ e, frameExtension B = .error e ∧ decodeFrame B = .error e) ∨
        ∃ es ps, frameExtension B = .ok (es, ps) ∧
          ((readTail B ps (padFlag B) = .error .malformed ∧ decodeFrame B = .error .malformed) ∨
            ∃ pay n, readTail B ps (padFlag B) = .ok (pay, n) ∧ decodeFrame B = .ok (frameRecord B cs es pay n)))) := by
  by_cases hlen : B.length < 12
  · exact .inl ⟨hlen, decodeFrame_of_short hlen⟩
  have hroom : 12 ≤ B.length := Nat.not_lt.1 hlen
  by_cases hversion : ver B = 2
  swap
  · exact .inr (.inl ⟨hroom, hversion, decodeFrame_of_version_ne hroom hversion⟩)
  have hpast : PastVersion B := ⟨hroom, hversion⟩
  by_cases hshort : B.length < extStart B
  · exact .inr (.inr (.inl ⟨hpast, (readCsrcs_frame_eq_none hroom).2 hshort, decodeFrame_of_csrcs_short hpast hshort⟩))
  have hfits : PastCsrcs B := ⟨hpast, Nat.not_lt.1 hshort⟩
  obtain ⟨cs, hcs⟩ := Option.ne_none_iff_exists'.1 (mt (readCsrcs_frame_eq_none hroom).1 hshort)
  refine .inr (.inr (.inr ⟨hpast, cs, hcs, ?_⟩))
  cases hext : frameExtension B with
  | error e => exact .inl ⟨e, rfl, decodeFrame_of_pastCsrcs_error hfits (.inl hext)⟩
  | ok r =>
    refine .inr ⟨r.1, r.2, rfl, ?_⟩
    cases htail : readTail B r.2 (padFlag B) with
    | error e =>
      obtain rfl := readTail_error htail
      exact .inl ⟨rfl, decodeFrame_of_pastCsrcs_error hfits (.inr ⟨r.1, r.2, hext, htail⟩)⟩
    | ok q => exact .inr ⟨q.1, q.2, rfl, decodeFrame_of_read hpast hcs hext htail⟩

/-- A frame that decodes passed every step, and the record is built from what they read. -/
theorem decodeFrame_ok {B : Bytes} {p : Packet} (h : decodeFrame B = .ok p) :
    PastVersion B ∧ ∃ cs es ps pay n, readCsrcs B 12 (csrcs B) = some cs ∧ frameExtension B = .ok (es, ps) ∧
      readTail B ps (padFlag B) = .ok (pay, n) ∧ p = frameRecord B cs es pay n := by
  obtain ⟨-, he⟩ | ⟨-, -, he⟩ | ⟨-, -, he⟩ |
    ⟨hpast, cs, hcs, ⟨e, -, he⟩ | ⟨es, ps, hext, ⟨-, he⟩ | ⟨pay, n, htail, hp⟩⟩⟩ := decodeFrame_cases B
  · cases he.symm.trans h
  · cases he.symm.trans h
  · cases he.symm.trans h
  · cases he.symm.trans h
  · cases he.symm.trans h
  · cases hp.symm.trans h
    exact ⟨hpast, cs, es, ps, pay, n, hcs, hext, htail, rfl⟩

/-- S6's errors: the profile's is only for a frame with the extension flag and room for another profile (R139). -/
theorem frameExtension_error {B : Bytes} {e : Err} (h : frameExtension B = .error e) :
    e = .truncated ∨ e = .malformed ∨
      (e = .unsupportedExtensionProfile ∧ extFlag B = 1 ∧ extStart B + 2 ≤ B.length ∧
        be16 (slice B (extStart B) 2) ≠ 0xBEDE) := by
  unfold frameExtension at h
  split at h
  · next hflag =>
    exact (readExtension_error h).imp_right (.imp_right fun ⟨he, hroom, hprofile⟩ => ⟨he, hflag, hroom, hprofile⟩)
  · cases h

/-- Without the extension flag there are no elements; with it the profile is 0xBEDE and a body parsed to them (R137 to R142). -/
theorem frameExtension_ok {B : Bytes} {es : List Element} {ps : Nat} (h : frameExtension B = .ok (es, ps)) :
    (extFlag B ≠ 1 ∧ es = []) ∨
      (extFlag B = 1 ∧ be16 (slice B (extStart B) 2) = 0xBEDE ∧ ∃ body, parseBlock body = some es) := by
  unfold frameExtension at h
  split at h
  · next hflag => exact .inr ⟨hflag, readExtension_ok h⟩
  · next hflag => cases h; exact .inl ⟨hflag, rfl⟩

/-- The errors of a frame, each with what the frame then holds (R149). -/
theorem decodeFrame_error {B : Bytes} {e : Err} (h : decodeFrame B = .error e) :
    e = .truncated ∨ e = .malformed ∨ (e = .unsupportedVersion ∧ 12 ≤ B.length ∧ ver B ≠ 2) ∨
      (e = .unsupportedExtensionProfile ∧ extFlag B = 1 ∧ extStart B + 2 ≤ B.length ∧
        be16 (slice B (extStart B) 2) ≠ 0xBEDE) := by
  obtain ⟨-, he⟩ | ⟨hlen, hversion, he⟩ | ⟨-, -, he⟩ |
    ⟨-, cs, -, ⟨e', hext, he⟩ | ⟨es, ps, -, ⟨-, he⟩ | ⟨pay, n, -, hp⟩⟩⟩ := decodeFrame_cases B
  · cases he.symm.trans h; exact .inl rfl
  · cases he.symm.trans h; exact .inr (.inr (.inl ⟨rfl, hlen, hversion⟩))
  · cases he.symm.trans h; exact .inl rfl
  · cases he.symm.trans h
    exact (frameExtension_error hext).imp_right (.imp_right .inr)
  · cases he.symm.trans h; exact .inr (.inl rfl)
  · cases hp.symm.trans h

/-! ### What a run of DECODE leaves -/

/-- The four STATUS words of a failed DECODE (R151). -/
abbrev DecodeErrorStatus (st : Byte) : Prop := st = 0x11 ∨ st = 0x12 ∨ st = 0x13 ∨ st = 0x14

theorem decodeFrame_error_status {B : Bytes} {e : Err} (h : decodeFrame B = .error e) :
    DecodeErrorStatus (statusWord e.code Command.decode.opcode) := by
  obtain rfl | rfl | ⟨rfl, -⟩ | ⟨rfl, -⟩ := decodeFrame_error h <;> decide

/-- No error's STATUS is that of a command that completed (R221 to R223). -/
theorem statusWord_code_ne (e : Err) (c : Command) : statusWord e.code c.opcode ≠ statusWord 0 c.opcode := by
  cases e <;> cases c <;> decide

/-- Everything DECODE can answer: the record committed, or an error in STATUS and nothing else (R148, R222, R224). -/
theorem exec_decode_cases {s t : State} (h : exec .decode s = .next t) :
    (∃ p, decodeFrame s.inFrame = .ok p ∧ t = s.commitPacket p) ∨
      ∃ e, decodeFrame s.inFrame = .error e ∧ t = failed s (statusWord e.code Command.decode.opcode) :=
  ((execDecode_next s t).1 h).2

/-- Settles O22: the frame is the layout of the packet, which decodes to it. -/
theorem decodeCompletes : Obligations.DecodeCompletes := by
  intro s p x cc m pt seq ts ssrc cs ext es payload pad P hcount hext hpad hframe
  exact exec_decode_of_ok hframe (decodeFrame_layout (p :=
    { version := 2, padding := p, hasExtension := x, csrcCount := cc, marker := m, payloadType := pt
      sequenceNumber := seq, timestamp := ts, ssrc := ssrc, extensionProfile := if x = 1 then 0xBEDE else 0x0000
      csrcList := cs, extensionElements := es, paddingSize := P, payload := payload, extBytes := elementBytes es })
    rfl hcount.symm hext rfl hpad rfl)

/-- Settles O23: the frame decodes or has one of the four errors. -/
theorem decodeOutcomes : Obligations.DecodeOutcomes := by
  intro s B hframe
  cases hB : decodeFrame B with
  | ok p => exact ⟨_, exec_decode_of_ok hframe hB, .inl rfl, fun hne => absurd rfl hne⟩
  | error e => exact ⟨_, exec_decode_of_error hframe hB, .inr (decodeFrame_error_status hB), fun _ => rfl⟩

/-- R152: the properties of a record that a frame decodes to. -/
theorem decodeFrame_record {B : Bytes} {p : Packet} (h : decodeFrame B = .ok p) :
    p.version = 2 ∧ p.csrcCount.toNat = p.csrcList.length ∧ elementsOk p.extensionElements ∧
      (p.padding = 1 ↔ 0 < p.paddingSize.toNat) ∧ p.extBytes = elementBytes p.extensionElements ∧
      p.extensionProfile = (if p.hasExtension = 1 then 0xBEDE else 0x0000) ∧
      (p.extensionElements ≠ [] → p.hasExtension = 1) := by
  obtain ⟨⟨-, hversion⟩, cs, es, ps, pay, n, hcs, hext, htail, rfl⟩ := decodeFrame_ok h
  have helems : elementsOk es ∧ (es ≠ [] → extFlag B = 1) := by
    obtain ⟨-, rfl⟩ | ⟨hflag, -, body, hparse⟩ := frameExtension_ok hext
    · exact ⟨by decide, fun hne => absurd rfl hne⟩
    · exact ⟨parseBlock_elementsOk hparse, fun _ => hflag⟩
  exact ⟨hversion, (readCsrcs_length _ _ _ _ hcs).symm, helems.1, readTail_ok htail, rfl, rfl, helems.2⟩

/-- A flag is set exactly when a condition holds, as R45 writes it. -/
theorem bit_eq_ite_iff (b : Bit) (c : Prop) [Decidable c] : (b = if c then 1 else 0) ↔ (b = 1 ↔ c) := by
  by_cases hc : c
  · simp only [hc, if_true, iff_true]
  · simp only [hc, if_false, iff_false]
    bv_omega

/-- R152: a decoded record is canonical unless the extension flag is set without an element. -/
theorem canonical_iff_of_decodeFrame {B : Bytes} {p : Packet} (h : decodeFrame B = .ok p) :
    p.canonical ↔ ¬(p.hasExtension = 1 ∧ p.extensionElements = []) := by
  obtain ⟨hversion, hcount, helems, hpad, hbytes, hprofile, hflag⟩ := decodeFrame_record h
  have hcsrcs : p.csrcList.length ≤ 15 := by
    have := p.csrcCount.isLt
    omega
  rw [Packet.canonical, bit_eq_ite_iff, bit_eq_ite_iff, gt_iff_lt, List.length_pos_iff]
  constructor
  · rintro ⟨-, -, -, hext, -⟩ ⟨hset, hnil⟩
    exact hext.1 hset hnil
  · intro hnot
    exact ⟨hversion, ⟨hcount, hcsrcs⟩, helems, ⟨fun hset hnil => hnot ⟨hset, hnil⟩, hflag⟩, hprofile, hpad, hbytes⟩

/-- Settles O24: STATUS 0x10 is left by a commit only, and the record committed has R152's properties. -/
theorem decodedRecordIsValid : Obligations.DecodedRecordIsValid := by
  intro s t h hstatus
  obtain ⟨p, hp, rfl⟩ | ⟨e, -, rfl⟩ := exec_decode_cases h
  · obtain ⟨hversion, hcount, helems, hpad, hbytes, -⟩ := decodeFrame_record hp
    obtain ⟨hlen, hvalid, hids⟩ := (elementsOk_iff _).1 helems
    have hcsrcs : p.csrcList.length ≤ 15 := by
      have := p.csrcCount.isLt
      omega
    exact ⟨hversion, hcount, hcsrcs, hlen, hvalid, hids, hpad, hbytes, canonical_iff_of_decodeFrame hp⟩
  · exact absurd hstatus (statusWord_code_ne e .decode)

/-- Settles O26: a commit writes PKT, W and STATUS; an error writes STATUS. -/
theorem execDecode_frame : Obligations.DecodeFrame := by
  intro s t h
  have hhost := (exec_engineMove h).sameHostSide
  obtain ⟨p, -, rfl⟩ | ⟨e, -, rfl⟩ := exec_decode_cases h
  · exact ⟨fun b _ => by cases b <;> rfl, hhost, rfl, rfl, fun _ => rfl, fun hne => absurd rfl hne⟩
  · exact ⟨fun b _ => by cases b <;> rfl, hhost, rfl, rfl,
      fun hstatus => absurd hstatus (statusWord_code_ne e .decode), fun _ => ⟨rfl, rfl⟩⟩

/-! ### What DECODE reads -/

/-- A range reads alike in two memories that agree on it. -/
theorem Memory.readRange_congr {m m' : Memory} {off n : Nat} (h : ∀ k, off ≤ k → k < off + n → m.read k = m'.read k) :
    m.readRange off n = m'.readRange off n := by
  induction n generalizing off with
  | zero => rfl
  | succ n ih =>
    rw [Memory.readRange, Memory.readRange, h off (Nat.le_refl _) (by omega), ih fun k h1 h2 => h k (by omega) (by omega)]

/-- Settles O25: another input buffer that agrees below ILEN holds the same frame. -/
theorem decodeReadsOnlyItsFrame : Obligations.DecodeReadsOnlyItsFrame := by
  intro s t m hm h
  have hrange : m.readRange 0 s.ilen = s.ibuf.readRange 0 s.ilen :=
    Memory.readRange_congr fun k _ hk => hm k (by omega)
  have hframe : ({ s with ibuf := m } : State).inFrame = s.inFrame := by
    simp only [State.inFrame, State.bytes, State.buffer, hrange]
  obtain ⟨hinputs, hend⟩ := (execDecode_next s t).1 h
  have hinputs' : ∀ e ∈ Command.decode.inputs, ({ s with ibuf := m } : State).isWritten e = true := by
    rw [decodeInputs_written, hframe, hrange]
    exact (decodeInputs_written s).1 hinputs
  refine (execDecode_next ..).2 ⟨hinputs', ?_⟩
  rw [hframe]
  obtain ⟨p, hp, rfl⟩ | ⟨e, he, rfl⟩ := hend
  · exact .inl ⟨p, hp, rfl⟩
  · exact .inr ⟨e, he, rfl⟩

/-! ### A cut frame (R151) -/

theorem byteAt_take {B : Bytes} {i k : Nat} (h : i < k) : byteAt (B.take k) i = byteAt B i := by
  simp [byteAt, h]

theorem slice_take {B : Bytes} {i n k : Nat} (h : i + n ≤ k) : slice (B.take k) i n = slice B i n := by
  simpa [slice] using slice_slice B 0 k i n h

/-- A cut frame has neither of the two errors that a field's value makes, when the frame it was cut from has not. -/
theorem decodeFrame_take_error {B : Bytes} {p : Packet} {k : Nat} {e : Err} (h : decodeFrame B = .ok p)
    (he : decodeFrame (B.take k) = .error e) : e = .truncated ∨ e = .malformed := by
  obtain ⟨⟨-, hversion⟩, cs, es, ps, pay, n, -, hext, -⟩ := decodeFrame_ok h
  obtain rfl | rfl | ⟨-, hlen, hne⟩ | ⟨-, hflag, hroom, hne⟩ := decodeFrame_error he
  · exact .inl rfl
  · exact .inr rfl
  · have hbyte : byteAt (B.take k) 0 = byteAt B 0 := byteAt_take (by rw [List.length_take] at hlen; omega)
    rw [ver, hbyte] at hne
    exact absurd hversion hne
  · have hbyte : byteAt (B.take k) 0 = byteAt B 0 := byteAt_take (by rw [List.length_take] at hroom; omega)
    rw [extFlag, hbyte] at hflag
    rw [extStart, csrcs, hbyte] at hroom hne
    rw [slice_take (by rw [List.length_take] at hroom; omega)] at hne
    obtain ⟨hnot, -⟩ | ⟨-, hprofile, -⟩ := frameExtension_ok hext
    · exact absurd hflag hnot
    · exact absurd hprofile hne

/-- Settles O28: the cut frame decodes, or is Truncated or Malformed. -/
theorem decodeOfCutFrame : Obligations.DecodeOfCutFrame := by
  intro B p k s h hframe
  cases hcut : decodeFrame (B.take k) with
  | ok q => exact ⟨_, exec_decode_of_ok hframe hcut, .inl rfl⟩
  | error e =>
    refine ⟨_, exec_decode_of_error hframe hcut, .inr ?_⟩
    obtain rfl | rfl := decodeFrame_take_error h hcut
    · exact .inl rfl
    · exact .inr rfl

end Sys2Proof.Machine
end

section
/-! ENCODE and ADD_EXT: the frame part by part, and what a run leaves; all commands: STATUS and a second run
(42_encoder.md R160 to R178, 44_extension_registry.md R210 to R215, 20_memory.md R71, 60_exceptions.md R221 to R223). -/

namespace Sys2Proof.Machine

open Sys2Proof.Obl

/-! ### The frame ENCODE writes (R168 to R174) -/

/-- The first 12 bytes, with the extension flag derived from the list (R168). -/
def frameHeader (p : Packet) : Bytes := fixedHeader { p with hasExtension := if p.extensionElements = [] then 0 else 1 }

/-- The frame, part by part (R81). -/
theorem frameBytes_eq_parts (p : Packet) :
    frameBytes p = frameHeader p ++ p.csrcList.flatMap tobe32 ++ extBlock p.extensionElements ++ p.payload ++
      trailer p.paddingSize := rfl

theorem frameHeader_length (p : Packet) : (frameHeader p).length = 12 := rfl

/-- The length up to the extension block (R81). -/
theorem headerAndCsrcs_length (p : Packet) :
    (frameHeader p ++ p.csrcList.flatMap tobe32).length = 12 + 4 * p.csrcList.length := by
  rw [List.length_append, frameHeader_length, flatMap_tobe32_length]

/-- Each word of a list of words stands at its offset. -/
theorem slice_flatMap_tobe32 (pre rest : Bytes) (cs : List Word32) (k : Nat) (h : k < cs.length) :
    slice (pre ++ cs.flatMap tobe32 ++ rest) (pre.length + 4 * k) 4 = tobe32 cs[k] := by
  have hsplit : cs.flatMap tobe32 = (cs.take k).flatMap tobe32 ++ (tobe32 cs[k] ++ (cs.drop (k + 1)).flatMap tobe32) := by
    rw [← List.flatMap_cons, ← List.drop_eq_getElem_cons h, ← List.flatMap_append, List.take_append_drop]
  refine slice_of_eq (a := pre ++ (cs.take k).flatMap tobe32) (c := (cs.drop (k + 1)).flatMap tobe32 ++ rest) ?_ ?_ rfl
  · rw [hsplit]
    simp only [List.append_assoc]
  · rw [List.length_append, flatMap_tobe32_length, List.length_take_of_le (Nat.le_of_lt h)]

/-- R172: the profile, the length and the body, each at its offset. -/
theorem slice_extBlock (pre rest : Bytes) {es : List Element} (h : es ≠ []) :
    slice (pre ++ extBlock es ++ rest) pre.length 2 = [0xBE, 0xDE] ∧
      slice (pre ++ extBlock es ++ rest) (pre.length + 2) 2 = tobe16 (BitVec.ofNat 16 (extWords es)) ∧
      slice (pre ++ extBlock es ++ rest) (pre.length + 4) (4 * extWords es) = writeBlock es := by
  have hblock : extBlock es = [0xBE, 0xDE] ++ tobe16 (BitVec.ofNat 16 (extWords es)) ++ writeBlock es := if_neg h
  rw [hblock]
  refine ⟨?_, ?_, ?_⟩
  · exact slice_of_eq (c := tobe16 (BitVec.ofNat 16 (extWords es)) ++ writeBlock es ++ rest) (by simp) rfl rfl
  · exact slice_of_eq (a := pre ++ [0xBE, 0xDE]) (c := writeBlock es ++ rest) (by simp) (by simp) rfl
  · exact slice_of_eq (a := pre ++ [0xBE, 0xDE] ++ tobe16 (BitVec.ofNat 16 (extWords es))) (c := rest) (by simp)
      (by simp [tobe16_length]) (writeBlock_length es).symm

theorem trailer_of_pos {n : Byte} (h : 0 < n.toNat) : trailer n = List.replicate (n.toNat - 1) 0 ++ [n] :=
  if_neg (by bv_omega)

/-- Settles O31: the frame is its parts in order, so each stands at the length of those before it. -/
theorem encodedFrameLayout : Obligations.EncodedFrameLayout := by
  intro p C eb L ps F
  have hpre : (frameHeader p ++ p.csrcList.flatMap tobe32).length = 12 + 4 * C := headerAndCsrcs_length p
  have hps : (frameHeader p ++ p.csrcList.flatMap tobe32 ++ extBlock p.extensionElements).length = ps := by
    rw [List.length_append, hpre, extBlock_length]
    rfl
  refine ⟨frameBytes_length p, rfl, rfl, rfl, rfl, rfl, fun k hk => ?_, fun hne => ?_, ?_, fun hpos => ?_⟩
  · have hword := slice_flatMap_tobe32 (frameHeader p)
      (extBlock p.extensionElements ++ p.payload ++ trailer p.paddingSize) p.csrcList k hk
    simpa only [F, frameBytes_eq_parts, List.append_assoc, frameHeader_length] using hword
  · have hext := slice_extBlock (frameHeader p ++ p.csrcList.flatMap tobe32) (p.payload ++ trailer p.paddingSize) hne
    rw [hpre, ← List.append_assoc, ← frameBytes_eq_parts] at hext
    rwa [show 14 + 4 * C = 12 + 4 * C + 2 by omega, show 16 + 4 * C = 12 + 4 * C + 4 by omega]
  · exact slice_of_eq (a := frameHeader p ++ p.csrcList.flatMap tobe32 ++ extBlock p.extensionElements)
      (c := trailer p.paddingSize) (by simp only [F, frameBytes_eq_parts, List.append_assoc]) hps.symm rfl
  · rw [← trailer_of_pos hpos]
    exact slice_of_eq (a := frameHeader p ++ p.csrcList.flatMap tobe32 ++ extBlock p.extensionElements ++ p.payload)
      (c := []) (by simp only [F, frameBytes_eq_parts, List.append_assoc, List.append_nil])
      (by rw [List.length_append, hps]) (trailer_length _).symm

/-! ### What a run of ENCODE leaves -/

/-- Settles O30: the packet passes every check, and is committed. -/
theorem encodeCompletes : Obligations.EncodeCompletes :=
  fun _ hready hpasses hcap => exec_encode_of_ok hready (encodeError_eq_none hpasses hcap)

/-- Everything ENCODE can answer: the frame committed, or an error in STATUS and OLEN 0 (R175, R177, R222, R224). -/
theorem exec_encode_cases {s t : State} (h : exec .encode s = .next t) :
    (encodeError s.pkt s.cap = none ∧ t = s.commitFrame s.pkt) ∨
      ∃ e, encodeError s.pkt s.cap = some e ∧ t = failedEncode s (statusWord e.code Command.encode.opcode) :=
  ((execEncode_next s t).1 h).2

/-- V5 passed: the frame fits (R167). -/
theorem total_le_of_encodeError_none {p : Packet} {cap : Nat} (h : encodeError p cap = none) : p.total ≤ cap := by
  unfold encodeError at h
  split_ifs at h with _ _ _ _ hfits
  exact Nat.not_lt.1 hfits

/-- The bytes of a frame written from offset 0 read back. -/
theorem read_writeRange_zero {m : Memory} {bs : Bytes} {a : Nat} (h : a < bs.length) :
    (m.writeRange 0 bs).read a = bs[a]? := by
  rw [List.getElem?_eq_getElem h]
  simpa using Memory.read_writeRange_in m 0 bs a h

/-- Settles O33: a commit writes OBUF below the frame's length, OLEN and STATUS; an error writes OLEN and STATUS. -/
theorem encodeFrame : Obligations.EncodeFrame := by
  intro s t h
  have hhost := (exec_engineMove h).sameHostSide
  obtain ⟨hcheck, rfl⟩ | ⟨e, -, rfl⟩ := exec_encode_cases h
  · have hlen : (frameBytes s.pkt).length = frameLength s.pkt := frameBytes_length s.pkt
    refine ⟨rfl, hhost, fun _ => rfl, fun _ => rfl, rfl, rfl,
      fun _ => ⟨rfl, total_le_of_encodeError_none hcheck, fun a ha => ?_, fun a ha => ?_⟩, fun hne => absurd rfl hne⟩
    · exact Memory.read_writeRange_out s.obuf 0 (frameBytes s.pkt) a (.inr (((Nat.zero_add _).trans hlen).trans_le ha))
    · have hin : a < (frameBytes s.pkt).length := ha.trans_eq hlen.symm
      rw [State.commitFrame_obuf]
      exact read_writeRange_zero hin
  · exact ⟨rfl, hhost, fun _ => rfl, fun _ => rfl, rfl, rfl,
      fun hstatus => absurd hstatus (statusWord_code_ne e .encode), fun _ => ⟨rfl, fun _ => rfl⟩⟩

/-! ### What a run of ADD_EXT leaves -/

/-- The element ADD_EXT's arguments spell (R210). -/
def State.argElement (s : State) : Element := { id := s.argId.extractLsb' 0 4, data := s.argData }

/-- An accepted ARG_ID is the id of the element (R211). -/
theorem argElement_id_toNat {s : State} (h : ¬badArgument s) : s.argElement.id.toNat = s.argId.toNat := by
  have hhigh : s.argId.toNat ≤ 14 := by omega
  rw [State.argElement, BitVec.extractLsb'_toNat, Nat.shiftRight_zero]
  omega

theorem argElement_valid {s : State} (h : ¬badArgument s) : s.argElement.valid := by
  have hid := argElement_id_toNat h
  have hdata : s.argElement.data = s.argData := rfl
  rw [Element.valid, hid, hdata]
  omega

/-- Everything ADD_EXT can answer: InvalidArgument, no change, or the element appended, W as it was (R211 to R213). -/
theorem exec_addExt_cases {s t : State} (h : exec .addExt s = .next t) :
    (badArgument s ∧ t = failed s 0x38) ∨ (¬badArgument s ∧ idPresent s ∧ t = failed s 0x30) ∨
      (¬badArgument s ∧ ¬idPresent s ∧
        t = { s with pkt := s.pkt.append s.argElement, status := 0x30, walk := Walk.idle }) := by
  obtain ⟨hinputs, hend⟩ := (execAddExt_next s t).1 h
  obtain ⟨d, hargs⟩ := (addExtInputs_iff_holdsArgs s).1 hinputs
  obtain ⟨-, rfl⟩ := argData_of_holdsArgs hargs
  refine hend.imp id (.imp id fun ⟨hgood, hnew, ht⟩ => ⟨hgood, hnew, ?_⟩)
  rw [ht, appended_of_holdsArgs hargs (argElement_id_toNat hgood).symm]
  rfl

/-- Settles O39: only the append writes PKT, and there only the list and its total. -/
theorem addExtFrame : Obligations.AddExtFrame := by
  intro s t h
  have hhost := (exec_engineMove h).sameHostSide
  obtain ⟨-, rfl⟩ | ⟨-, -, rfl⟩ | ⟨-, -, rfl⟩ := exec_addExt_cases h
  · exact ⟨fun b _ => by cases b <;> rfl, hhost, rfl, rfl, rfl, rfl, .inr rfl, fun _ => rfl⟩
  · exact ⟨fun b _ => by cases b <;> rfl, hhost, rfl, rfl, rfl, rfl, .inl rfl, fun _ => rfl⟩
  · exact ⟨fun b _ => by cases b <;> rfl, hhost, rfl, rfl, rfl, rfl, .inl rfl,
      fun hstatus => absurd hstatus (by decide : (0x30 : Byte) ≠ 0x38)⟩

/-- A valid element with a new id keeps the element invariants; 15 distinct ids from 1 to 14 there are not (R34). -/
theorem elementsOk_append {es : List Element} {e : Element} (h : elementsOk es) (he : e.valid)
    (hnew : ∀ e' ∈ es, e'.id ≠ e.id) : elementsOk (es ++ [e]) := by
  obtain ⟨-, hvalid, hids⟩ := h
  have hvalid' : ∀ e' ∈ es ++ [e], e'.valid := by
    intro e' he'
    obtain he' | he' := List.mem_append.1 he'
    · exact hvalid e' he'
    · exact List.mem_singleton.1 he' ▸ he
  have hids' : ((es ++ [e]).map Element.id).Nodup := by
    rw [List.map_append, List.nodup_append]
    refine ⟨hids, List.nodup_singleton _, ?_⟩
    simpa using hnew
  exact ⟨elements_length_le _ (fun e' he' => (hvalid' e' he').1) hids', hvalid', hids'⟩

theorem elementBytes_append (es : List Element) (e : Element) :
    elementBytes (es ++ [e]) = elementBytes es + e.wireSize := by
  simp [elementBytes]

/-- Settles O40: the appended element is valid and its id is new. -/
theorem addExtKeepsElementsValid : Obligations.AddExtKeepsElementsValid := by
  intro s t hok h
  obtain ⟨-, rfl⟩ | ⟨-, -, rfl⟩ | ⟨hgood, hnew, rfl⟩ := exec_addExt_cases h
  · exact ⟨hok, id⟩
  · exact ⟨hok, id⟩
  · refine ⟨elementsOk_append hok (argElement_valid hgood) fun e he heq => ?_, fun hbytes => ?_⟩
    · exact hnew ⟨e, he, by rw [heq, argElement_id_toNat hgood]⟩
    · exact (congrArg (· + s.argElement.wireSize) hbytes).trans (elementBytes_append _ _).symm

/-! ### STATUS after a command (R40, R221) -/

/-- R40: the fields of STATUS. -/
theorem statusWord_fields : ∀ (code : BitVec 4) (lastop : BitVec 2),
    (statusWord code lastop).extractLsb' 6 2 = 0 ∧ (statusWord code lastop).extractLsb' 4 2 = lastop ∧
      (statusWord code lastop).extractLsb' 0 4 = code := by decide

theorem decodeFrame_error_code {B : Bytes} {e : Err} (h : decodeFrame B = .error e) : e.code.toNat ≤ 4 := by
  obtain rfl | rfl | ⟨rfl, -⟩ | ⟨rfl, -⟩ := decodeFrame_error h <;> decide

theorem encodeError_code {p : Packet} {cap : Nat} {e : Err} (h : encodeError p cap = some e) :
    5 ≤ e.code.toNat ∧ e.code.toNat ≤ 9 := by
  unfold encodeError at h
  split_ifs at h <;> cases h <;> decide

/-- DECODE leaves its opcode with a code of at most 4. -/
theorem exec_decode_status {s t : State} (h : exec .decode s = .next t) :
    ∃ code : BitVec 4, t.status = statusWord code 1 ∧ code.toNat ≤ 4 := by
  obtain ⟨p, -, rfl⟩ | ⟨e, he, rfl⟩ := exec_decode_cases h
  · exact ⟨0, rfl, by decide⟩
  · exact ⟨e.code, rfl, decodeFrame_error_code he⟩

/-- ENCODE leaves its opcode with code 0 or one from 5 to 9. -/
theorem exec_encode_status {s t : State} (h : exec .encode s = .next t) :
    ∃ code : BitVec 4, t.status = statusWord code 2 ∧ (code.toNat = 0 ∨ 5 ≤ code.toNat ∧ code.toNat ≤ 9) := by
  obtain ⟨-, rfl⟩ | ⟨e, he, rfl⟩ := exec_encode_cases h
  · exact ⟨0, rfl, .inl rfl⟩
  · exact ⟨e.code, rfl, .inr (encodeError_code he)⟩

/-- ADD_EXT leaves its opcode with code 0 or 8. -/
theorem exec_addExt_status {s t : State} (h : exec .addExt s = .next t) :
    ∃ code : BitVec 4, t.status = statusWord code 3 ∧ (code.toNat = 0 ∨ code.toNat = 8) := by
  obtain ⟨-, rfl⟩ | ⟨-, -, rfl⟩ | ⟨-, -, rfl⟩ := exec_addExt_cases h
  · exact ⟨8, rfl, .inr rfl⟩
  · exact ⟨0, rfl, .inl rfl⟩
  · exact ⟨0, rfl, .inl rfl⟩

/-- Settles O42: a command's STATUS is `statusWord` of 0 or of one of its errors. -/
theorem statusAfterCommand : Obligations.StatusAfterCommand := by
  refine fun s t => ⟨fun h => ?_, fun h => ?_, fun h => ?_⟩
  · obtain ⟨code, hstatus, hcode⟩ := exec_decode_status h
    obtain ⟨hreserved, hlastop, hfield⟩ := statusWord_fields code 1
    exact hstatus ▸ ⟨hreserved, hlastop, hfield.symm ▸ hcode⟩
  · obtain ⟨code, hstatus, hcode⟩ := exec_encode_status h
    obtain ⟨hreserved, hlastop, hfield⟩ := statusWord_fields code 2
    exact hstatus ▸ ⟨hreserved, hlastop, hfield.symm ▸ hcode⟩
  · obtain ⟨code, hstatus, hcode⟩ := exec_addExt_status h
    obtain ⟨hreserved, hlastop, hfield⟩ := statusWord_fields code 3
    exact hstatus ▸ ⟨hreserved, hlastop, hfield.symm ▸ hcode⟩

/-! ### A command run twice (R71) -/

/-- Writing the same bytes again changes nothing. -/
theorem Memory.writeRange_writeRange {m : Memory} (off : Nat) (bs : Bytes) (h : m.wf) :
    (m.writeRange off bs).writeRange off bs = m.writeRange off bs := by
  have hwf := Memory.wf_writeRange m off bs h
  refine Memory.ext_of_read _ _ (Memory.wf_writeRange _ off bs hwf) hwf fun a => ?_
  by_cases hin : off ≤ a ∧ a < off + bs.length
  · obtain ⟨k, rfl⟩ := Nat.exists_eq_add_of_le hin.1
    have hk : k < bs.length := by omega
    rw [Memory.read_writeRange_in _ _ _ _ hk, Memory.read_writeRange_in _ _ _ _ hk]
  · exact Memory.read_writeRange_out _ _ _ _ (by omega)

theorem exec_decode_twice {s t : State} (h : exec .decode s = .next t) : exec .decode t = .next t := by
  obtain ⟨hinputs, ⟨p, hp, rfl⟩ | ⟨e, he, rfl⟩⟩ := (execDecode_next s t).1 h
  · exact (execDecode_next ..).2 ⟨(decodeInputs_written _).2 ((decodeInputs_written s).1 hinputs), .inl ⟨p, hp, rfl⟩⟩
  · exact (execDecode_next ..).2 ⟨(decodeInputs_written _).2 ((decodeInputs_written s).1 hinputs), .inr ⟨e, he, rfl⟩⟩

theorem exec_encode_twice {s t : State} (hwf : s.obuf.wf) (h : exec .encode s = .next t) : exec .encode t = .next t := by
  obtain ⟨hinputs, hend⟩ := (execEncode_next s t).1 h
  have hready := (encodeInputs_written s).1 hinputs
  obtain ⟨hcheck, rfl⟩ | ⟨e, hcheck, rfl⟩ := hend
  · have hagain : (s.commitFrame s.pkt).commitFrame s.pkt = s.commitFrame s.pkt := by
      simp only [State.commitFrame, State.complete, Memory.writeRange_writeRange 0 _ hwf, Written.markReg]
    exact (exec_encode_of_ok (s := s.commitFrame s.pkt) hready hcheck).trans (congrArg _ hagain)
  · exact exec_encode_of_error (s := s.raise .encode e) hready hcheck

theorem exec_addExt_twice {s t : State} (h : exec .addExt s = .next t) : exec .addExt t = .next t := by
  obtain ⟨d, hargs⟩ := (addExtInputs_iff_holdsArgs s).1 ((execAddExt_next s t).1 h).1
  obtain ⟨hbad, rfl⟩ | ⟨hgood, hpresent, rfl⟩ | ⟨hgood, hnew, rfl⟩ := exec_addExt_cases h
  · exact exec_addExt_of_badArgument (s := failed s 0x38) hargs hbad
  · exact exec_addExt_of_idPresent (s := failed s 0x30) hargs hgood hpresent
  · refine exec_addExt_of_idPresent
      (s := { s with pkt := s.pkt.append s.argElement, status := 0x30, walk := Walk.idle }) hargs hgood ?_
    exact ⟨s.argElement, List.mem_append_right _ (List.mem_singleton_self _), argElement_id_toNat hgood⟩

/-- Settles O41: no command writes an input of its own but ADD_EXT's append, after which the id is present. -/
theorem commandsAreIdempotent : Obligations.CommandsAreIdempotent :=
  fun _ _ => ⟨exec_decode_twice, exec_encode_twice, exec_addExt_twice⟩

end Sys2Proof.Machine
end

section
/-! DECODE unit by unit: what each wire unit does, and that a walk over a frame ends where the atomic command does
(41_decoder.md R133 to R148, 43_extension_block.md R192 to R202, log 8). -/

namespace Sys2Proof.Machine

open Sys2Proof.Obl

/-! ### The wire units -/

/-- Settles O43: the version check is `execRtpByte0`'s own branch. -/
theorem rtpByte0Unpacks : Obligations.RtpByte0Unpacks :=
  fun _ _ _ _ _ => ⟨fun hversion => if_neg (not_not.2 hversion), fun hversion => if_pos hversion⟩

/-- Settles O44: each of the four replaces the local state and has no other branch. -/
theorem plainWireUnitsComplete : Obligations.PlainWireUnitsComplete :=
  fun _ => ⟨fun _ _ => rfl, rfl, fun _ => rfl, fun _ => rfl⟩

/-- The local state with the iterator's state replaced (R191). -/
def Walk.recorded (w : Walk) (i : Nat) (seen : List Nibble) (es : List Element) : Walk :=
  { w with i := i, seen := seen, draft := { w.draft with extensionElements := es } }

/-- An element that is recorded moves the local state on (R196 to R199). -/
theorem exec_extElem_of_some {s : State} {id lf : Nibble} {i : Nat} {es : List Element} {seen : List Nibble}
    (h : recordElement s.walk.body s.walk.i id lf s.walk.draft.extensionElements s.walk.seen = some (i, es, seen)) :
    exec (.extElem id lf) s =
      .next (s.setWalk (s.walk.recorded i seen es)) := by
  simp only [exec, execExtElem, h, Walk.recorded]

/-- An element that is not recorded ends DECODE as Malformed (R196, R198). -/
theorem exec_extElem_of_none {s : State} {id lf : Nibble}
    (h : recordElement s.walk.body s.walk.i id lf s.walk.draft.extensionElements s.walk.seen = none) :
    exec (.extElem id lf) s = .next (s.raise .decode .malformed) := by
  simp only [exec, execExtElem, h]

/-- A body inside the frame is as long as announced (R141, R142). -/
theorem Walk.body_length {w : Walk} (h : w.cur + w.bodyLen ≤ w.frame.length) : w.body.length = w.bodyLen :=
  slice_length_eq _ _ _ h

/-- Settles O45: `recordElement` on the body, whose bytes are the frame's from the cursor on. -/
theorem extElemRecords : Obligations.ExtElemRecords := by
  intro s id lf hinside
  have hlen := Walk.body_length hinside
  refine ⟨fun hfits hnew => ?_, fun hbad => ?_⟩
  · have hdata : slice s.walk.body (s.walk.i + 1) (lf.toNat + 1) =
        slice s.walk.frame (s.walk.cur + s.walk.i + 1) (lf.toNat + 1) := slice_slice _ _ _ _ _ hfits
    have hmove : s.walk.i + 1 + (lf.toNat + 1) = s.walk.i + 2 + lf.toNat := by omega
    have hrecord := (recordElement_some s.walk.body s.walk.i id lf s.walk.draft.extensionElements s.walk.seen _).2
      ⟨by omega, hnew, rfl⟩
    rw [exec_extElem_of_some hrecord, hdata, hmove]
    rfl
  · exact exec_extElem_of_none (recordElement_eq_none _ (hbad.imp_left (by omega)))

/-- Settles O46: a wire unit replaces the local state, or writes an error in STATUS and drops the local state. -/
theorem wireUnitFrame : Obligations.WireUnitFrame := by
  intro i s t hi h
  have hhost := (exec_engineMove h).sameHostSide
  obtain ⟨t', ht', hwire⟩ := execWire_next i s hi
  cases ht'.symm.trans h
  obtain ⟨w, rfl⟩ | ⟨e, rfl⟩ := hwire
  · exact ⟨rfl, fun b _ => by cases b <;> rfl, hhost, rfl, rfl, fun hne => absurd rfl hne⟩
  · exact ⟨rfl, fun b _ => by cases b <;> rfl, hhost, rfl, rfl, fun _ => rfl⟩

/-! ### Runs -/

theorem run_succ {M : Host.Core} {s t : M.State} (k : Nat) (h : M.step s = .next t) : M.run (k + 1) s = M.run k t := by
  rw [Host.Core.run, h]

theorem run_succ_of_fault {M : Host.Core} {s : M.State} {f : M.Fault} (k : Nat) (h : M.step s = .fault f) :
    M.run (k + 1) s = .fault f := by
  rw [Host.Core.run, h]

theorem run_succ_of_refused {M : Host.Core} {s : M.State} {r : M.Refusal} (k : Nat) (h : M.step s = .refused r) :
    M.run (k + 1) s = .refused r := by
  rw [Host.Core.run, h]

/-- Some number of steps leads from one state to the other. -/
def Reaches (s t : State) : Prop := ∃ k, Host.Core.run Sys2Proof.core k s = .next t

theorem Reaches.refl (s : State) : Reaches s s := ⟨0, rfl⟩

theorem Reaches.head {s t u : State} (h : step s = .next t) : Reaches t u → Reaches s u :=
  fun ⟨k, hk⟩ => ⟨k + 1, (run_succ k h).trans hk⟩

theorem Reaches.single {s t : State} (h : step s = .next t) : Reaches s t := .head h (.refl t)

theorem Reaches.trans {s t u : State} (hst : Reaches s t) (htu : Reaches t u) : Reaches s u := by
  obtain ⟨k, hk⟩ := hst
  induction k generalizing s with
  | zero => cases hk; exact htu
  | succ k ih =>
    cases hstep : step s with
    | next s' => exact .head hstep (ih ((run_succ k hstep).symm.trans hk))
    | fault f => cases (run_succ_of_fault k hstep).symm.trans hk
    | refused r => cases (run_succ_of_refused k hstep).symm.trans hk

/-! ### Single steps of a walk -/

section
variable {s : State} {w : Walk}

theorem step_setWalk_byte0_short (h : w.phase = .byte0) (hshort : w.frame.length < 12) :
    step (s.setWalk w) = .next (s.raise .decode .truncated) := by
  simp only [step, fetch, fetchWalk, State.setWalk_walk, h, hshort, if_true]
  rfl

/-- Bits that spell no row end DECODE with their error (R132, R133, R137, R139). -/
theorem fetchUnit_of_reject {p : Port} {bs : Bytes} {r : Reject} (t : State) (h : decode p bs = .error r) :
    fetchUnit p bs t = .outcome (.next (t.raise .decode (rejectErr r))) := by
  rw [fetchUnit, h]

theorem step_setWalk_byte0_reject {r : Reject} (h : w.phase = .byte0) (hlen : 12 ≤ w.frame.length)
    (hr : decode .byte0 w.frame = .error r) : step (s.setWalk w) = .next (s.raise .decode (rejectErr r)) := by
  simp only [step, fetch, fetchWalk, State.setWalk_walk, h, Nat.not_lt.2 hlen, if_false, fetchUnit_of_reject _ hr]
  rfl

theorem step_setWalk_profile_reject {r : Reject} (h : w.phase = .profile)
    (hr : decode .profile (w.frame.drop w.cur) = .error r) :
    step (s.setWalk w) = .next (s.raise .decode (rejectErr r)) := by
  simp only [step, fetch, fetchWalk, State.setWalk_walk, h, fetchUnit_of_reject _ hr]
  rfl

theorem step_setWalk_words (h : w.phase = .words) : step (s.setWalk w) = .next (walkWords (s.setWalk w)) := by
  simp only [step, fetch, fetchWalk, State.setWalk_walk, h]

theorem step_setWalk_extLength (h : w.phase = .extLength) : step (s.setWalk w) = .next (walkExtLength (s.setWalk w)) := by
  simp only [step, fetch, fetchWalk, State.setWalk_walk, h]

theorem step_setWalk_tail (h : w.phase = .tail) : step (s.setWalk w) = .next (walkTail (s.setWalk w)) := by
  simp only [step, fetch, fetchWalk, State.setWalk_walk, h]

theorem step_setWalk_body_end (h : w.phase = .body) (hend : w.bodyLen ≤ w.i) :
    step (s.setWalk w) = .next (s.setWalk w.endBody) := by
  simp only [step, fetch, fetchWalk, State.setWalk_walk, h, ge_iff_le, hend, if_true]
  rfl

end

/-! ### The extension body, unit by unit (R192 to R202) -/

theorem byteAt_slice {B : Bytes} {off n i : Nat} (h : i < n) : byteAt (slice B off n) i = byteAt B (off + i) := by
  simp [byteAt, slice, h]

/-- The bytes from an offset on start with the byte there. -/
theorem drop_byteAt {B : Bytes} {k : Nat} (h : k < B.length) : B.drop k = byteAt B k :: B.drop (k + 1) := by
  rw [List.drop_eq_getElem_cons h, byteAt, List.getD_eq_getElem _ _ h]

/-- The unit at the body's cursor is the control byte there. -/
theorem decode_ctrl_body {w : Walk} (h : w.i < w.body.length) :
    ∃ rest, decode .ctrl (w.frame.drop (w.cur + w.i)) = .ok (decodeCtrl (byteAt w.body w.i), rest) := by
  have hlen : w.i < w.bodyLen ∧ w.cur + w.i < w.frame.length := by
    rw [Walk.body, slice_length] at h
    omega
  have hbyte : byteAt w.body w.i = byteAt w.frame (w.cur + w.i) := byteAt_slice hlen.1
  rw [drop_byteAt hlen.2, hbyte]
  exact ⟨_, rfl⟩

/-- A step of the walk in the body runs that unit. -/
theorem step_setWalk_body {s : State} {w : Walk} (h : w.phase = .body) (hinside : w.cur + w.bodyLen ≤ w.frame.length)
    (hi : w.i < w.body.length) : step (s.setWalk w) = exec (decodeCtrl (byteAt w.body w.i)) (s.setWalk w) := by
  obtain ⟨rest, hdecode⟩ := decode_ctrl_body hi
  have hlt : w.i < w.bodyLen := Walk.body_length hinside ▸ hi
  exact step_of_unitAt ⟨rest, .inr (.inr (.inr ⟨h, hlt, hdecode⟩))⟩

/-- The local state after the body, with the elements found (R142, R143). -/
def Walk.parsed (w : Walk) (i : Nat) (seen : List Nibble) (es : List Element) : Walk :=
  (w.recorded i seen es).endBody

/-- What a walk in the body comes to when the iterator ends so (R202). -/
def BodyEnds (s : State) (w : Walk) : IterState → Prop
  | .run _ _ _ => True
  | .done es => ∃ i seen, Reaches (s.setWalk w) (s.setWalk (w.parsed i seen es))
  | .fail => Reaches (s.setWalk w) (s.raise .decode .malformed)

/-- A step of the walk before what the iterator ends with. -/
theorem BodyEnds.head {s : State} {w : Walk} {i : Nat} {seen : List Nibble} {es : List Element} {st : IterState}
    (hstep : step (s.setWalk w) = .next (s.setWalk (w.recorded i seen es))) (h : BodyEnds s (w.recorded i seen es) st) :
    BodyEnds s w st := by
  cases st with
  | run _ _ _ => trivial
  | done es' => obtain ⟨i', seen', h⟩ := h; exact ⟨i', seen', Reaches.head hstep h⟩
  | fail => exact Reaches.head hstep h

/-- Each step of the iterator is a step of the walk (R202). -/
theorem walk_body (n : Nat) {s : State} {w : Walk} (h : w.phase = .body) (hinside : w.cur + w.bodyLen ≤ w.frame.length) :
    BodyEnds s w (iterRun w.body n (.run w.i w.draft.extensionElements w.seen)) := by
  induction n generalizing w with
  | zero => trivial
  | succ n ih =>
    have hlen := Walk.body_length hinside
    rw [iterRun]
    obtain ⟨hend, hiter⟩ | ⟨hi, hclass, hiter⟩ | ⟨hi, hclass, hiter⟩ | ⟨hi, hclass, hiter⟩ :=
      iterStep_run w.body w.i w.draft.extensionElements w.seen
    · rw [hiter, iterRun_done]
      exact ⟨w.i, w.seen, .single (step_setWalk_body_end h (hlen ▸ hend))⟩
    · have hstep := step_setWalk_body (s := s) h hinside hi
      rw [decodeCtrl_of_pad ((ctrlClass_eq_pad_iff _).1 hclass)] at hstep
      rw [hiter]
      exact .head hstep (ih (w := w.recorded (w.i + 1) w.seen w.draft.extensionElements) h hinside)
    · have hstep := step_setWalk_body (s := s) h hinside hi
      rw [decodeCtrl_of_term ((ctrlClass_eq_term_iff _).1 hclass)] at hstep
      rw [hiter, iterRun_done]
      exact ⟨w.i, w.seen, .single hstep⟩
    · have hstep := step_setWalk_body (s := s) h hinside hi
      have hid : (ctrlUnpack (byteAt w.body w.i)).1 ≠ 0 ∧ (ctrlUnpack (byteAt w.body w.i)).1 ≠ 15 := by
        rw [ne_eq, ne_eq, ← ctrlClass_eq_pad_iff, ← ctrlClass_eq_term_iff, hclass]
        decide
      rw [decodeCtrl_of_elem hid.1 hid.2] at hstep
      rw [hiter]
      cases hrecord : recordElement w.body w.i (ctrlUnpack (byteAt w.body w.i)).1 (ctrlUnpack (byteAt w.body w.i)).2
          w.draft.extensionElements w.seen with
      | none =>
        rw [exec_extElem_of_none (s := s.setWalk w) hrecord] at hstep
        simp only [iterRun_fail]
        exact .single hstep
      | some r =>
        obtain ⟨i, es, seen⟩ := r
        rw [exec_extElem_of_some (s := s.setWalk w) hrecord] at hstep
        exact .head hstep (ih (w := w.recorded i seen es) h hinside)

/-! ### The extension block (R137 to R143) -/

/-- What a walk comes to when S6 answers so: DECODE ends with the error, or the walk stands at the tail with the elements. -/
def ExtensionEnds (s : State) (w : Walk) (draft : Packet) : Except Err (List Element × Nat) → Prop
  | .error e => Reaches (s.setWalk w) (s.raise .decode e)
  | .ok (es, ps) => ∃ w', Reaches (s.setWalk w) (s.setWalk w') ∧ w'.phase = .tail ∧ w'.frame = w.frame ∧ w'.cur = ps ∧
      w'.draft = { draft with extensionElements := es }

theorem ExtensionEnds.head {s : State} {w w' : Walk} {draft : Packet} {r : Except Err (List Element × Nat)}
    (hstep : step (s.setWalk w) = .next (s.setWalk w')) (hframe : w'.frame = w.frame) (h : ExtensionEnds s w' draft r) :
    ExtensionEnds s w draft r := by
  cases r with
  | error e => exact Reaches.head hstep h
  | ok r =>
    obtain ⟨w'', hreach, hphase, hframe', h⟩ := h
    exact ⟨w'', Reaches.head hstep hreach, hphase, hframe'.trans hframe, h⟩

section
variable {s : State} {w : Walk}

/-- The walk of a body from the iterator's start comes to what the iterator ends with (R191, R201). -/
theorem walk_start (h : w.phase = .body) (hinside : w.cur + w.bodyLen ≤ w.frame.length) :
    BodyEnds s (w.recorded 0 [] [])
      (iterRun (w.recorded 0 [] []).body ((w.recorded 0 [] []).body.length + 1) iterStart) :=
  walk_body (w := w.recorded 0 [] []) _ h hinside

/-- A body that parses is walked to its end, from the iterator's start (R142). -/
theorem walk_parsed {es : List Element} (h : w.phase = .body) (hinside : w.cur + w.bodyLen ≤ w.frame.length)
    (hparse : parseBlock (w.recorded 0 [] []).body = some es) :
    ExtensionEnds s (w.recorded 0 [] []) w.draft (.ok (es, w.cur + w.bodyLen)) := by
  have hbody := walk_start (s := s) h hinside
  rw [(parseBlock_eq_some_iff _ _).1 hparse] at hbody
  obtain ⟨i, seen, hreach⟩ := hbody
  exact ⟨_, hreach, rfl, rfl, rfl, rfl⟩

/-- A body that does not parse ends DECODE as Malformed (R142). -/
theorem walk_malformed (h : w.phase = .body) (hinside : w.cur + w.bodyLen ≤ w.frame.length)
    (hparse : parseBlock (w.recorded 0 [] []).body = none) :
    ExtensionEnds s (w.recorded 0 [] []) w.draft (.error .malformed) := by
  have hbody := walk_start (s := s) h hinside
  rwa [(parseBlock_eq_none_iff _).1 hparse] at hbody

/-- The length field is read, and the body walked (R140 to R142). -/
theorem walk_extLength (h : w.phase = .extLength) :
    (∀ e, readExtLength w.frame w.cur = .error e → ExtensionEnds s w w.draft (.error e)) ∧
      ∀ n, readExtLength w.frame w.cur = .ok n →
        (parseBlock (slice w.frame (w.cur + 2) n) = none → ExtensionEnds s w w.draft (.error .malformed)) ∧
          ∀ es, parseBlock (slice w.frame (w.cur + 2) n) = some es →
            ExtensionEnds s w w.draft (.ok (es, w.cur + 2 + n)) := by
  have hstep := step_setWalk_extLength (s := s) h
  refine ⟨fun e he => ?_, fun n hn => ?_⟩
  · rw [walkExtLength, State.setWalk_walk, he] at hstep
    exact Reaches.single hstep
  · rw [walkExtLength, State.setWalk_walk, hn] at hstep
    obtain ⟨-, hinside⟩ := readExtLength_eq_ok hn
    exact ⟨fun hparse => .head hstep rfl
        (walk_malformed (w := { w with phase := .body, cur := w.cur + 2, bodyLen := n }) rfl hinside hparse),
      fun es hparse => .head hstep rfl
        (walk_parsed (w := { w with phase := .body, cur := w.cur + 2, bodyLen := n }) rfl hinside hparse)⟩

end

/-! ### The profile (R137 to R139) -/

theorem decode_profile_short {B : Bytes} {cur : Nat} (h : B.length < cur + 2) :
    decode .profile (B.drop cur) = .error .empty := by
  have hlen : (B.drop cur).length < 2 := by
    rw [List.length_drop]
    omega
  match B.drop cur, hlen with
  | [], _ => rfl
  | [_], _ => rfl

theorem decode_profile_drop {B : Bytes} {cur : Nat} (h : cur + 2 ≤ B.length) :
    (be16 (slice B cur 2) = 0xBEDE → ∃ rest, decode .profile (B.drop cur) = .ok (.extProfileBede, rest)) ∧
      (be16 (slice B cur 2) ≠ 0xBEDE →
        decode .profile (B.drop cur) = .error (.unsupportedProfile (be16 (slice B cur 2)))) := by
  have hlen : 2 ≤ (B.drop cur).length := by
    rw [List.length_drop]
    omega
  rw [slice]
  match B.drop cur, hlen with
  | b :: c :: rest, _ =>
    refine ⟨fun hprofile => ⟨rest, ?_⟩, fun hprofile => ?_⟩
    · simp only [decode, decodeProfile, if_pos (show be16 [b, c] = 0xBEDE from hprofile)]
    · simp only [decode, decodeProfile, if_neg (show be16 [b, c] ≠ 0xBEDE from hprofile)]
      rfl

/-- The local state once the profile is accepted (R138, R139). -/
def Walk.pastProfile (w : Walk) : Walk :=
  { w with phase := .extLength, cur := w.cur + 2, draft := { w.draft with extensionProfile := 0xBEDE } }

/-- S6 with the extension flag, as a walk (R137 to R143). -/
theorem walk_readExtension {s : State} {w : Walk} (h : w.phase = .profile) :
    ExtensionEnds s w { w.draft with extensionProfile := 0xBEDE } (readExtension w.frame w.cur) := by
  by_cases hroom : w.cur + 2 ≤ w.frame.length
  swap
  · rw [readExtension_of_short (Nat.not_le.1 hroom)]
    exact Reaches.single (step_setWalk_profile_reject h (decode_profile_short (Nat.not_le.1 hroom)))
  obtain ⟨haccept, hreject⟩ := decode_profile_drop hroom
  by_cases hprofile : be16 (slice w.frame w.cur 2) = 0xBEDE
  swap
  · rw [readExtension_of_profile_ne hroom hprofile]
    exact Reaches.single (step_setWalk_profile_reject h (hreject hprofile))
  obtain ⟨rest, hdecode⟩ := haccept hprofile
  have hstep : step (s.setWalk w) = exec .extProfileBede (s.setWalk w) :=
    step_of_unitAt ⟨rest, .inr (.inr (.inl ⟨h, hdecode⟩))⟩
  refine .head (w' := w.pastProfile) hstep rfl ?_
  obtain ⟨herror, hok⟩ := walk_extLength (s := s) (w := w.pastProfile) rfl
  rw [readExtension, if_neg (Nat.not_lt.2 hroom), if_neg (not_not.2 hprofile)]
  cases hlen : readExtLength w.frame (w.cur + 2) with
  | error e => exact herror e hlen
  | ok n =>
    obtain ⟨hnone, hsome⟩ := hok n hlen
    cases hparse : parseBlock (slice w.frame (w.cur + 4) n) with
    | none =>
      simp only [hparse]
      exact hnone hparse
    | some es =>
      simp only [hparse]
      exact hsome es hparse

/-! ### The whole frame -/

/-- The walk past the fixed bytes, at S4 (R133, R134). -/
def Walk.atWords (B : Bytes) : Walk :=
  { Walk.start B with
    phase := .words
    draft := { Packet.zero with
      version := ver B, padding := padFlag B, hasExtension := extFlag B, csrcCount := (unpack0 (byteAt B 0)).2.2.2
      marker := (unpack1 (byteAt B 1)).1, payloadType := (unpack1 (byteAt B 1)).2 } }

/-- The walk past the CSRC list, at S6 or S7 (R135, R136). -/
def Walk.afterWords (B : Bytes) (cs : List Word32) : Walk :=
  { Walk.atWords B with
    phase := if extFlag B = 1 then .profile else .tail
    cur := extStart B
    draft := { (Walk.atWords B).draft with
      sequenceNumber := be16 (slice B 2 2), timestamp := be32 (slice B 4 4), ssrc := be32 (slice B 8 4)
      csrcList := cs } }

/-- Frame byte 0 decodes by the byte alone. -/
theorem decode_byte0_of_ok {B : Bytes} {i : Instr} (hlen : 12 ≤ B.length) (h : decodeByte0 (byteAt B 0) = .ok i) :
    decode .byte0 B = .ok (i, B.drop 1) := by
  rw [← List.drop_zero (l := B), drop_byteAt (by omega)]
  simp only [decode, h, List.drop_succ_cons, List.drop_zero]

theorem decode_byte0_of_error {B : Bytes} {r : Reject} (hlen : 12 ≤ B.length) (h : decodeByte0 (byteAt B 0) = .error r) :
    decode .byte0 B = .error r := by
  rw [← List.drop_zero (l := B), drop_byteAt (by omega)]
  simp only [decode, h]

theorem walk_version_ne {s : State} {B : Bytes} (h : 12 ≤ B.length) (hversion : ver B ≠ 2) :
    Reaches (s.setWalk (Walk.start B)) (s.raise .decode .unsupportedVersion) := by
  have hdecode := decode_byte0_of_error h (decodeByte0_of_version_ne hversion)
  have hstep : step (s.setWalk (Walk.start B)) = _ := step_setWalk_byte0_reject rfl h hdecode
  exact .single hstep

/-- S2 and S3 (R133, R134). -/
theorem walk_header {s : State} {B : Bytes} (h : PastVersion B) :
    Reaches (s.setWalk (Walk.start B)) (s.setWalk (Walk.atWords B)) := by
  obtain ⟨hlen, hversion⟩ := h
  have hdecode0 := decode_byte0_of_ok hlen (decodeByte0_of_version hversion)
  have hdecode1 : decode .byte1 (B.drop 1) = .ok (decodeByte1 (byteAt B 1), B.drop 2) := by
    rw [drop_byteAt (by omega)]
    rfl
  have hbyte0 : step (s.setWalk (Walk.start B)) = _ := step_of_unitAt ⟨B.drop 1, .inl ⟨rfl, hlen, hdecode0⟩⟩
  rw [exec, execRtpByte0, if_neg (not_not.2 hversion)] at hbyte0
  have hbyte1 {t : State} (hphase : t.walk.phase = .byte1) (hframe : t.walk.frame = B) :
      step t = exec (decodeByte1 (byteAt B 1)) t :=
    step_of_unitAt ⟨B.drop 2, .inr (.inl ⟨hphase, hframe.symm ▸ hdecode1⟩)⟩
  exact .head hbyte0 (.single (hbyte1 rfl rfl))

/-- S4 and S5 (R135, R136). -/
theorem walk_words {s : State} {B : Bytes} :
    (readCsrcs B 12 (csrcs B) = none → Reaches (s.setWalk (Walk.atWords B)) (s.raise .decode .truncated)) ∧
      ∀ cs, readCsrcs B 12 (csrcs B) = some cs → Reaches (s.setWalk (Walk.atWords B)) (s.setWalk (Walk.afterWords B cs)) := by
  have hstep := step_setWalk_words (s := s) (w := Walk.atWords B) rfl
  have hread : readCsrcs (s.setWalk (Walk.atWords B)).walk.frame 12 (s.setWalk (Walk.atWords B)).walk.draft.csrcCount.toNat =
    readCsrcs B 12 (csrcs B) := rfl
  refine ⟨fun hcs => .single (hstep.trans ?_), fun cs hcs => .single (hstep.trans ?_)⟩
  · simp only [walkWords, hread, hcs]
    rfl
  · simp only [walkWords, hread, hcs]
    rfl

/-- S6 (R137 to R143). -/
theorem walk_frameExtension {s : State} {B : Bytes} {cs : List Word32} :
    ExtensionEnds s (Walk.afterWords B cs)
      { (Walk.afterWords B cs).draft with extensionProfile := if extFlag B = 1 then 0xBEDE else 0x0000 }
      (frameExtension B) := by
  unfold frameExtension
  by_cases hflag : extFlag B = 1
  · rw [if_pos hflag, if_pos hflag]
    exact walk_readExtension (w := Walk.afterWords B cs) (if_pos hflag)
  · rw [if_neg hflag, if_neg hflag]
    exact ⟨Walk.afterWords B cs, .refl _, if_neg hflag, rfl, rfl, rfl⟩

/-- S7 to S10 (R143 to R148). -/
theorem walk_tail {s : State} {w : Walk} (h : w.phase = .tail) :
    (∀ e, readTail w.frame w.cur w.draft.padding = .error e → Reaches (s.setWalk w) (s.raise .decode e)) ∧
      ∀ pay n, readTail w.frame w.cur w.draft.padding = .ok (pay, n) → Reaches (s.setWalk w) (s.commitPacket
        { w.draft with paddingSize := n, payload := pay, extBytes := elementBytes w.draft.extensionElements }) := by
  have hstep := step_setWalk_tail (s := s) h
  refine ⟨fun e he => .single (hstep.trans ?_), fun pay n hok => .single (hstep.trans ?_)⟩
  · simp only [walkTail, State.setWalk_walk, he]
    rfl
  · simp only [walkTail, State.setWalk_walk, hok]
    rfl

/-- What a walk comes to when the frame decodes so: the record committed, or the error raised (R148, R149). -/
def DecodeEnds (s : State) (w : Walk) : Except Err Packet → Prop
  | .error e => Reaches (s.setWalk w) (s.raise .decode e)
  | .ok p => Reaches (s.setWalk w) (s.commitPacket p)

/-- The walk over a frame comes to what the frame decodes to. -/
theorem walk_decodeFrame (s : State) (B : Bytes) : DecodeEnds s (Walk.start B) (decodeFrame B) := by
  obtain ⟨hshort, hB⟩ | ⟨hlen, hversion, hB⟩ | ⟨hpast, hcs, hB⟩ | ⟨hpast, cs, hcs, hrest⟩ := decodeFrame_cases B
  · rw [hB]
    exact Reaches.single (step_setWalk_byte0_short rfl hshort)
  · rw [hB]
    exact walk_version_ne hlen hversion
  · rw [hB]
    exact (walk_header hpast).trans (walk_words.1 hcs)
  have hwords : Reaches (s.setWalk (Walk.start B)) (s.setWalk (Walk.afterWords B cs)) :=
    (walk_header hpast).trans (walk_words.2 cs hcs)
  have hext := walk_frameExtension (s := s) (B := B) (cs := cs)
  obtain ⟨e, he, hB⟩ | ⟨es, ps, hok, hrest⟩ := hrest
  · rw [he] at hext
    rw [hB]
    exact hwords.trans hext
  rw [hok] at hext
  obtain ⟨w, hreach, hphase, hframe, rfl, hdraft⟩ := hext
  obtain ⟨herror, hcommit⟩ := walk_tail (s := s) hphase
  rw [hframe, hdraft] at herror hcommit
  obtain ⟨htail, hB⟩ | ⟨pay, n, htail, hB⟩ := hrest
  · rw [hB]
    exact (hwords.trans hreach).trans (herror _ htail)
  · rw [hB]
    exact (hwords.trans hreach).trans (hcommit pay n htail)

/-- Settles O47: DECODE commits what the frame decodes to, or its first error, and so does the walk. -/
theorem unitSteppedDecode : Obligations.UnitSteppedDecode := by
  intro s B hframe
  have hwalk := walk_decodeFrame s B
  cases hB : decodeFrame B with
  | ok p =>
    rw [hB] at hwalk
    rw [exec_decode_of_ok hframe hB]
    exact hwalk
  | error e =>
    rw [hB] at hwalk
    rw [exec_decode_of_error hframe hB]
    exact hwalk

end Sys2Proof.Machine
end

section
/-! The host: the register map, what an access writes, refuses and returns, and the pseudo-instructions (10_state.md R46, R47,
30_encoding.md R98, R99). -/

namespace Sys2Proof.Machine

open Sys2Proof.Obl

/-! ### The register map (R46) -/

@[simp] theorem regAt_number (r : Reg) : regAt r.number = some r := by
  cases r <;> rfl

theorem Reg.number_ne_cmdNumber (r : Reg) : r.number ≠ cmdNumber := by
  cases r <;> decide

theorem regAt_eq_none_iff (n : Byte) :
    regAt n = none ↔ n = 0x00 ∨ (0x07 ≤ n.toNat ∧ n.toNat ≤ 0x0F) ∨ 0x1C ≤ n.toNat := by
  simp only [regAt, List.find?_eq_none, Reg.all, List.forall_mem_cons, Reg.number, beq_iff_eq]
  constructor
  · bv_omega
  · intro h
    simp only [List.not_mem_nil, false_imp_iff, implies_true, and_true]
    bv_omega

/-- Settles O49: the map is `regAt`'s list of numbers, and each bound is `Reg.bound`'s. -/
theorem registerMap : Obligations.RegisterMap := by
  refine ⟨regAt_eq_none_iff, rfl, fun p v => ?_⟩
  simp [Reg.fits, Reg.bound, Nat.lt_succ_iff]

/-- A register of bounded width has room for a value. -/
theorem Reg.bound_pos {p : Config.Params} {r : Reg} {b : Nat} (h : r.bound p = some b) : 0 < b := by
  cases r <;> cases h <;> exact Nat.succ_pos _

/-- The two registers the host may not write. -/
theorem Reg.readOnly_eq_false {r : Reg} (hstatus : r ≠ .status) (holen : r ≠ .olen) : r.readOnly = false := by
  cases r <;> first | rfl | contradiction

/-! ### The step of an access -/

/-- A write to a register is an access of that register. -/
theorem step_write_reg {s : State} {r : Reg} {v : Nat} {rest : List HostOp} (h : Next s (.write r.number v) rest) :
    step s = hostWrite r v { s with pending := rest } := by
  obtain ⟨hidle, hpending⟩ := h
  rw [step_access s _ rest hidle hpending fun _ h => Reg.number_ne_cmdNumber r (HostOp.write.inj h).1]
  simp only [hostAccess, regAt_number]

/-- A write to a number that names nothing is refused by that name. -/
theorem step_write_reserved {s : State} {n : Byte} {v : Nat} {rest : List HostOp} (h : Next s (.write n v) rest)
    (hn : (0x07 ≤ n.toNat ∧ n.toNat ≤ 0x0F) ∨ 0x1C ≤ n.toNat) : step s = .refused (.reservedRegister n) := by
  obtain ⟨hidle, hpending⟩ := h
  have hcmd : n ≠ cmdNumber := by
    rintro rfl
    revert hn
    decide
  rw [step_access s _ rest hidle hpending fun _ h => hcmd (HostOp.write.inj h).1]
  simp only [hostAccess, (regAt_eq_none_iff n).2 (.inr hn)]

theorem hostWrite_of_readOnly {r : Reg} (v : Nat) (s : State) (h : r.readOnly = true) :
    hostWrite r v s = .refused (.readOnly (.reg r)) := if_pos h

theorem hostWrite_of_not_fits {r : Reg} {v : Nat} {s : State} (h : r.readOnly = false) (hfits : r.fits s.params v = false) :
    hostWrite r v s = .refused (.doesNotFit (.reg r)) := by
  simp only [hostWrite, h, hfits, Bool.false_eq_true, if_false]

/-- The state after a register write that the host may make (R46, R47). -/
def State.hostSet (s : State) (r : Reg) (v : Nat) : State := { s.setReg r v with written := s.written.markReg r }

theorem hostWrite_of_fits {r : Reg} {v : Nat} {s : State} (h : r.readOnly = false) (hfits : r.fits s.params v = true) :
    hostWrite r v s = .next (s.hostSet r v) := by
  simp only [hostWrite, h, hfits, Bool.false_eq_true, if_false, if_true, State.hostSet]

/-- Settles O50: each refusal is one branch of `hostAccess` or `hostWrite`, but the wide CMD write, which is `fetchHost`'s. -/
theorem hostWriteRefused : Obligations.HostWriteRefused := by
  intro s n v rest hnext
  refine ⟨step_write_reserved hnext, ?_, ?_, ?_, ?_⟩
  · rintro rfl
    exact (step_write_reg (r := .status) hnext).trans (hostWrite_of_readOnly _ _ rfl)
  · rintro rfl
    exact (step_write_reg (r := .olen) hnext).trans (hostWrite_of_readOnly _ _ rfl)
  · rintro r rfl hstatus holen hfits
    exact (step_write_reg hnext).trans (hostWrite_of_not_fits (Reg.readOnly_eq_false hstatus holen) hfits)
  · rintro rfl hwide
    obtain ⟨hidle, hpending⟩ := hnext
    simp only [step_idle s hidle, fetchHost, hpending, show (0x00 : Byte) = cmdNumber from rfl, if_true,
      Nat.not_lt.2 hwide, if_false]

/-! ### What an access leaves alone -/

@[simp] theorem State.buffer_setReg (s : State) (r : Reg) (v : Nat) (b : Buf) : (s.setReg r v).buffer b = s.buffer b := by
  cases r <;> rfl

@[simp] theorem State.buffer_setSeq (s : State) (v : SeqValue) (b : Buf) : (s.setSeq v).buffer b = s.buffer b := by
  cases v <;> rfl

@[simp] theorem State.getReg_setBuffer (s : State) (b : Buf) (m : Memory) (r : Reg) :
    (s.setBuffer b m).getReg r = s.getReg r := by
  cases b <;> rfl

@[simp] theorem State.setReg_pending_comm (s : State) (r : Reg) (v : Nat) (ops : List HostOp) :
    ({ s with pending := ops } : State).setReg r v = { s.setReg r v with pending := ops } := by
  cases r <;> rfl

/-- Settles O48: the write is `setReg` with the register marked. -/
theorem hostWriteRegister : Obligations.HostWriteRegister := by
  intro s r v rest hnext hstatus holen hfits
  refine ⟨_, (step_write_reg hnext).trans (hostWrite_of_fits (Reg.readOnly_eq_false hstatus holen) hfits), ?_⟩
  rw [State.hostSet, State.setReg_pending_comm]
  exact ⟨State.getReg_setReg s r v s.params hfits, fun r' hne => State.getReg_setReg_ne s r r' v hne,
    State.getSeq_setReg s r v, fun b a => congrArg (Memory.read · a) (State.buffer_setReg s r v b), rfl, rfl,
    State.setReg_params s r v, State.setReg_faultMark s r v, State.setReg_refusalMark s r v, State.setReg_walk s r v,
    State.setReg_rdata s r v, State.setReg_reads s r v⟩

/-- Settles O51: the write is `setBuffer` with `writeRange`. -/
theorem hostWriteBytes_stores : Obligations.HostWriteBytes := by
  rintro s b off bs rest ⟨hidle, hpending⟩
  have hstep : step s = hostWriteBytes b off bs { s with pending := rest } := step_access s _ rest hidle hpending nofun
  rw [hstep, hostWriteBytes]
  refine ⟨fun hb hroom => ?_, fun hb hlong => ?_, ?_⟩
  · rw [if_neg hb, if_pos hroom]
    refine ⟨_, rfl, fun k hk => ?_, fun a ha => ?_, fun b' hne a => ?_, State.setBuffer_pkt _ b _,
      State.getReg_setBuffer _ b _, State.setBuffer_written _ b _, State.setBuffer_pending _ b _,
      State.setBuffer_params _ b _, State.setBuffer_faultMark _ b _, State.setBuffer_refusalMark _ b _,
      State.setBuffer_walk _ b _, State.setBuffer_rdata _ b _, State.setBuffer_reads _ b _⟩
    · rw [State.setBuffer_buffer]
      exact Memory.read_writeRange_in _ off bs k hk
    · rw [State.setBuffer_buffer]
      exact Memory.read_writeRange_out _ off bs a ha
    · rw [State.setBuffer_buffer_ne _ b b' _ hne]
      rfl
  · rw [if_neg hb, if_neg (Nat.not_le.2 hlong)]
  · rintro rfl
    rfl

/-- Settles O52: the write is `setSeq` with the sequence marked. -/
theorem hostWriteSequence : Obligations.HostWriteSequence := by
  rintro s v rest ⟨hidle, hpending⟩
  have hstep : step s = hostWriteSeq v { s with pending := rest } := step_access s _ rest hidle hpending nofun
  rw [hstep, hostWriteSeq]
  refine ⟨fun hfits => ?_, fun hfits => if_neg (by rw [hfits]; decide)⟩
  rw [if_pos hfits]
  exact ⟨_, rfl, State.getSeq_setSeq _ v, fun q hne => State.getSeq_setSeq_ne _ v q hne, State.getReg_setSeq _ v,
    fun b a => congrArg (Memory.read · a) (State.buffer_setSeq _ v b), rfl, State.setSeq_pending _ v,
    State.setSeq_params _ v, State.setSeq_faultMark _ v, State.setSeq_refusalMark _ v, State.setSeq_walk _ v,
    State.setSeq_rdata _ v, State.setSeq_reads _ v⟩

/-! ### Reads -/

theorem regValue_of_written {s : State} {r : Reg} (h : s.written.reg r = true) : s.regValue r = s.getReg r := if_pos h

/-- What an unwritten register reads as fits it (I14). -/
theorem regValue_fits_of_unwritten {s : State} {r : Reg} (h : s.written.reg r = false) :
    r.fits s.params (s.regValue r) = true := by
  rw [State.regValue, if_neg (by rw [h]; decide), Reg.fits]
  cases hbound : r.bound s.params with
  | none => rfl
  | some b => simpa only [hbound, decide_eq_true_eq] using Nat.mod_lt _ (Reg.bound_pos hbound)

theorem hostRead_number (r : Reg) (s : State) : hostRead r.number s = .next (s.returnRead (.nat (s.regValue r))) := by
  simp only [hostRead, Reg.number_ne_cmdNumber, if_false, regAt_number]

theorem hostRead_reserved {n : Byte} (s : State) (h : (0x07 ≤ n.toNat ∧ n.toNat ≤ 0x0F) ∨ 0x1C ≤ n.toNat) :
    hostRead n s = .refused (.reservedRegister n) := by
  have hcmd : n ≠ cmdNumber := by
    rintro rfl
    revert h
    decide
  simp only [hostRead, hcmd, if_false, (regAt_eq_none_iff n).2 (.inr h)]

theorem byteValue_of_read {s : State} {b : Buf} {a : Nat} {v : Byte} (h : (s.buffer b).read a = some v) :
    s.byteValue b a = v := by
  rw [State.byteValue, h, Option.getD_some]

/-- Settles O53: every read is `returnRead` of a value, which is the element's own when the element is written. -/
theorem hostReadsChangeNothing : Obligations.HostReadsChangeNothing := by
  intro s rest
  have hstep (op : HostOp) (h : Next s op rest) (hop : ∀ v, op ≠ .write cmdNumber v) :
      step s = hostAccess op { s with pending := rest } := step_access s op rest h.1 h.2 hop
  refine ⟨fun n hnext => ⟨?_, ?_, ?_⟩, fun b off n hnext hroom => ?_, fun q hnext => ?_⟩
  · rintro rfl
    exact hstep (.read 0x00) hnext nofun
  · rintro r rfl
    exact ⟨_, (hstep (.read r.number) hnext nofun).trans (hostRead_number r _),
      fun h => regValue_of_written (s := { s with pending := rest }) h,
      fun h => regValue_fits_of_unwritten (s := { s with pending := rest }) h⟩
  · exact fun h => (hstep (.read n) hnext nofun).trans (hostRead_reserved _ h)
  · refine ⟨_, (hstep (.readBytes b off n) hnext nofun).trans (if_pos hroom), by simp, fun k v hk hread => ?_⟩
    rw [List.getElem?_map, List.getElem?_range hk, Option.map_some]
    exact congrArg some (byteValue_of_read (s := { s with pending := rest }) hread)
  · exact ⟨_, hstep (.readSeq q) hnext nofun, fun h => if_pos h⟩

/-! ### Runs of host operations (R99, R265) -/

/-- The operations run from one state, between commands, to another. -/
def HostRun (ops : List HostOp) (s t : State) : Prop := Safety.EndState s ops { t with pending := [] }

theorem HostRun.nil (s : State) : HostRun [] s s := rfl

/-- An access, and the operations after it. -/
theorem HostRun.cons {op : HostOp} {ops : List HostOp} {s t u : State} (hidle : s.walk.phase = .idle)
    (hop : ∀ v, op ≠ .write cmdNumber v) (h : hostAccess op { s with pending := ops } = .next { t with pending := ops })
    (hrest : HostRun ops t u) : HostRun (op :: ops) s u :=
  (run_succ ops.length ((step_access { s with pending := op :: ops } op ops hidle rfl hop).trans h)).trans hrest

/-- A register write the host may make. -/
theorem HostRun.write {r : Reg} {v : Nat} {ops : List HostOp} {s u : State} (hidle : s.walk.phase = .idle)
    (hro : r.readOnly = false) (hfits : r.fits s.params v = true) (hrest : HostRun ops (s.hostSet r v) u) :
    HostRun (writeOp r v :: ops) s u := by
  refine .cons hidle (fun _ h => Reg.number_ne_cmdNumber r (HostOp.write.inj h).1) ?_ hrest
  simp only [writeOp, hostAccess, regAt_number]
  rw [hostWrite_of_fits (s := { s with pending := ops }) hro hfits, State.hostSet, State.setReg_pending_comm]
  rfl

/-- Register writes the host may make, one after the other. -/
theorem HostRun.writes {ops : List HostOp} {u : State} (regs : List (Reg × Nat)) {s : State} (hidle : s.walk.phase = .idle)
    (hregs : ∀ x ∈ regs, x.1.readOnly = false ∧ x.1.fits s.params x.2 = true)
    (hrest : HostRun ops (regs.foldl (fun s x => s.hostSet x.1 x.2) s) u) :
    HostRun (regs.map (fun x => writeOp x.1 x.2) ++ ops) s u := by
  induction regs generalizing s with
  | nil => exact hrest
  | cons x regs ih =>
    obtain ⟨⟨hro, hfits⟩, hregs⟩ := List.forall_mem_cons.1 hregs
    refine .write hidle hro hfits (ih ?_ ?_ hrest)
    · exact (congrArg Walk.phase (State.setReg_walk s x.1 x.2)).trans hidle
    · intro y hy
      exact (State.setReg_params s x.1 x.2).symm ▸ hregs y hy

/-- A sequence write that fits. -/
theorem HostRun.writeSeq {v : SeqValue} {ops : List HostOp} {s u : State} (hidle : s.walk.phase = .idle)
    (hfits : v.fits s.params = true) (hrest : HostRun ops { s.setSeq v with written := s.written.markSeq v.name } u) :
    HostRun (.writeSeq v :: ops) s u := by
  refine .cons hidle nofun ((if_pos hfits).trans ?_) hrest
  cases v <;> rfl

/-- An empty sequence fits any storage. -/
theorem SeqValue.fits_nil (p : Config.Params) :
    (SeqValue.csrcList []).fits p = true ∧ (SeqValue.extensionElements []).fits p = true ∧
      (SeqValue.payload []).fits p = true := by
  simp [SeqValue.fits]

/-- CLEARPKT's register writes (R99). -/
def clearRegs : List (Reg × Nat) :=
  [(.version, 2), (.padding, 0), (.hasExtension, 0), (.csrcCount, 0), (.marker, 0), (.payloadType, 0),
   (.sequenceNumber, 0), (.timestamp, 0), (.ssrc, 0), (.extensionProfile, 0), (.paddingSize, 0), (.extBytes, 0)]

/-- The packet CLEARPKT leaves (R99). -/
def clearedPacket : Packet := { Packet.zero with version := 2 }

/-- The register writes leave every register of the packet as CLEARPKT's, and the sequences as they were. -/
theorem clearRegs_foldl (s : State) :
    clearRegs.foldl (fun s x => s.hostSet x.1 x.2) s =
      { s with
        pkt := { clearedPacket with
          csrcList := s.pkt.csrcList, extensionElements := s.pkt.extensionElements, payload := s.pkt.payload }
        written := { s.written.markPkt with
          csrcList := s.written.csrcList, extensionElements := s.written.extensionElements
          payload := s.written.payload } } := by
  simp only [clearRegs, List.foldl_cons, List.foldl_nil, State.hostSet, State.setReg, Written.markReg]
  rfl

theorem clearPkt_run {s : State} (hidle : s.walk.phase = .idle) :
    HostRun clearPkt s { s with pkt := clearedPacket, written := s.written.markPkt } := by
  have hops : clearPkt = clearRegs.map (fun x => writeOp x.1 x.2) ++
      [.writeSeq (.csrcList []), .writeSeq (.extensionElements []), .writeSeq (.payload [])] := rfl
  rw [hops]
  refine .writes clearRegs hidle ?_ ?_
  · simp [clearRegs, Reg.readOnly, Reg.fits, Reg.bound]
  · rw [clearRegs_foldl]
    obtain ⟨hcsrcs, helems, hpayload⟩ := SeqValue.fits_nil s.params
    exact .writeSeq hidle hcsrcs (.writeSeq hidle helems (.writeSeq hidle hpayload (.nil _)))

/-- Settles O54: the fifteen writes give `clearedPacket`. -/
theorem clearPktGivesCanonicalPacket : Obligations.ClearPktGivesCanonicalPacket := by
  intro s hidle
  exact ⟨_, clearPkt_run hidle, (by decide : clearedPacket.canonical), rfl, fun b _ => by cases b <;> rfl, rfl, rfl, rfl, rfl,
    rfl, rfl⟩

/-- LOADFRAME stores the bytes and their number (R99). -/
theorem loadFrame_run {s : State} {B : Bytes} (hidle : s.walk.phase = .idle) (hroom : B.length ≤ s.params.maxIn) :
    HostRun (loadFrame B) s
      { s with ibuf := s.ibuf.writeRange 0 B, ilen := B.length, written := s.written.markReg .ilen } := by
  have hbytes : 0 + B.length ≤ s.params.maxIn := (Nat.zero_add _).symm ▸ hroom
  refine .cons (t := { s with ibuf := s.ibuf.writeRange 0 B }) hidle nofun ?_
    (.write hidle rfl (decide_eq_true (Nat.lt_succ_of_le hroom)) (.nil _))
  exact if_pos hbytes

/-- Settles O55: the bytes written are the frame, and ILEN is its length. -/
theorem loadFrameMakesDecodeReady : Obligations.LoadFrameMakesDecodeReady := by
  intro s B hidle hroom
  refine ⟨_, loadFrame_run hidle hroom, ⟨rfl, rfl, fun k hk => ?_⟩, rfl, rfl⟩
  simpa using Memory.read_writeRange_in s.ibuf 0 B k hk

end Sys2Proof.Machine
end

section
/-! The invariant of the machine: each way a step can change the state keeps it (10_state.md R46, 20_memory.md R60 to R62,
43_extension_block.md R201). -/

namespace Sys2Proof.Machine

open Sys2Proof.Obl Sys2Proof.Safety

/-! ### Parts of the invariant -/

/-- The bounds of R46 on a packet's sequences. -/
abbrev SeqsOk (params : Config.Params) (p : Packet) : Prop :=
  p.csrcList.length ≤ params.maxCsrcSlots ∧ p.payload.length ≤ params.maxPayload ∧
    ∀ e ∈ p.extensionElements, e.data.length ≤ params.maxElemBytes

/-- What DECODE builds fits an instance whose parameters meet R11. -/
theorem seqsOk_of_bounds {params : Config.Params} {p : Packet} (h : params.Valid) (hcsrcs : p.csrcList.length ≤ 15)
    (hpayload : p.payload.length ≤ params.maxIn) (helems : ∀ e ∈ p.extensionElements, e.data.length ≤ 16) :
    SeqsOk params p := by
  refine ⟨by omega, by omega, fun e he => ?_⟩
  have := helems e he
  omega

theorem walkOk_idle (params : Config.Params) : WalkOk params Walk.idle := by
  simp [WalkOk, Walk.idle, Packet.zero]

/-- Every STATUS a command leaves is legal (R40, R221). -/
theorem statusOk_statusWord {code : BitVec 4} (c : Command) (h : code.toNat ≤ 9) : StatusOk (statusWord code c.opcode) := by
  obtain ⟨hreserved, hlastop, hcode⟩ := statusWord_fields code c.opcode
  refine ⟨hreserved, by rwa [statusCode, hcode], fun hzero => ?_⟩
  rw [statusLastop, hlastop] at hzero
  cases c <;> cases hzero

theorem Err.code_le (e : Err) : e.code.toNat ≤ 9 := by
  cases e <;> decide

/-- A buffer stays in canonical form and inside its capacity when bytes are written inside it. -/
theorem bufferOk_writeRange {m : Memory} {capacity off : Nat} {bs : Bytes} (h : BufferOk m capacity)
    (hroom : off + bs.length ≤ capacity) : BufferOk (m.writeRange off bs) capacity := by
  obtain ⟨hwf, hinside⟩ := h
  refine ⟨Memory.wf_writeRange m off bs hwf, fun c hc => ?_⟩
  obtain ⟨-, hlt⟩ | hc := Memory.mem_writeRange m off bs c hc
  · omega
  · exact hinside c hc

/-! ### The engine's moves -/

section
variable {s : State} (h : Inv s)
include h

theorem inv_setWalk {w : Walk} (hw : WalkOk s.params w) : Inv (s.setWalk w) := by
  obtain ⟨hparams, hregs, hbufs, hseqs, hstatus, -⟩ := h
  exact ⟨hparams, hregs, hbufs, hseqs, hstatus, hw⟩

theorem inv_complete (c : Command) : Inv (s.complete c) := by
  obtain ⟨hparams, hregs, hbufs, hseqs, -, -⟩ := h
  exact ⟨hparams, hregs, hbufs, hseqs, statusOk_statusWord c (Nat.zero_le _), walkOk_idle _⟩

theorem inv_raise (c : Command) (e : Err) : Inv (s.raise c e) := by
  obtain ⟨hparams, ⟨hilen, hcap, holen, hargLen⟩, hbufs, hseqs, -, -⟩ := h
  have hstatus := statusOk_statusWord c e.code_le
  cases c with
  | encode => exact ⟨hparams, ⟨hilen, hcap, Nat.zero_le _, hargLen⟩, hbufs, hseqs, hstatus, walkOk_idle _⟩
  | decode => exact ⟨hparams, ⟨hilen, hcap, holen, hargLen⟩, hbufs, hseqs, hstatus, walkOk_idle _⟩
  | addExt => exact ⟨hparams, ⟨hilen, hcap, holen, hargLen⟩, hbufs, hseqs, hstatus, walkOk_idle _⟩

theorem inv_commitPacket {p : Packet} (hp : SeqsOk s.params p) : Inv (s.commitPacket p) := by
  obtain ⟨hparams, hregs, hbufs, -, -, -⟩ := h
  exact ⟨hparams, hregs, hbufs, hp, statusOk_statusWord .decode (Nat.zero_le _), walkOk_idle _⟩

theorem inv_commitFrame (hfits : s.pkt.total ≤ s.cap) : Inv (s.commitFrame s.pkt) := by
  obtain ⟨hparams, ⟨hilen, hcap, -, hargLen⟩, ⟨hibuf, hobuf, hargbuf⟩, hseqs, -, -⟩ := h
  have hroom : 0 + (frameBytes s.pkt).length ≤ s.params.maxOut := by
    rw [frameBytes_length, Nat.zero_add]
    exact hfits.trans hcap
  exact ⟨hparams, ⟨hilen, hcap, hfits.trans hcap, hargLen⟩, ⟨hibuf, bufferOk_writeRange hobuf hroom, hargbuf⟩, hseqs,
    statusOk_statusWord .encode (Nat.zero_le _), walkOk_idle _⟩

theorem inv_appended (hgood : ¬badArgument s) : Inv s.appended := by
  obtain ⟨hparams, hregs, hbufs, ⟨hcsrcs, hpayload, helems⟩, -, -⟩ := h
  refine ⟨hparams, hregs, hbufs, ⟨hcsrcs, hpayload, fun e he => ?_⟩, statusOk_statusWord .addExt (Nat.zero_le _),
    walkOk_idle _⟩
  obtain he | he := List.mem_append.1 he
  · exact helems e he
  · have hdata : e.data = s.argData := congrArg Element.data (List.mem_singleton.1 he)
    show e.data.length ≤ s.params.maxElemBytes
    rw [hdata]
    omega

/-! ### The commands -/

/-- A record decoded from the frame fits the instance: the frame is no longer than IBUF (R25, R34, R143). -/
theorem seqsOk_of_decodeFrame {p : Packet} (hinputs : ∀ e ∈ Command.decode.inputs, s.isWritten e = true)
    (hp : decodeFrame s.inFrame = .ok p) : SeqsOk s.params p := by
  obtain ⟨hparams, ⟨hilen, -⟩, -⟩ := h
  have hlen := inFrame_length s ((decodeInputs_written s).1 hinputs).2
  obtain ⟨-, hcount, ⟨-, hvalid, -⟩, -⟩ := decodeFrame_record hp
  obtain ⟨-, cs, es, ps, pay, n, -, -, htail, rfl⟩ := decodeFrame_ok hp
  have hpay := readTail_length _ _ _ _ _ htail
  have hcc := (frameRecord s.inFrame cs es pay n).csrcCount.isLt
  refine seqsOk_of_bounds hparams (by omega) ?_ fun e he => (hvalid e he).2.2
  show pay.length ≤ s.params.maxIn
  omega

theorem exec_command_keeps_inv {i : Instr} {t : State} (hi : i.port = .cmd) (hexec : exec i s = .next t) : Inv t := by
  cases i with
  | decode =>
    obtain ⟨hinputs, ⟨p, hp, rfl⟩ | ⟨e, -, rfl⟩⟩ := (execDecode_next s t).1 hexec
    · exact inv_commitPacket h (seqsOk_of_decodeFrame h hinputs hp)
    · exact inv_raise h .decode e
  | encode =>
    obtain ⟨-, ⟨hcheck, rfl⟩ | ⟨e, -, rfl⟩⟩ := (execEncode_next s t).1 hexec
    · exact inv_commitFrame h (total_le_of_encodeError_none hcheck)
    · exact inv_raise h .encode e
  | addExt =>
    obtain ⟨-, ⟨-, rfl⟩ | ⟨-, -, rfl⟩ | ⟨hgood, -, rfl⟩⟩ := (execAddExt_next s t).1 hexec
    · exact inv_raise h .addExt .invalidArgument
    · exact inv_complete h .addExt
    · exact inv_appended h hgood
  | reservedCmd w => cases hexec
  | _ => cases hi

end

/-! ### DECODE in progress -/

section
variable {params : Config.Params} {w : Walk} (hw : WalkOk params w)
include hw

/-- Frame byte 0 or 1: only the phase and the draft's scalar fields change. -/
theorem walkOk_header {phase : Phase} {draft : Packet} (hlen : 12 ≤ w.frame.length) (hphase : phase ≠ .body)
    (hcsrcs : draft.csrcList = w.draft.csrcList) (helems : draft.extensionElements = w.draft.extensionElements) :
    WalkOk params { w with phase := phase, draft := draft } := by
  obtain ⟨hcursors, hdraft, -, -⟩ := hw
  exact ⟨hcursors, by rw [hcsrcs, helems]; exact hdraft, fun _ => hlen, fun hbody => absurd hbody hphase⟩

/-- S4 and S5: the CSRC list is all in the frame (R136). -/
theorem walkOk_words {cs : List Word32} {phase : Phase} {draft : Packet} (hlen : 12 ≤ w.frame.length) (hphase : phase ≠ .body)
    (hcs : readCsrcs w.frame 12 w.draft.csrcCount.toNat = some cs) (hcsrcs : draft.csrcList = cs)
    (helems : draft.extensionElements = w.draft.extensionElements) :
    WalkOk params { w with phase := phase, cur := 12 + 4 * w.draft.csrcCount.toNat, draft := draft } := by
  obtain ⟨⟨hframe, -, hi⟩, ⟨-, hdraft⟩, -, -⟩ := hw
  have hcount := readCsrcs_length _ _ _ _ hcs
  have hlt := w.draft.csrcCount.isLt
  have hfits : 12 + 4 * w.draft.csrcCount.toNat ≤ w.frame.length := by
    have hnone := mt (readCsrcs_eq_none w.frame 12 w.draft.csrcCount.toNat).2 (by rw [hcs]; nofun)
    omega
  refine ⟨⟨hframe, hfits, hi⟩, ⟨?_, ?_⟩, fun _ => hlen, fun hbody => absurd hbody hphase⟩
  · rw [hcsrcs]
    omega
  · rw [helems]
    exact hdraft

/-- The profile's two bytes are in the frame (R137). -/
theorem walkOk_pastProfile (hphase : w.phase = .profile) (hroom : w.cur + 2 ≤ w.frame.length) :
    WalkOk params w.pastProfile := by
  obtain ⟨⟨hframe, -, hi⟩, hdraft, hlen, -⟩ := hw
  exact ⟨⟨hframe, hroom, hi⟩, hdraft, fun _ => hlen (by simp [hphase]), nofun⟩

/-- The body announced is in the frame, and the iterator starts (R141, R191). -/
theorem walkOk_body {n : Nat} {draft : Packet} (hphase : w.phase = .extLength) (hn : readExtLength w.frame w.cur = .ok n)
    (hcsrcs : draft.csrcList = w.draft.csrcList) (helems : draft.extensionElements = []) :
    WalkOk params
      { w with phase := .body, cur := w.cur + 2, bodyLen := n, i := 0, seen := [], draft := draft } := by
  obtain ⟨⟨hframe, -, -⟩, ⟨hcount, -⟩, hlen, -⟩ := hw
  obtain ⟨-, hinside⟩ := readExtLength_eq_ok hn
  refine ⟨⟨hframe, by dsimp only; omega, Nat.zero_le _⟩, ?_, fun _ => hlen (by simp [hphase]), fun _ => hinside⟩
  rw [hcsrcs, helems]
  exact ⟨hcount, rfl, List.nodup_nil, nofun⟩

/-- A filler in the body (R194). -/
theorem walkOk_pad (hi : w.i < w.bodyLen) : WalkOk params { w with i := w.i + 1 } := by
  obtain ⟨⟨hframe, hcur, -⟩, hdraft, hlen, hbody⟩ := hw
  exact ⟨⟨hframe, hcur, hi⟩, hdraft, hlen, hbody⟩

/-- An element recorded ends in the body, its id is new and its data are 1 to 16 bytes (R196 to R199). -/
theorem walkOk_recorded {id lf : Nibble} {i : Nat} {es : List Element} {seen : List Nibble}
    (hrecord : recordElement w.body w.i id lf w.draft.extensionElements w.seen = some (i, es, seen)) :
    WalkOk params (w.recorded i seen es) := by
  obtain ⟨⟨hframe, hcur, -⟩, ⟨hcount, hids, hnodup, hdata⟩, hlen, hbody⟩ := hw
  obtain ⟨hfits, hnew, hresult⟩ := (recordElement_some ..).1 hrecord
  cases hresult
  have hcursor : w.i + 2 + lf.toNat ≤ w.bodyLen := hfits.trans (slice_length_le _ _ _)
  have hslice : (slice w.body (w.i + 1) (lf.toNat + 1)).length = lf.toNat + 1 := slice_length_eq _ _ _ (by omega)
  have hlf := lf.isLt
  refine ⟨⟨hframe, hcur, hcursor⟩, ⟨hcount, ?_, ?_, ?_⟩, hlen, hbody⟩
  · simp [Walk.recorded, hids]
  · exact List.concat_eq_append ▸ hnodup.concat hnew
  · intro e he
    obtain he | he := List.mem_append.1 he
    · exact hdata e he
    · rw [List.mem_singleton.1 he, hslice]
      omega

/-- The body's end is in the frame (R143). -/
theorem walkOk_endBody (hphase : w.phase = .body) : WalkOk params w.endBody := by
  obtain ⟨⟨hframe, -, hi⟩, hdraft, hlen, hbody⟩ := hw
  exact ⟨⟨hframe, hbody hphase, hi⟩, hdraft, fun _ => hlen (by simp [hphase]), nofun⟩

end

section
variable {s : State} (h : Inv s)
include h

theorem inv_walk : WalkOk s.params s.walk := by
  obtain ⟨-, -, -, -, -, hwalk⟩ := h
  exact hwalk

/-- Past frame byte 0 the frame has its 12 fixed bytes (R132). -/
theorem inv_frame_length (hidle : s.walk.phase ≠ .idle) (hbyte0 : s.walk.phase ≠ .byte0) : 12 ≤ s.walk.frame.length := by
  obtain ⟨-, -, hlen, -⟩ := inv_walk h
  exact hlen ⟨hidle, hbyte0⟩

/-- A control byte of the body keeps the invariant. -/
theorem exec_ctrl_keeps_inv {i : Instr} {t : State} (hi : i.port = .ctrl) (hphase : s.walk.phase = .body)
    (hlt : s.walk.i < s.walk.bodyLen) (hexec : exec i s = .next t) : Inv t := by
  have hw := inv_walk h
  cases i with
  | extPad l => cases hexec; exact inv_setWalk h (walkOk_pad hw hlt)
  | extTerm x => cases hexec; exact inv_setWalk h (walkOk_endBody hw hphase)
  | extElem id lf =>
    cases hrecord : recordElement s.walk.body s.walk.i id lf s.walk.draft.extensionElements s.walk.seen with
    | none =>
      cases (exec_extElem_of_none hrecord).symm.trans hexec
      exact inv_raise h .decode .malformed
    | some r =>
      obtain ⟨i, es, seen⟩ := r
      cases (exec_extElem_of_some hrecord).symm.trans hexec
      exact inv_setWalk h (walkOk_recorded hw hrecord)
  | _ => cases hi

/-- The wire unit DECODE stands at keeps the invariant. -/
theorem exec_unit_keeps_inv {i : Instr} {t : State} (hunit : unitAt s i) (hexec : exec i s = .next t) : Inv t := by
  have hw := inv_walk h
  obtain ⟨rest, ⟨hphase, hlen, hdecode⟩ | ⟨hphase, hdecode⟩ | ⟨hphase, hdecode⟩ | ⟨hphase, hlt, hdecode⟩⟩ := hunit
  · have hport := decode_port _ _ _ _ hdecode
    cases i with
    | rtpByte0 v p x cc =>
      rw [exec, execRtpByte0] at hexec
      split_ifs at hexec
      · cases hexec; exact inv_raise h .decode .unsupportedVersion
      · cases hexec; exact inv_setWalk h (walkOk_header hw hlen nofun rfl rfl)
    | _ => cases hport
  · have hport := decode_port _ _ _ _ hdecode
    have hlen := inv_frame_length h (by simp [hphase]) (by simp [hphase])
    cases i with
    | rtpByte1 m pt => cases hexec; exact inv_setWalk h (walkOk_header hw hlen nofun rfl rfl)
    | _ => cases hport
  · have hport := decode_port _ _ _ _ hdecode
    have hroom : s.walk.cur + 2 ≤ s.walk.frame.length := by
      by_contra hshort
      cases (decode_profile_short (Nat.not_le.1 hshort)).symm.trans hdecode
    cases i with
    | extProfileBede => cases hexec; exact inv_setWalk h (walkOk_pastProfile hw hphase hroom)
    | _ => cases hport
  · exact exec_ctrl_keeps_inv h (decode_port _ _ _ _ hdecode) hphase hlt hexec

theorem walkWords_keeps_inv (hphase : s.walk.phase = .words) : Inv (walkWords s) := by
  have hlen := inv_frame_length h (by simp [hphase]) (by simp [hphase])
  simp only [walkWords]
  split
  · exact inv_raise h .decode .truncated
  · next cs hcs => exact inv_setWalk h (walkOk_words (inv_walk h) hlen (by split <;> nofun) hcs rfl rfl)

theorem walkExtLength_keeps_inv (hphase : s.walk.phase = .extLength) : Inv (walkExtLength s) := by
  simp only [walkExtLength]
  split
  · exact inv_raise h .decode _
  · next n hn => exact inv_setWalk h (walkOk_body (inv_walk h) hphase hn rfl rfl)

theorem walkTail_keeps_inv : Inv (walkTail s) := by
  simp only [walkTail]
  split
  · exact inv_raise h .decode _
  · next pay n htail =>
    obtain ⟨⟨hframe, -, -⟩, ⟨hcsrcs, -, -, hdata⟩, -, -⟩ := inv_walk h
    have hpay := readTail_length _ _ _ _ _ htail
    exact inv_commitPacket h (seqsOk_of_bounds h.1 hcsrcs (hpay.trans hframe) fun e he => (hdata e he).2)

theorem step_walk_keeps_inv {t : State} (hwalk : s.walk.phase ≠ .idle) (hstep : step s = .next t) : Inv t := by
  obtain ⟨i, hunit, hexec⟩ | ⟨e, rfl⟩ | ⟨hphase, rfl⟩ | ⟨hphase, rfl⟩ | ⟨hphase, -, rfl⟩ | ⟨-, rfl⟩ :=
    step_walk_next s t hwalk hstep
  · exact exec_unit_keeps_inv h hunit hexec
  · exact inv_raise h .decode e
  · exact walkWords_keeps_inv h hphase
  · exact walkExtLength_keeps_inv h hphase
  · exact inv_setWalk h (walkOk_endBody (inv_walk h) hphase)
  · exact walkTail_keeps_inv h

/-! ### The host's accesses -/

theorem inv_hostSet {r : Reg} {v : Nat} (hro : r.readOnly = false) (hfits : r.fits s.params v = true) :
    Inv (s.hostSet r v) := by
  obtain ⟨hparams, ⟨hilen, hcap, holen, hargLen⟩, hrest⟩ := h
  have hbound {b : Nat} (hfits : decide (v < b + 1) = true) : v ≤ b := Nat.le_of_lt_succ (of_decide_eq_true hfits)
  cases r with
  | status => cases hro
  | olen => cases hro
  | ilen => exact ⟨hparams, ⟨hbound hfits, hcap, holen, hargLen⟩, hrest⟩
  | cap => exact ⟨hparams, ⟨hilen, hbound hfits, holen, hargLen⟩, hrest⟩
  | argLen => exact ⟨hparams, ⟨hilen, hcap, holen, hbound hfits⟩, hrest⟩
  | _ => exact ⟨hparams, ⟨hilen, hcap, holen, hargLen⟩, hrest⟩

theorem inv_writeBytes {b : Buf} {off : Nat} {bs : Bytes} (hroom : off + bs.length ≤ bufCapacity s.params b) :
    Inv (s.setBuffer b ((s.buffer b).writeRange off bs)) := by
  obtain ⟨hparams, hregs, ⟨hibuf, hobuf, hargbuf⟩, hrest⟩ := h
  cases b with
  | ibuf => exact ⟨hparams, hregs, ⟨bufferOk_writeRange hibuf hroom, hobuf, hargbuf⟩, hrest⟩
  | obuf => exact ⟨hparams, hregs, ⟨hibuf, bufferOk_writeRange hobuf hroom, hargbuf⟩, hrest⟩
  | argbuf => exact ⟨hparams, hregs, ⟨hibuf, hobuf, bufferOk_writeRange hargbuf hroom⟩, hrest⟩

theorem inv_setSeq {v : SeqValue} {w : Written} (hfits : v.fits s.params = true) :
    Inv { s.setSeq v with written := w } := by
  obtain ⟨hparams, hregs, hbufs, ⟨hcsrcs, hpayload, helems⟩, hrest⟩ := h
  cases v with
  | csrcList ws => exact ⟨hparams, hregs, hbufs, ⟨of_decide_eq_true hfits, hpayload, helems⟩, hrest⟩
  | payload bs => exact ⟨hparams, hregs, hbufs, ⟨hcsrcs, of_decide_eq_true hfits, helems⟩, hrest⟩
  | extensionElements es =>
    have hdata : ∀ e ∈ es, e.data.length ≤ s.params.maxElemBytes := by
      simp only [SeqValue.fits, Bool.and_eq_true, List.all_eq_true, decide_eq_true_eq] at hfits
      exact hfits.2
    exact ⟨hparams, hregs, hbufs, ⟨hcsrcs, hpayload, hdata⟩, hrest⟩

end

/-- Reset meets the invariant, whatever the legal parameters: every field is zero or empty (R250). -/
theorem inv_resetWith {params : Config.Params} (h : params.Valid) : Inv (State.resetWith params) := by
  have hbuf (capacity : Nat) : BufferOk [] capacity := ⟨Memory.wf_nil, nofun⟩
  exact ⟨h, ⟨Nat.zero_le _, Nat.zero_le _, Nat.zero_le _, Nat.zero_le _⟩, ⟨hbuf _, hbuf _, hbuf _⟩,
    ⟨Nat.zero_le _, Nat.zero_le _, nofun⟩, (by decide : StatusOk 0), walkOk_idle params⟩

theorem hostAccess_keeps_inv {op : HostOp} {s t : State} (h : Inv s) (haccess : hostAccess op s = .next t) : Inv t := by
  obtain ⟨n, v, r, -, -, hro, hfits, rfl⟩ | ⟨b, off, bs, -, -, hroom, rfl⟩ | ⟨v, -, hfits, rfl⟩ | ⟨v, rfl⟩ | ⟨-, rfl⟩ :=
    hostAccess_next op s t haccess
  · exact inv_hostSet h hro hfits
  · exact inv_writeBytes h hroom
  · exact inv_setSeq h hfits
  · exact h
  · exact inv_resetWith h.1

/-! ### The statements -/

/-- Settles O56: with no DECODE in progress the step is idle, a command or an access; otherwise it is a part of DECODE. -/
theorem stepKeepsInvariant : Obligations.StepKeepsInvariant := by
  intro s t h hstep
  by_cases hidle : s.walk.phase = .idle
  · obtain ⟨-, rfl⟩ | ⟨v, rest, -, -, hexec⟩ | ⟨op, rest, -, -, haccess⟩ := step_idle_next s t hidle hstep
    · exact h
    · exact exec_command_keeps_inv (s := { s with pending := rest }) h (decodeCmd_port _) hexec
    · exact hostAccess_keeps_inv (s := { s with pending := rest }) h haccess
  · exact step_walk_keeps_inv h hidle hstep

/-- Settles O57: the reset instance's parameters meet R11. -/
theorem resetMeetsInvariant : Obligations.ResetMeetsInvariant := inv_resetWith (by decide)

end Sys2Proof.Machine
end
